-- ==== Sys2Proof/Word.lean ====
section
/-! DEFINITION. The word types of the block: the widths spec/00_scope.md R11 and spec/30_encoding.md R91 use. -/

namespace Sys2Proof

/-- `u8`. -/
abbrev Byte := BitVec 8

/-- `u4`, half of a byte. -/
abbrev Nibble := BitVec 4

/-- A 7-bit two-wire device address (20_memory.md R61). -/
abbrev Addr7 := BitVec 7

/-- `u16`. -/
abbrev Half := BitVec 16

/-- `u32` and, read by `toInt`, `i32`. -/
abbrev Word := BitVec 32

/-- A single bit: `true` is 1. It stands for a pin level, an acknowledge and a one-bit flag. -/
abbrev Bit := Bool

end Sys2Proof
end

