-- ==== Sys2Proof/Config.lean ====
section
/-! DEFINITION. What is fixed for one block: the constants and parameters of spec/00_scope.md R10, the arguments of
construction (spec/70_reset_and_hazards.md R331 to R336), and the free values. -/

namespace Sys2Proof

/-! ### Fixed constants of R10 -/

/-- `SCAN_LIMIT`: a scan covers the addresses 0 .. 126. -/
def Config.scanLimit : Nat := 127

/-- `PWM_CHANNELS`. -/
def Config.pwmChannels : Nat := 16

/-- Nanoseconds in a millisecond: `delay_ms` operands are in milliseconds, `Delay` events in nanoseconds
(45_loadcell.md, opening). -/
def Config.nsPerMs : Nat := 1000000

/-! ### Free values (DESIGN CHOICE, safe: log 4 and log 6) -/

/-- Whether the bus action asked about in question `k` completes now (00_scope.md R15 (1)). -/
opaque Config.freeDone : Nat → Bool

/-- The acknowledge answered to question `k` (R15 (2)). -/
opaque Config.freeAck : Nat → Bit

/-- The byte received in question `k` (R15 (3)). -/
opaque Config.freeRx : Nat → Byte

/-- The level of the data pin in question `k` (R15 (4)). -/
opaque Config.freeLevel : Nat → Bit

/-- `BUS_DIVISOR`: OPEN, no default. -/
opaque Config.busDivisor : Nat

/-- `T_LC_HIGH` in ns: OPEN, no default. -/
opaque Config.tLcHigh : Nat

/-- `T_LC_LOW` in ns: OPEN, no default. -/
opaque Config.tLcLow : Nat

/-! ### Bus status codes (30_encoding.md R99) -/

/-- The abstract bus status codes. -/
inductive BusStatus where
  | startSent
  | repStartSent
  | mtSlaAck
  | mtSlaNack
  | mtDataAck
  | mtDataNack
  | arbLost
  | mrSlaAck
  | mrSlaNack
  | mrDataAck
  | mrDataNack
  | noInfo
  | busError
  deriving DecidableEq, Repr

/-- The place of a code in the table of R99. -/
def BusStatus.index : BusStatus → Nat
  | .startSent => 0
  | .repStartSent => 1
  | .mtSlaAck => 2
  | .mtSlaNack => 3
  | .mtDataAck => 4
  | .mtDataNack => 5
  | .arbLost => 6
  | .mrSlaAck => 7
  | .mrSlaNack => 8
  | .mrDataAck => 9
  | .mrDataNack => 10
  | .noInfo => 11
  | .busError => 12

/-- `STATUS_CODE`: the default numbers of R99, in the table's order, 8 bits each (DESIGN CHOICE, log 26). -/
def Config.defaultStatusCodes : List Byte :=
  [0x08, 0x10, 0x18, 0x20, 0x28, 0x30, 0x38, 0x40, 0x48, 0x50, 0x58, 0xF8, 0x00]

/-! ### Parameters -/

/-- `ROW_OFFSET[0..3]` (00_scope.md R10, 30_encoding.md R107). DESIGN CHOICE (log 28): the spec gives the offsets no width
and no range; they are 8 bits here, and construction admits every value. -/
structure RowOffsets where
  row0 : Byte := 0x00
  row1 : Byte := 0x40
  row2 : Byte := 0x14
  row3 : Byte := 0x54
  deriving DecidableEq, Repr

/-- The parameters of R10 that no field of the architectural state holds. Times are minimums in nanoseconds but
`tReadyPoll`, in milliseconds. The values are R10's defaults; `tLcHigh` and `tLcLow` have none. Construction holds no
time to a minimum (DESIGN CHOICE, log 27). -/
structure Params where
  statusCode : List Byte := Config.defaultStatusCodes
  tEnHold : Nat := 450
  tSettle : Nat := 37000
  tPowerOn : Nat := 50000000
  tInit1 : Nat := 4500000
  tInit2 : Nat := 4500000
  tInit3 : Nat := 150000
  tInit4 : Nat := 150000
  tClear : Nat := 2000000
  rowOffset : RowOffsets := {}
  pwmRegMode1 : Nat := 0x00
  pwmMode1Value : Nat := 0xA0
  pwmRegPrescale : Nat := 0xFE
  pwmPrescaleValue : Nat := 0x03
  pwmLed0Base : Nat := 0x06
  tLcHigh : Nat := Config.tLcHigh
  tLcLow : Nat := Config.tLcLow
  tLcHighMax : Nat := 60000
  tReadyPoll : Nat := 0
  deriving DecidableEq, Repr

/-- The arguments of construction (R331 to R336). -/
structure ConstructArgs where
  busDivisor : Nat := Config.busDivisor
  lcdAddr : Nat := 0x27
  numLines : Nat := 2
  font5x10 : Bool := false
  blInit : Bit := true
  pwmAddr : Nat := 0x40
  lcGainInit : Nat := 1
  lcScale : Rat := 1
  params : Params := {}
  deriving DecidableEq, Repr

/-- The parameter checks of R334, R335 and R336; construction refuses arguments that fail one. DESIGN CHOICE (log 26, log 27,
log 28): no other argument is checked, so a short `STATUS_CODE` list, a `T_EN_HOLD` or `T_SETTLE` below the minimum of
R10 and R341, and every `ROW_OFFSET` are admitted. -/
def ConstructArgs.inRange (a : ConstructArgs) : Bool :=
  decide (a.lcdAddr < 128) && decide (1 ≤ a.numLines ∧ a.numLines ≤ 4)
  && decide (a.pwmAddr < 128) && decide (a.params.pwmLed0Base + 4 * 15 + 3 ≤ 0xFF)
  && decide (a.params.pwmRegMode1 ≤ 0xFF) && decide (a.params.pwmMode1Value ≤ 0xFF)
  && decide (a.params.pwmRegPrescale ≤ 0xFF) && decide (a.params.pwmPrescaleValue ≤ 0xFF)
  && decide (1 ≤ a.lcGainInit ∧ a.lcGainInit ≤ 3) && decide (a.lcScale ≠ 0)

end Sys2Proof
end

