-- ==== Sys2Proof/Syntax.lean ====
section
/-! DEFINITION. The operations of the block: one constructor per row of spec/opcode_table.json, with the operand
types of spec/30_encoding.md R91 and the operand order of R92. -/

namespace Sys2Proof

/-- Transfer direction `dir` of R91: W = 0, R = 1. -/
inductive Dir where
  | write
  | read
  deriving DecidableEq, Repr

/-- Display channel `mode` of R91: CMD = 0, DATA = 1 (42_display.md R190). -/
inductive Mode where
  | cmd
  | data
  deriving DecidableEq, Repr

/-- A bus action `launch` starts (40_bus_controller.md R130). `rx true` answers ACK, `rx false` NACK. -/
inductive BusAction where
  | start
  | tx (b : Byte)
  | rx (m : Bit)
  | stop
  deriving DecidableEq, Repr

/-- The operand of `shift_in_byte`: `base : u8 ∈ {0, 8, 16}` (45_loadcell.md R265). -/
inductive ShiftBase where
  | b0
  | b8
  | b16
  deriving DecidableEq, Repr

/-- What `acquire` returns and `release` takes. The spec gives a token no content (log 11). -/
inductive Token where
  | token
  deriving DecidableEq, Repr

/-- The operations (30_encoding.md R92). -/
inductive Instr where
  -- BusController, 40_bus_controller.md
  | startTransaction (addr : Byte) (dir : Dir)
  | writeByte (b : Byte)
  | readAck
  | readNack
  | stop
  | writeReg (addr : Byte) (bytes : List Byte)
  | readReg (addr : Byte) (reg : Byte) (n : Nat)
  | pingDevice (addr : Byte)
  | scanBus
  | wait
  | launch (action : BusAction)
  -- SharedBusHandle, 41_shared_bus.md
  | acquire
  | release (t : Token)
  -- DisplayDriver, 42_display.md
  | lcdInit
  | writeChar (c : Byte)
  | writeStr (str : List Byte)
  | commandWrite (cmd : Byte)
  | commandRead
  | setCursor (col : Byte) (row : Byte)
  | displayOn
  | displayOff
  | cursorOn
  | cursorOff
  | blinkOn
  | blinkOff
  | scrollLeft
  | scrollRight
  | leftToRight
  | rightToLeft
  | autoscroll
  | noAutoscroll
  | createChar (loc : Byte) (map : List Byte)
  | backlight
  | noBacklight
  | send (value : Byte) (mode : Mode)
  | receive (mode : Mode)
  | clear
  | expWrite (b : Byte)
  | expRead
  | pulseNibble (nib : Nibble) (mode : Mode)
  | readNibble (mode : Mode)
  | setBacklight (v : Bit)
  -- PwmDriver, 44_pwm.md
  | pwmInit
  | setChannel (channel : Byte) (on : Half) (off : Half)
  -- LoadCellDriver, 45_loadcell.md
  | isReady
  | waitReady (delayMs : Word)
  | waitReadyRetry (retries : Word) (delayMs : Word)
  | read
  | readAverage (count : Byte)
  | tare (count : Byte)
  | getValue (count : Byte)
  | getUnits (count : Byte)
  | powerDown
  | powerUp
  | setGain (gain : Byte)
  | shiftInByte (base : ShiftBase)
  | lcPulse
  | clk (l : Bit)
  deriving DecidableEq, Repr

end Sys2Proof
end

