-- ==== Sys2Proof/Machine/State.lean ====
section
/-! DEFINITION. The state of the block (spec/10_state.md), its wire events, results, refusals, and construction,
which is its reset (spec/70_reset_and_hazards.md R330 to R336). -/

namespace Sys2Proof.Machine

/-- A wire event (20_memory.md R66). -/
inductive Event where
  | start
  | repStart
  | tx (b : Byte) (a : Bit)
  | rx (b : Byte) (m : Bit)
  | stop
  | delay (ns : Nat)
  | clk (l : Bit)
  | dout (l : Bit)
  deriving DecidableEq, Repr

/-- `S.bc.phase` (10_state.md R24). -/
inductive BusPhase where
  | idle
  | started
  | activeW
  | activeR
  deriving DecidableEq, Repr

/-- `S.lc.phase` (10_state.md R43). -/
inductive LcPhase where
  | poweredDown
  | idle
  | shifting (k : Nat)
  | gainSelect (k : Nat)
  deriving DecidableEq, Repr

/-- The error kinds (60_exceptions.md R300). `invalidAddress` is reserved: nothing raises it (R303). -/
inductive ErrorKind where
  | busBusy
  | noConnection
  | invalidAddress
  deriving DecidableEq, Repr

/-- The spec's numbering of the error kinds (60_exceptions.md R300). -/
def ErrorKind.code : ErrorKind → Nat
  | .busBusy => 1
  | .noConnection => 2
  | .invalidAddress => 3

/-- What an operation returns to its caller (30_encoding.md R90, R92). -/
inductive Result where
  /-- No operation has returned yet (the model's own value at reset, log 14). -/
  | absent
  | unit
  | token (t : Token)
  | bool (b : Bool)
  | nibble (v : Nibble)
  | byte (v : Byte)
  | bytes (l : List Byte)
  | presence (l : List Bool)
  | i32 (v : Word)
  | rational (q : Rat)
  | err (e : ErrorKind)
  deriving DecidableEq, Repr

/-- The block has no fault: no exception, trap or machine stop is described (60_exceptions.md R300, R307, R308), so
no step of the model answers one. -/
inductive Fault
  deriving DecidableEq, Repr

/-- Why an operation has no meaning (60_exceptions.md R305). All are safe: the model stops where the spec gives the
operation no meaning. -/
inductive Refusal where
  /-- An operation without a meaning here: raised by no arm of `exec`. Safe. -/
  | notModelled (mnemonic : String)
  /-- An op code outside the table (30_encoding.md R93). Raised by the fetch. Safe. -/
  | reservedOp
  /-- An `addr` operand of 128 or more (40_bus_controller.md R144). Raised by start_transaction, write_reg,
  read_reg, ping_device. Safe. -/
  | addrOutOfRange
  /-- A BusController operation in a phase its precondition excludes, or a launch while an earlier action has not
  completed (40_bus_controller.md R143). Raised by the operations that launch an action. Safe. -/
  | phaseError
  /-- `read_reg` with n = 0 (40_bus_controller.md R140). Safe. -/
  | emptyRead
  /-- A BusController operation while nobody holds the handle (41_shared_bus.md R172). Raised by op codes 0x01 to
  0x0B and 0x38 to 0x3B. Safe. -/
  | noToken
  /-- `release` while nobody holds the handle (41_shared_bus.md R171). Safe. -/
  | noHolder
  /-- `set_cursor` past DDRAM address 0x7F (42_display.md R192). Safe. -/
  | ddramRange
  /-- `create_char` with a map whose length is not 8 (42_display.md R209). Safe. -/
  | mapLength
  /-- `set_channel` with channel > 15 (44_pwm.md R241). Safe. -/
  | channelRange
  /-- `set_channel` with a counter > 0xFFF (44_pwm.md R241). Safe. -/
  | counterRange
  /-- `read`, or an operation built on it, in POWERED_DOWN (45_loadcell.md R264). Safe. -/
  | poweredDown
  /-- `read_average`, `tare`, `get_value`, `get_units` with count 0 (45_loadcell.md R266). Safe. -/
  | zeroCount
  /-- A construction argument outside its range (70_reset_and_hazards.md R334 to R336). Raised by `construct`. Safe. -/
  | badParameter
  /-- The environment reports arbitration loss or a bus error (40_bus_controller.md R146). The oracle of this model
  cannot report one, so nothing raises it. Safe. -/
  | busFault
  /-- The model's own (log 13): the command bytes end inside an operand. Raised by the fetch. Safe. -/
  | truncatedCommand
  /-- The model's own (log 13): an operand byte outside its operand's type. Raised by the fetch. Safe. -/
  | operandOutsideType
  /-- The model's own (log 9): the run was refused before (10_state.md R21: it has no meaning). Raised by `step`. Safe. -/
  | runRefused
  deriving DecidableEq, Repr

/-- The display shadow registers (10_state.md R33: three, 90_conflicts.md C2). -/
inductive Shadow where
  | fn
  | entry
  | ctrl
  deriving DecidableEq, Repr

/-- Which result an operation in progress returns when its primitive steps are done. -/
inductive Ret where
  /-- nothing -/
  | unit
  /-- the byte taken last (R136, R137, R181, R265) -/
  | lastByte
  /-- bits 7:4 of the byte taken last (42_display.md R184) -/
  | highNibble
  /-- bits 7:4 of the two bytes taken (42_display.md R185) -/
  | twoNibbles
  /-- all bytes taken (40_bus_controller.md R140) -/
  | allBytes
  /-- the flag taken last (R141, R261, R263) -/
  | lastFlag
  /-- all flags taken (40_bus_controller.md R142) -/
  | allFlags
  /-- the sample taken last (45_loadcell.md R264) -/
  | lastSample
  /-- the mean of the samples (45_loadcell.md R266) -/
  | average
  /-- the mean less the offset (45_loadcell.md R268) -/
  | value
  /-- that divided by the scale (45_loadcell.md R269) -/
  | units
  deriving DecidableEq, Repr

/-- The primitive steps the pseudocode of spec/ is written in (00_scope.md R13), with the values an operation takes
on its way. An operation in progress is a list of them: the continuation 10_state.md R22 lets a model keep. -/
inductive Micro where
  /-- `launch(a)` (40_bus_controller.md R130) -/
  | launch (a : BusAction)
  /-- `wait()` (R131): holds until the ready flag is set -/
  | wait
  /-- the writes that end `start_transaction` (R134) -/
  | addressed (addr : Addr7) (dir : Dir)
  /-- takes `S.bc.data` as a result byte (R136, R137) -/
  | takeByte
  /-- takes whether the status is "address acknowledged" (R141) -/
  | takeAck
  /-- raises `NoConnection` unless the flag taken last is set (44_pwm.md R240) -/
  | needAck
  /-- `delay(t)` (70_reset_and_hazards.md R346) -/
  | delay (ns : Nat)
  /-- `S.lcd.<r> <- v` -/
  | setShadow (r : Shadow) (v : Byte)
  /-- `S.lcd.bl <- v` -/
  | setBl (v : Bit)
  /-- launches the rewrite of the port byte taken last with bit 3 replaced (42_display.md R210) -/
  | rewritePort (v : Bit)
  /-- `clk(l)` (45_loadcell.md R260) -/
  | clk (l : Bit)
  /-- `S.lc.phase <- p` -/
  | lcPhase (p : LcPhase)
  /-- takes a sampled bit (R265) -/
  | takeBit
  /-- the bits taken become a byte (R265) -/
  | endByte
  /-- the three bytes taken become a sample (R264) -/
  | endRead
  /-- takes whether the data line is low (R261) -/
  | takeReady
  /-- one poll of `wait_ready`: holds, after a delay, while the line is high (R262) -/
  | pollReady (ns : Nat)
  /-- the polls of `wait_ready_retry` (R263) -/
  | pollRetry (retries : Nat) (ns : Nat)
  /-- `S.lc.offset <-` the mean of the samples (R267) -/
  | storeOffset
  /-- `release` (41_shared_bus.md R171, R173) -/
  | release
  /-- the operation returns -/
  | ret (r : Ret)
  /-- the operation in progress is refused (log 12) -/
  | refuse (r : Refusal)
  deriving DecidableEq, Repr

/-- The operation in progress: steps still to run and values taken so far. The model's own (log 3). -/
structure Work where
  todo : List Micro := []
  bytes : List Byte := []
  flags : List Bool := []
  bits : List Bit := []
  samples : List Word := []
  deriving DecidableEq, Repr

/-- No operation in progress. -/
def Work.idle : Work := {}

/-- An answer of the oracle: each question reads the field of its kind (00_scope.md R15). -/
structure Answer where
  done : Bool
  ack : Bit := true
  rx : Byte := 0
  level : Bit := false
  deriving DecidableEq, Repr

/-- The oracle: answers that stand ready, then the free answers of Config; the model's own (log 4). -/
structure Env where
  script : List Answer := []
  asked : Nat := 0
  deriving DecidableEq, Repr

/-- `S.bc` (10_state.md R23 to R30). `ready` is also the control field READY. -/
structure BusController where
  phase : BusPhase
  addr : Addr7
  ready : Bit
  status : BusStatus
  data : Byte
  div : Nat
  en : Bit
  sta : Bit
  sto : Bit
  ea : Bit
  /-- the launched action that has not completed (40_bus_controller.md R132, R133) -/
  pending : Option BusAction
  deriving DecidableEq, Repr

/-- `S.sb` (10_state.md R31). -/
structure SharedBus where
  held : Bool
  deriving DecidableEq, Repr

/-- `S.lcd` (10_state.md R33 to R39). -/
structure Display where
  addr : Addr7
  fn : Byte
  entry : Byte
  ctrl : Byte
  bl : Bit
  lines : Nat
  font : Bool
  deriving DecidableEq, Repr

/-- `S.pwm` (10_state.md R40). -/
structure Pwm where
  addr : Addr7
  deriving DecidableEq, Repr

/-- `S.lc` (10_state.md R41 to R46). -/
structure LoadCell where
  clk : Bit
  phase : LcPhase
  gain : Nat
  offset : Word
  scale : Rat
  deriving DecidableEq, Repr

/-- The state `S`, and the model's own fields `work`, `ret`, `env`, `cmds` (INVENTORY.md, State). -/
structure State where
  /-- `S.hist` (R20) -/
  hist : List Event
  /-- `S.refused` (R21) -/
  refused : Bool
  bc : BusController
  sb : SharedBus
  lcd : Display
  pwm : Pwm
  lc : LoadCell
  /-- the parameters of 00_scope.md R10 -/
  cfg : Params
  /-- the operation in progress -/
  work : Work
  /-- the result the last completed operation returned -/
  ret : Result
  /-- the oracle -/
  env : Env
  /-- command bytes the caller has issued and the block has not taken -/
  cmds : List Byte
  deriving DecidableEq, Repr

/-- The function-set byte of a line count and a font (10_state.md R35, 30_encoding.md R104). -/
def functionSetByte (lines : Nat) (font : Bool) : Byte :=
  0x20 ||| (if 1 < lines then 0x08 else 0) ||| (if font then 0x04 else 0)

/-- The state after construction (10_state.md R47, 70_reset_and_hazards.md R332 to R336). `addr`, `data` and `ea` of
the controller are unspecified there and 0 here (log 7, DESIGN CHOICE, unsafe). -/
def State.constructed (a : ConstructArgs) : State where
  hist := []
  refused := false
  bc :=
    { phase := .idle, addr := 0, ready := false, status := .noInfo, data := 0, div := a.busDivisor,
      en := true, sta := false, sto := false, ea := false, pending := none }
  sb := { held := false }
  lcd :=
    { addr := BitVec.ofNat 7 a.lcdAddr, fn := functionSetByte a.numLines a.font5x10, entry := 0x06, ctrl := 0x0C,
      bl := a.blInit, lines := a.numLines, font := a.font5x10 }
  pwm := { addr := BitVec.ofNat 7 a.pwmAddr }
  lc := { clk := false, phase := .idle, gain := a.lcGainInit, offset := 0, scale := a.lcScale }
  cfg := a.params
  work := .idle
  ret := .absent
  env := {}
  cmds := []

/-- Construction: refused with `BadParameter` outside the ranges of R334 to R336. -/
def construct (a : ConstructArgs) : Host.Outcome State Fault Refusal :=
  if a.inRange then .next (.constructed a) else .refused .badParameter

/-- The state right after construction with the default arguments of 00_scope.md R10 (log 6). -/
def State.reset : State := .constructed {}

end Sys2Proof.Machine
end

