-- ==== Sys2Proof/Machine/Flags.lean ====
section
/-! DEFINITION. Status and flag computations: the bus status a completed action leaves
(spec/40_bus_controller.md R133), the event of a START, and the bits of the display shadow registers
(spec/30_encoding.md R104 to R106). -/

namespace Sys2Proof.Machine

/-- The event of a completed START (R133): a START inside a transaction is a repeated START. -/
def startEvent (phase : BusPhase) : Event :=
  match phase with
  | .idle => .start
  | .started => .repStart
  | .activeW => .repStart
  | .activeR => .repStart

/-- The status of a completed START (R133). -/
def startStatus (phase : BusPhase) : BusStatus :=
  match phase with
  | .idle => .startSent
  | .started => .repStartSent
  | .activeW => .repStartSent
  | .activeR => .repStartSent

/-- The status of an address byte, by its direction bit `b[0]` (R133). -/
def addressStatus (b : Byte) (ack : Bit) : BusStatus :=
  if b.getLsbD 0 then (if ack then .mrSlaAck else .mrSlaNack) else (if ack then .mtSlaAck else .mtSlaNack)

/-- The status of a completed TX (R133): in STARTED the byte is an address byte. -/
def txStatus (phase : BusPhase) (b : Byte) (ack : Bit) : BusStatus :=
  match phase with
  | .started => addressStatus b ack
  | .idle => if ack then .mtDataAck else .mtDataNack
  | .activeW => if ack then .mtDataAck else .mtDataNack
  | .activeR => if ack then .mtDataAck else .mtDataNack

/-- The status of a completed RX (R133). -/
def rxStatus (m : Bit) : BusStatus := if m then .mrDataAck else .mrDataNack

/-- The number of the current bus status, from the parameter `STATUS_CODE` (30_encoding.md R99). DESIGN CHOICE (log 26):
the spec gives the numbers no width, and they are 8 bits here; a code that a short list gives no number reads 0. -/
def State.statusNumber (s : State) : Byte := s.cfg.statusCode.getD s.bc.status.index 0

/-- D of the display-control byte (30_encoding.md R106). -/
def displayBit : Byte := 0x04

/-- C of the display-control byte (30_encoding.md R106). -/
def cursorBit : Byte := 0x02

/-- B of the display-control byte (30_encoding.md R106). -/
def blinkBit : Byte := 0x01

/-- ID of the entry-mode byte (30_encoding.md R105). -/
def incrementBit : Byte := 0x02

/-- SH of the entry-mode byte (30_encoding.md R105). -/
def shiftBit : Byte := 0x01

/-- `v | bits`. -/
def withBits (v bits : Byte) : Byte := v ||| bits

/-- `v & ~bits`. -/
def withoutBits (v bits : Byte) : Byte := v &&& ~~~bits

end Sys2Proof.Machine
end

