-- ==== Sys2Proof/WellFormed.lean ====
section
/-! DEFINITION. Which operand values spec/30_encoding.md R91 admits. A command outside these values decodes, and
its meaning refuses it under the reason of R115: the caller holding the token decides first (R310). -/

namespace Sys2Proof

/-- A 7-bit address: 0..127 (40_bus_controller.md R144). -/
def addrAdmitted (addr : Byte) : Bool := decide (addr.toNat < 128)

/-- An averaging count: 1..255 (45_loadcell.md R266). -/
def countAdmitted (count : Byte) : Bool := decide (count.toNat ≠ 0)

/-- A PWM channel: 0..15 (44_pwm.md R241). -/
def channelAdmitted (channel : Byte) : Bool := decide (channel.toNat < 16)

/-- A 12-bit counter value: 0..0xFFF (44_pwm.md R241). -/
def counterAdmitted (v : Half) : Bool := decide (v.toNat < 0x1000)

/-- Every operand is one of the values R91 admits. -/
def Instr.wellFormed : Instr → Bool
  | .startTransaction addr _ => addrAdmitted addr
  | .writeByte _ => true
  | .readAck => true
  | .readNack => true
  | .stop => true
  | .writeReg addr _ => addrAdmitted addr
  | .readReg addr _ n => addrAdmitted addr && decide (n ≠ 0)
  | .pingDevice addr => addrAdmitted addr
  | .scanBus => true
  | .wait => true
  | .launch _ => true
  | .acquire => true
  | .release _ => true
  | .lcdInit => true
  | .writeChar _ => true
  | .writeStr _ => true
  | .commandWrite _ => true
  | .commandRead => true
  | .setCursor _ _ => true
  | .displayOn => true
  | .displayOff => true
  | .cursorOn => true
  | .cursorOff => true
  | .blinkOn => true
  | .blinkOff => true
  | .scrollLeft => true
  | .scrollRight => true
  | .leftToRight => true
  | .rightToLeft => true
  | .autoscroll => true
  | .noAutoscroll => true
  | .createChar _ map => decide (map.length = 8)
  | .backlight => true
  | .noBacklight => true
  | .send _ _ => true
  | .receive _ => true
  | .clear => true
  | .expWrite _ => true
  | .expRead => true
  | .pulseNibble _ _ => true
  | .readNibble _ => true
  | .setBacklight _ => true
  | .pwmInit => true
  | .setChannel channel on off => channelAdmitted channel && counterAdmitted on && counterAdmitted off
  | .isReady => true
  | .waitReady _ => true
  | .waitReadyRetry _ _ => true
  | .read => true
  | .readAverage count => countAdmitted count
  | .tare count => countAdmitted count
  | .getValue count => countAdmitted count
  | .getUnits count => countAdmitted count
  | .powerDown => true
  | .powerUp => true
  | .setGain _ => true
  | .shiftInByte _ => true
  | .lcPulse => true
  | .clk _ => true

end Sys2Proof
end

