-- ==== Sys2Proof/Decode.lean ====
section
/-! DEFINITION. The command decoder and encoder. An operation is named by an 8-bit op code and a tuple of operands
(spec/30_encoding.md R90, R92); the spec gives the tuple no bytes, so its layout here is the model's (log 1,
DESIGN CHOICE): the op code, then each operand in the order of R92, `u8` one byte, `u16` and `u32` least significant
byte first, a bit one byte 0 or 1, a `u4` one byte 0..15, `base` one byte 0, 8 or 16, a `Nat` in base 128 with the
least significant digit first and bit 7 set on every digit but the last, a list its length as a `Nat` and then its
bytes, an action a tag and its operand, a token no byte. -/

namespace Sys2Proof

/-- Why a byte string names no operation. `reservedOp` is R93; the other two are the model's own (log 13). -/
inductive DecodeError where
  | reservedOp
  | truncated
  | operandOutsideType
  deriving DecidableEq, Repr

/-- A reader takes a value off the front of a byte string. -/
abbrev Reader (α : Type) := List Byte → Except DecodeError (α × List Byte)

/-- A reader that takes nothing. -/
def Reader.done {α : Type} (a : α) : Reader α := fun bs => .ok (a, bs)

/-- Refuses without reading. -/
def Reader.fail {α : Type} (e : DecodeError) : Reader α := fun _ => .error e

/-- Reads one value and goes on with it. -/
def Reader.andThen {α β : Type} (p : Reader α) (f : α → Reader β) : Reader β := fun bs =>
  match p bs with
  | .ok (a, rest) => f a rest
  | .error e => .error e

/-- One byte. -/
def readByte : Reader Byte
  | [] => .error .truncated
  | b :: rest => .ok (b, rest)

/-- A bit: byte 0 or 1. -/
def readBit : Reader Bit := readByte.andThen fun b =>
  if b = 0 then .done false else if b = 1 then .done true else .fail .operandOutsideType

/-- `dir`: W = 0, R = 1 (R91). -/
def readDir : Reader Dir := readBit.andThen fun b => .done (if b then .read else .write)

/-- `mode`: CMD = 0, DATA = 1 (R91). -/
def readMode : Reader Mode := readBit.andThen fun b => .done (if b then .data else .cmd)

/-- `u4`: byte 0..15. -/
def readNibble : Reader Nibble := readByte.andThen fun b =>
  if b.toNat < 16 then .done (b.setWidth 4) else .fail .operandOutsideType

/-- `u16`, least significant byte first. -/
def readHalf : Reader Half := readByte.andThen fun b0 => readByte.andThen fun b1 => .done (b1 ++ b0)

/-- `u32`, least significant byte first. -/
def readWord : Reader Word :=
  readHalf.andThen fun h0 => readHalf.andThen fun h1 => .done (h1 ++ h0)

/-- A natural number, base 128, least significant digit first; a leading zero digit is no number. -/
def readNat : Reader Nat
  | [] => .error .truncated
  | b :: rest =>
    if b.toNat < 128 then .ok (b.toNat, rest)
    else match readNat rest with
      | .ok (m, rest') => if m = 0 then .error .operandOutsideType else .ok (b.toNat - 128 + 128 * m, rest')
      | .error e => .error e

/-- `k` bytes. -/
def readBytes : Nat → Reader (List Byte)
  | 0 => .done []
  | k + 1 => readByte.andThen fun b => (readBytes k).andThen fun l => .done (b :: l)

/-- A list: its length, then its bytes (R116: a list operand carries its length). -/
def readList : Reader (List Byte) := readNat.andThen readBytes

/-- A bus action: tag 0 START, 1 TX, 2 RX, 3 STOP, then its operand. -/
def readAction : Reader BusAction := readByte.andThen fun t =>
  match t.toNat with
  | 0 => .done .start
  | 1 => readByte.andThen fun b => .done (.tx b)
  | 2 => readBit.andThen fun m => .done (.rx m)
  | 3 => .done .stop
  | _ => .fail .operandOutsideType

/-- `base : u8 ∈ {0, 8, 16}` (R92). -/
def readBase : Reader ShiftBase := readByte.andThen fun b =>
  match b.toNat with
  | 0 => .done .b0
  | 8 => .done .b8
  | 16 => .done .b16
  | _ => .fail .operandOutsideType

/-- The operand tuple of an op code (the table of R92); any other op code is reserved (R93). -/
def readOperands (op : Byte) : Reader Instr :=
  match op.toNat with
  | 0x01 => readByte.andThen fun a => readDir.andThen fun d => .done (.startTransaction a d)
  | 0x02 => readByte.andThen fun b => .done (.writeByte b)
  | 0x03 => .done .readAck
  | 0x04 => .done .readNack
  | 0x05 => .done .stop
  | 0x06 => readByte.andThen fun a => readList.andThen fun l => .done (.writeReg a l)
  | 0x07 => readByte.andThen fun a => readByte.andThen fun r => readNat.andThen fun n => .done (.readReg a r n)
  | 0x08 => readByte.andThen fun a => .done (.pingDevice a)
  | 0x09 => .done .scanBus
  | 0x0A => .done .wait
  | 0x0B => readAction.andThen fun a => .done (.launch a)
  | 0x10 => .done .acquire
  | 0x11 => .done (.release .token)
  | 0x20 => .done .lcdInit
  | 0x21 => readByte.andThen fun c => .done (.writeChar c)
  | 0x22 => readList.andThen fun l => .done (.writeStr l)
  | 0x23 => readByte.andThen fun c => .done (.commandWrite c)
  | 0x24 => .done .commandRead
  | 0x25 => readByte.andThen fun c => readByte.andThen fun r => .done (.setCursor c r)
  | 0x26 => .done .displayOn
  | 0x27 => .done .displayOff
  | 0x28 => .done .cursorOn
  | 0x29 => .done .cursorOff
  | 0x2A => .done .blinkOn
  | 0x2B => .done .blinkOff
  | 0x2C => .done .scrollLeft
  | 0x2D => .done .scrollRight
  | 0x2E => .done .leftToRight
  | 0x2F => .done .rightToLeft
  | 0x30 => .done .autoscroll
  | 0x31 => .done .noAutoscroll
  | 0x32 => readByte.andThen fun c => readList.andThen fun l => .done (.createChar c l)
  | 0x33 => .done .backlight
  | 0x34 => .done .noBacklight
  | 0x35 => readByte.andThen fun v => readMode.andThen fun m => .done (.send v m)
  | 0x36 => readMode.andThen fun m => .done (.receive m)
  | 0x37 => .done .clear
  | 0x38 => readByte.andThen fun b => .done (.expWrite b)
  | 0x39 => .done .expRead
  | 0x3A => readNibble.andThen fun n => readMode.andThen fun m => .done (.pulseNibble n m)
  | 0x3B => readMode.andThen fun m => .done (.readNibble m)
  | 0x3C => readBit.andThen fun v => .done (.setBacklight v)
  | 0x40 => .done .pwmInit
  | 0x41 => readByte.andThen fun c => readHalf.andThen fun on => readHalf.andThen fun off => .done (.setChannel c on off)
  | 0x50 => .done .isReady
  | 0x51 => readWord.andThen fun d => .done (.waitReady d)
  | 0x52 => readWord.andThen fun r => readWord.andThen fun d => .done (.waitReadyRetry r d)
  | 0x53 => .done .read
  | 0x54 => readByte.andThen fun c => .done (.readAverage c)
  | 0x55 => readByte.andThen fun c => .done (.tare c)
  | 0x56 => readByte.andThen fun c => .done (.getValue c)
  | 0x57 => readByte.andThen fun c => .done (.getUnits c)
  | 0x58 => .done .powerDown
  | 0x59 => .done .powerUp
  | 0x5A => readByte.andThen fun g => .done (.setGain g)
  | 0x5B => readBase.andThen fun b => .done (.shiftInByte b)
  | 0x5C => .done .lcPulse
  | 0x5D => readBit.andThen fun l => .done (.clk l)
  | _ => .fail .reservedOp

/-- The decoder: the operation at the front of a byte string and the bytes after it, or why there is none. -/
def decode : Reader Instr := readByte.andThen readOperands

/-- The op code of an operation (R92). -/
def Instr.opCode : Instr → Byte
  | .startTransaction _ _ => 0x01
  | .writeByte _ => 0x02
  | .readAck => 0x03
  | .readNack => 0x04
  | .stop => 0x05
  | .writeReg _ _ => 0x06
  | .readReg _ _ _ => 0x07
  | .pingDevice _ => 0x08
  | .scanBus => 0x09
  | .wait => 0x0A
  | .launch _ => 0x0B
  | .acquire => 0x10
  | .release _ => 0x11
  | .lcdInit => 0x20
  | .writeChar _ => 0x21
  | .writeStr _ => 0x22
  | .commandWrite _ => 0x23
  | .commandRead => 0x24
  | .setCursor _ _ => 0x25
  | .displayOn => 0x26
  | .displayOff => 0x27
  | .cursorOn => 0x28
  | .cursorOff => 0x29
  | .blinkOn => 0x2A
  | .blinkOff => 0x2B
  | .scrollLeft => 0x2C
  | .scrollRight => 0x2D
  | .leftToRight => 0x2E
  | .rightToLeft => 0x2F
  | .autoscroll => 0x30
  | .noAutoscroll => 0x31
  | .createChar _ _ => 0x32
  | .backlight => 0x33
  | .noBacklight => 0x34
  | .send _ _ => 0x35
  | .receive _ => 0x36
  | .clear => 0x37
  | .expWrite _ => 0x38
  | .expRead => 0x39
  | .pulseNibble _ _ => 0x3A
  | .readNibble _ => 0x3B
  | .setBacklight _ => 0x3C
  | .pwmInit => 0x40
  | .setChannel _ _ _ => 0x41
  | .isReady => 0x50
  | .waitReady _ => 0x51
  | .waitReadyRetry _ _ => 0x52
  | .read => 0x53
  | .readAverage _ => 0x54
  | .tare _ => 0x55
  | .getValue _ => 0x56
  | .getUnits _ => 0x57
  | .powerDown => 0x58
  | .powerUp => 0x59
  | .setGain _ => 0x5A
  | .shiftInByte _ => 0x5B
  | .lcPulse => 0x5C
  | .clk _ => 0x5D

/-- A bit as a byte. -/
def bitByte (b : Bit) : Byte := if b then 1 else 0

/-- `dir` as a bit: W = 0, R = 1. -/
def Dir.bit : Dir → Bit
  | .write => false
  | .read => true

/-- `mode` as a bit: CMD = 0, DATA = 1. -/
def Mode.bit : Mode → Bit
  | .cmd => false
  | .data => true

/-- The number `base` stands for (R265). -/
def ShiftBase.toNat : ShiftBase → Nat
  | .b0 => 0
  | .b8 => 8
  | .b16 => 16

/-- `u16`, least significant byte first. -/
def halfBytes (v : Half) : List Byte := [v.extractLsb' 0 8, v.extractLsb' 8 8]

/-- `u32`, least significant byte first. -/
def wordBytes (v : Word) : List Byte := halfBytes (v.extractLsb' 0 16) ++ halfBytes (v.extractLsb' 16 16)

/-- The base-128 digits of `n`, at most `fuel + 1` of them. -/
def natDigits : Nat → Nat → List Byte
  | 0, n => [BitVec.ofNat 8 n]
  | fuel + 1, n =>
    if n < 128 then [BitVec.ofNat 8 n] else BitVec.ofNat 8 (128 + n % 128) :: natDigits fuel (n / 128)

/-- A natural number in base 128. -/
def natBytes (n : Nat) : List Byte := natDigits n n

/-- A list: its length, then its bytes. -/
def listBytes (l : List Byte) : List Byte := natBytes l.length ++ l

/-- A bus action: tag, then operand. -/
def actionBytes : BusAction → List Byte
  | .start => [0]
  | .tx b => [1, b]
  | .rx m => [2, bitByte m]
  | .stop => [3]

/-- The operand bytes of an operation. -/
def Instr.operandBytes : Instr → List Byte
  | .startTransaction a d => [a, bitByte d.bit]
  | .writeByte b => [b]
  | .readAck => []
  | .readNack => []
  | .stop => []
  | .writeReg a l => a :: listBytes l
  | .readReg a r n => a :: r :: natBytes n
  | .pingDevice a => [a]
  | .scanBus => []
  | .wait => []
  | .launch a => actionBytes a
  | .acquire => []
  | .release _ => []
  | .lcdInit => []
  | .writeChar c => [c]
  | .writeStr l => listBytes l
  | .commandWrite c => [c]
  | .commandRead => []
  | .setCursor c r => [c, r]
  | .displayOn => []
  | .displayOff => []
  | .cursorOn => []
  | .cursorOff => []
  | .blinkOn => []
  | .blinkOff => []
  | .scrollLeft => []
  | .scrollRight => []
  | .leftToRight => []
  | .rightToLeft => []
  | .autoscroll => []
  | .noAutoscroll => []
  | .createChar c l => c :: listBytes l
  | .backlight => []
  | .noBacklight => []
  | .send v m => [v, bitByte m.bit]
  | .receive m => [bitByte m.bit]
  | .clear => []
  | .expWrite b => [b]
  | .expRead => []
  | .pulseNibble n m => [n.setWidth 8, bitByte m.bit]
  | .readNibble m => [bitByte m.bit]
  | .setBacklight v => [bitByte v]
  | .pwmInit => []
  | .setChannel c on off => c :: (halfBytes on ++ halfBytes off)
  | .isReady => []
  | .waitReady d => wordBytes d
  | .waitReadyRetry r d => wordBytes r ++ wordBytes d
  | .read => []
  | .readAverage c => [c]
  | .tare c => [c]
  | .getValue c => [c]
  | .getUnits c => [c]
  | .powerDown => []
  | .powerUp => []
  | .setGain g => [g]
  | .shiftInByte b => [BitVec.ofNat 8 b.toNat]
  | .lcPulse => []
  | .clk l => [bitByte l]

/-- The encoder: the command bytes of an operation. -/
def encode (i : Instr) : List Byte := i.opCode :: i.operandBytes

/-- The first `k` bytes of a number, bit 0 the least significant bit of the first. -/
def bytesOfNat : Nat → Nat → List Byte
  | 0, _ => []
  | k + 1, w => BitVec.ofNat 8 w :: bytesOfNat k (w / 256)

/-- The longest command a row of the table and operand bytes of zero can make is nine bytes. -/
def operandZeros : List Byte := List.replicate 8 0

/-- The bytes of a table word of `nbits` bits, then operand bytes of zero. -/
def tableBytes (nbits w : Nat) : List Byte := bytesOfNat (nbits / 8) w ++ operandZeros

/-- The operation the decoder reads from a table word. -/
def decodeTableWord (nbits w : Nat) : Option Instr :=
  match decode (tableBytes nbits w) with
  | .ok (i, _) => some i
  | .error _ => none

end Sys2Proof
end

