-- ==== Sys2Proof/Machine/Operands.lean ====
section
/-! DEFINITION. Wire encodings of operands and results: address byte, expander byte, nibbles, display commands
(spec/30_encoding.md R96, R101, R102, R107), the PWM packet (R109), sample decoding and averaging
(spec/30_encoding.md R114, spec/45_loadcell.md R266 to R269). -/

namespace Sys2Proof.Machine

/-- The address byte `(addr << 1) | dir` (30_encoding.md R96). -/
def addressByte (addr : Addr7) (dir : Dir) : Byte := addr ++ BitVec.ofBool dir.bit

/-- The 7-bit address of an admitted `addr` operand (40_bus_controller.md R144). -/
def busAddress (addr : Byte) : Addr7 := addr.setWidth 7

/-- A bit at a place of the expander byte. -/
def bitAt (b : Bit) (place : Nat) : Byte := if b then (1 : Byte) <<< place else 0

/-- `EXP(nib, mode, rw, en)` with the backlight flag `bl` (30_encoding.md R100, R101). -/
def expanderByte (bl : Bit) (nib : Nibble) (mode : Mode) (rw en : Bit) : Byte :=
  (nib.setWidth 8 <<< 4) ||| bitAt bl 3 ||| bitAt en 2 ||| bitAt rw 1 ||| bitAt mode.bit 0

/-- `v[7:4]`. -/
def highNibble (v : Byte) : Nibble := v.extractLsb' 4 4

/-- `v[3:0]`. -/
def lowNibble (v : Byte) : Nibble := v.extractLsb' 0 4

/-- `(hi << 4) | lo` (42_display.md R185). -/
def joinNibbles (hi lo : Nibble) : Byte := hi ++ lo

/-- `(r & 0xF7) | (v << 3)` (42_display.md R210). -/
def withBacklight (r : Byte) (v : Bit) : Byte := (r &&& 0xF7) ||| bitAt v 3

/-- `class(b)`: the largest power of two ≤ b, and 0 for the byte 0x00, which has no class (30_encoding.md R102). -/
def commandClass (b : Byte) : Byte :=
  if b.getLsbD 7 then 0x80 else if b.getLsbD 6 then 0x40 else if b.getLsbD 5 then 0x20
  else if b.getLsbD 4 then 0x10 else if b.getLsbD 3 then 0x08 else if b.getLsbD 2 then 0x04
  else if b.getLsbD 1 then 0x02 else if b.getLsbD 0 then 0x01 else 0

/-- The shadow register a raw command belongs to (42_display.md R191). -/
def commandShadow (cmd : Byte) : Option Shadow :=
  if commandClass cmd = 0x20 then some .fn
  else if commandClass cmd = 0x08 then some .ctrl
  else if commandClass cmd = 0x04 then some .entry
  else none

/-- `ROW_OFFSET[r]` (30_encoding.md R107). Rows 0..3 are all the clamp leaves. -/
def rowOffset (o : RowOffsets) (r : Nat) : Nat :=
  match r with
  | 0 => o.row0.toNat
  | 1 => o.row1.toNat
  | 2 => o.row2.toNat
  | _ => o.row3.toNat

/-- The row clamped to the last line (42_display.md R192). -/
def clampRow (lines : Nat) (row : Byte) : Nat := if lines ≤ row.toNat then lines - 1 else row.toNat

/-- The DDRAM address of a cursor position, an exact sum (42_display.md R192). -/
def ddramAddress (o : RowOffsets) (lines : Nat) (col row : Byte) : Nat :=
  col.toNat + rowOffset o (clampRow lines row)

/-- The command `0x80 | a` (42_display.md R192). -/
def ddramCommand (a : Nat) : Byte := 0x80 ||| BitVec.ofNat 8 a

/-- The command `0x40 | (l << 3)` with `l = loc & 0x07` (42_display.md R209). -/
def cgramCommand (loc : Byte) : Byte := 0x40 ||| ((loc &&& 0x07) <<< 3)

/-- `reg(c) = PWM_LED0_BASE + 4c`, an exact sum (44_pwm.md R242). -/
def channelRegister (base : Nat) (channel : Byte) : Nat := base + 4 * channel.toNat

/-- A 12-bit counter as two bytes, low byte first (20_memory.md R68). -/
def counterBytes (v : Half) : List Byte := [v.extractLsb' 0 8, (v.extractLsb' 8 4).setWidth 8]

/-- The packet of a channel write (30_encoding.md R109). -/
def channelPacket (base : Nat) (channel : Byte) (on off : Half) : List Byte :=
  BitVec.ofNat 8 (channelRegister base channel) :: (counterBytes on ++ counterBytes off)

/-- `delay_ms` in nanoseconds (45_loadcell.md, opening). -/
def msToNs (ms : Nat) : Nat := ms * Config.nsPerMs

/-- Bits in sampling order as a byte, the first the most significant (45_loadcell.md R265). -/
def byteOfBits (bits : List Bit) : Byte :=
  bits.foldl (fun v b => (v <<< 1) ||| (BitVec.ofBool b).setWidth 8) 0

/-- `sext_32({b2, b1, b0})` (30_encoding.md R114): bytes in the order they were shifted in. -/
def sampleOfBytes (b2 b1 b0 : Byte) : Word := ((b2 ++ b1 ++ b0 : BitVec 24)).signExtend 32

/-- The sample of the bytes one read has taken. -/
def sampleOf (bytes : List Byte) : Word :=
  sampleOfBytes (bytes.getD 0 0) (bytes.getD 1 0) (bytes.getD 2 0)

/-- The exact sum of samples (45_loadcell.md R266: the accumulator cannot overflow). -/
def sampleSum (samples : List Word) : Int := samples.foldl (fun sum v => sum + v.toInt) 0

/-- `trunc(sum / count)`, toward zero, over the reads made (45_loadcell.md R266). -/
def meanOf (samples : List Word) : Int := Int.tdiv (sampleSum samples) samples.length

/-- The mean less the offset, exact (45_loadcell.md R268). -/
def valueOf (samples : List Word) (offset : Word) : Int := meanOf samples - offset.toInt

/-- The gain code of a requested physical gain; any other request keeps the old one (45_loadcell.md R272). -/
def gainCode (gain : Byte) (old : Nat) : Nat :=
  if gain = 128 then 1 else if gain = 64 then 3 else if gain = 32 then 2 else old

end Sys2Proof.Machine
end

