-- ==== Sys2Proof/Machine/Ops.lean ====
section
/-! DEFINITION. The primitives of spec/00_scope.md R13 as operations on the state, the primitive steps, the run of
an operation up to its end or its next hold, and the shapes operations share: a BusController operation
(spec/41_shared_bus.md R172), a driver operation (R173), raising an error (spec/60_exceptions.md R300). -/

namespace Sys2Proof.Machine

/-! ### The oracle (00_scope.md R15) -/

/-- The free answer of question `k`. -/
def freeAnswer (k : Nat) : Answer :=
  { done := Config.freeDone k, ack := Config.freeAck k, rx := Config.freeRx k, level := Config.freeLevel k }

/-- The answer to the `k`-th question from now. -/
def Env.answer (e : Env) (k : Nat) : Answer := (e.script[k]?).getD (freeAnswer (e.asked + k))

/-- The oracle after `n` more questions. -/
def Env.advance (e : Env) (n : Nat) : Env := { script := e.script.drop n, asked := e.asked + n }

/-- One question has been asked. -/
def State.asked (s : State) : State := { s with env := s.env.advance 1 }

/-! ### Wire events, delays, pins -/

/-- `emit(e)` (10_state.md R20). -/
def State.emit (e : Event) (s : State) : State := { s with hist := s.hist ++ [e] }

/-- `delay(t)` (70_reset_and_hazards.md R346). -/
def State.delay (ns : Nat) (s : State) : State := s.emit (.delay ns)

/-- `clk(l)` (45_loadcell.md R260). -/
def State.driveClk (l : Bit) (s : State) : State := ({ s with lc.clk := l }).emit (.clk l)

/-- The level the data pin shows now. -/
def State.level (s : State) : Bit := (s.env.answer 0).level

/-- The state after `sample()` (45_loadcell.md R260); the value sampled is `s.level`. -/
def State.sampled (s : State) : State := s.asked.emit (.dout s.level)

/-! ### Bus actions (40_bus_controller.md R130 to R133) -/

/-- START, TX and RX complete later; STOP completes at once (R130). -/
def slow (a : BusAction) : Bool :=
  match a with
  | .start => true
  | .tx _ => true
  | .rx _ => true
  | .stop => false

/-- `launch(a)` (R130). The hardware clears STO as the STOP completes, at once (log 8). -/
def State.launch (a : BusAction) (s : State) : State :=
  match a with
  | .start => { s with bc.ready := false, bc.sta := true, bc.pending := some .start }
  | .tx b => { s with bc.data := b, bc.ready := false, bc.pending := some (.tx b) }
  | .rx m => { s with bc.ea := m, bc.ready := false, bc.pending := some (.rx m) }
  | .stop => ({ s with bc.sto := false, bc.phase := .idle }).emit .stop

/-- What every completion writes (R133, last two lines). -/
def State.ready (s : State) : State := { s with bc.sta := false, bc.ready := true, bc.pending := none }

/-- The completion step of a pending action, with the oracle's answer (R133). STOP is never pending. -/
def State.complete (a : BusAction) (ans : Answer) (s : State) : State :=
  match a with
  | .start =>
    (({ s with bc.status := startStatus s.bc.phase, bc.phase := .started }).emit (startEvent s.bc.phase)).ready
  | .tx b => (({ s with bc.status := txStatus s.bc.phase b ans.ack }).emit (.tx b ans.ack)).ready
  | .rx m => (({ s with bc.data := ans.rx, bc.status := rxStatus m }).emit (.rx ans.rx m)).ready
  | .stop => s.ready

/-- The oracle's chance to complete the pending action, before each primitive step (R132: "at a step of its
choosing, or never"; log 5). -/
def State.tick (s : State) : State :=
  match s.bc.pending with
  | none => s
  | some a => if (s.env.answer 0).done then s.asked.complete a (s.env.answer 0) else s.asked

/-! ### Handle, errors, results -/

/-- The handle is taken (41_shared_bus.md R170). -/
def State.hold (s : State) : State := { s with sb.held := true }

/-- The handle is given back (41_shared_bus.md R171). -/
def State.unhold (s : State) : State := { s with sb.held := false }

/-- The operation ends with result `r`; nothing of it is left in progress. -/
def State.finish (r : Result) (s : State) : State := { s with ret := r, work := .idle }

/-- `raise e` (60_exceptions.md R300): the operation ends there and returns the error value; nothing else changes. -/
def State.raise (e : ErrorKind) (s : State) : State := s.finish (.err e)

/-- The model's record of a refusal (00_scope.md R12, 10_state.md R21). -/
def State.recordRefusal (s : State) : State := { s with refused := true }

/-! ### Shadow registers (10_state.md R33) -/

/-- A shadow register's value. -/
def State.shadow (r : Shadow) (s : State) : Byte :=
  match r with
  | .fn => s.lcd.fn
  | .entry => s.lcd.entry
  | .ctrl => s.lcd.ctrl

/-- `S.lcd.<r> <- v`. -/
def State.setShadow (r : Shadow) (v : Byte) (s : State) : State :=
  match r with
  | .fn => { s with lcd.fn := v }
  | .entry => { s with lcd.entry := v }
  | .ctrl => { s with lcd.ctrl := v }

/-! ### Primitive steps -/

/-- The byte taken last. -/
def Work.lastByte (w : Work) : Byte := w.bytes.getLastD 0

/-- The flag taken last. -/
def Work.lastFlag (w : Work) : Bool := w.flags.getLastD false

/-- Takes a byte. -/
def State.takeByte (b : Byte) (s : State) : State := { s with work.bytes := s.work.bytes ++ [b] }

/-- Takes a flag. -/
def State.takeFlag (b : Bool) (s : State) : State := { s with work.flags := s.work.flags ++ [b] }

/-- Takes a sampled bit. -/
def State.takeBit (b : Bit) (s : State) : State := { s with work.bits := s.work.bits ++ [b] }

/-- The result of an operation whose primitive steps are done. -/
def State.result (r : Ret) (s : State) : Result :=
  match r with
  | .unit => .unit
  | .lastByte => .byte s.work.lastByte
  | .highNibble => .nibble (highNibble s.work.lastByte)
  | .twoNibbles => .byte (joinNibbles (highNibble (s.work.bytes.getD 0 0)) (highNibble (s.work.bytes.getD 1 0)))
  | .allBytes => .bytes s.work.bytes
  | .lastFlag => .bool s.work.lastFlag
  | .allFlags => .presence s.work.flags
  | .lastSample => .i32 (s.work.samples.getLastD 0)
  | .average => .i32 (BitVec.ofInt 32 (meanOf s.work.samples))
  | .value => .i32 (BitVec.ofInt 32 (valueOf s.work.samples s.lc.offset))
  | .units => .rational ((valueOf s.work.samples s.lc.offset : Rat) / s.lc.scale)

/-- The polls of `wait_ready_retry` (45_loadcell.md R263); the oracle may complete a pending bus action at each. -/
def pollRetry (retries ns : Nat) (s : State) : State :=
  match retries with
  | 0 => s.takeFlag false
  | k + 1 => if s.level then pollRetry k ns ((s.sampled.delay ns).tick) else s.sampled.takeFlag true

/-- What one primitive step leads to. -/
inductive Progress where
  /-- on to the next primitive step -/
  | go (s : State)
  /-- the step does not complete now: it stays first in line (00_scope.md R14) -/
  | hold (s : State)
  /-- the operation has ended -/
  | ended (s : State)
  /-- the operation is refused here -/
  | refuse (r : Refusal) (s : State)

/-- One primitive step, in a state where the oracle has had its chance (`tick`). -/
def stepMicro (m : Micro) (s : State) : Progress :=
  match m with
  | .launch a => if slow a && s.bc.pending.isSome then .refuse .phaseError s else .go (s.launch a)
  | .wait => if s.bc.ready then .go s else .hold s
  | .addressed addr dir =>
    .go { s with bc.addr := addr, bc.phase := if dir.bit then .activeR else .activeW }
  | .takeByte => .go (s.takeByte s.bc.data)
  | .takeAck => .go (s.takeFlag (decide (s.bc.status = .mtSlaAck)))
  | .needAck => if s.work.lastFlag then .go s else .ended (s.unhold.raise .noConnection)
  | .delay ns => .go (s.delay ns)
  | .setShadow r v => .go (s.setShadow r v)
  | .setBl v => .go { s with lcd.bl := v }
  | .rewritePort v =>
    if s.bc.pending.isSome then .refuse .phaseError s
    else .go (s.launch (.tx (withBacklight s.work.lastByte v)))
  | .clk l => .go (s.driveClk l)
  | .lcPhase p => .go { s with lc.phase := p }
  | .takeBit => .go (s.sampled.takeBit s.level)
  | .endByte => .go ({ s with work.bits := [] }.takeByte (byteOfBits s.work.bits))
  | .endRead => .go { s with work.samples := s.work.samples ++ [sampleOf s.work.bytes], work.bytes := [] }
  | .takeReady => .go (s.sampled.takeFlag (!s.level))
  | .pollReady ns => if s.level then .hold (s.sampled.delay ns) else .go s.sampled
  | .pollRetry retries ns => .go (pollRetry retries ns s)
  | .storeOffset => .go { s with lc.offset := BitVec.ofInt 32 (meanOf s.work.samples) }
  | .release => .go s.unhold
  | .ret r => .ended (s.finish (s.result r))
  | .refuse r => .refuse r s

/-- Runs an operation to its end or to its next hold; what is left to do stays in `work.todo` (log 3). -/
def run (todo : List Micro) (s : State) : State :=
  match todo with
  | [] => { s with work.todo := [] }
  | m :: rest =>
    match stepMicro m s.tick with
    | .go t => run rest t
    | .hold t => { t with work.todo := m :: rest }
    | .ended t => { t with work.todo := [] }
    | .refuse r t => { t with work.todo := [.refuse r] }

/-! ### The shapes operations share -/

/-- The operation's first primitive step, after writes that take no time, launches an action that completes later. -/
def launchesAtOnce (prog : List Micro) : Bool :=
  match prog with
  | .launch a :: _ => slow a
  | .setShadow _ _ :: rest => launchesAtOnce rest
  | .setBl _ :: rest => launchesAtOnce rest
  | _ => false

/-- Issues an operation: refused with `PhaseError` if it launches at once while an earlier action has not completed
(40_bus_controller.md R143), else run to its end or its first hold. -/
def begin (prog : List Micro) (s : State) : Host.Outcome State Fault Refusal :=
  if launchesAtOnce prog && s.bc.pending.isSome then .refused .phaseError
  else .next (run prog { s with work := .idle })

/-- An operation that needs the token its caller holds (41_shared_bus.md R172). -/
def withToken (prog : List Micro) (ret : Ret) (s : State) : Host.Outcome State Fault Refusal :=
  if s.sb.held then begin (prog ++ [.ret ret]) s else .refused .noToken

/-- A BusController operation that is admitted in one phase only (40_bus_controller.md R143). -/
def inPhase (phase : BusPhase) (prog : List Micro) (ret : Ret) (s : State) : Host.Outcome State Fault Refusal :=
  if !s.sb.held then .refused .noToken
  else if s.bc.phase ≠ phase then .refused .phaseError
  else begin (prog ++ [.ret ret]) s

/-- A driver operation whose body is `prog` (41_shared_bus.md R173): one acquisition around it. A held handle is
decided before the operation's own refusal `check` (60_exceptions.md R301, R310). -/
def driverOp (check : Option Refusal) (prog : List Micro) (ret : Ret) (s : State) : Host.Outcome State Fault Refusal :=
  if s.sb.held then .next (s.raise .busBusy)
  else
    match check with
    | some r => .refused r
    | none => begin (prog ++ [.release, .ret ret]) s.hold

/-- An operation of the LoadCellDriver: it needs no token and acquires none (41_shared_bus.md R173). -/
def pinOp (prog : List Micro) (ret : Ret) (s : State) : Host.Outcome State Fault Refusal :=
  begin (prog ++ [.ret ret]) s

/-! ### Programs of the BusController -/

/-- `launch(a); wait()`. -/
def actionProg (a : BusAction) : List Micro := [.launch a, .wait]

/-- `start_transaction(addr, dir)` (40_bus_controller.md R134). -/
def addressProg (addr : Addr7) (dir : Dir) : List Micro :=
  actionProg .start ++ actionProg (.tx (addressByte addr dir)) ++ [.addressed addr dir]

/-- `for b in bytes: write_byte(b)` (R135). -/
def bytesProg (bytes : List Byte) : List Micro := bytes.flatMap fun b => actionProg (.tx b)

/-- `read_ack()` or `read_nack()` (R136, R137). -/
def receiveProg (m : Bit) : List Micro := actionProg (.rx m) ++ [.takeByte]

/-- `write_reg(addr, bytes)` (R139). -/
def writeRegProg (addr : Addr7) (bytes : List Byte) : List Micro :=
  addressProg addr .write ++ bytesProg bytes ++ [.launch .stop]

/-- `read_reg(addr, reg, n)` for n ≥ 1 (R140). -/
def readRegProg (addr : Addr7) (reg : Byte) (n : Nat) : List Micro :=
  addressProg addr .write ++ actionProg (.tx reg) ++ addressProg addr .read
  ++ (List.replicate (n - 1) (receiveProg true)).flatten ++ receiveProg false ++ [.launch .stop]

/-- `ping_device(addr)` (R141). -/
def pingProg (addr : Addr7) : List Micro := addressProg addr .write ++ [.takeAck, .launch .stop]

/-- `scan_bus()` (R142). -/
def scanProg : List Micro := (List.range Config.scanLimit).flatMap fun a => pingProg (BitVec.ofNat 7 a)

end Sys2Proof.Machine
end

