-- ==== Sys2Proof/Machine/BusOps.lean ====
section
/-! DEFINITION. The BusController operations (spec/40_bus_controller.md) and the SharedBusHandle operations
(spec/41_shared_bus.md). Operand refusals come before NoToken, NoToken before PhaseError (log 10). -/

namespace Sys2Proof.Machine

/-- R134. -/
def execStartTransaction (addr : Byte) (dir : Dir) (s : State) : Host.Outcome State Fault Refusal :=
  if addrAdmitted addr then withToken (addressProg (busAddress addr) dir) .unit s else .refused .addrOutOfRange

/-- R135. -/
def execWriteByte (b : Byte) (s : State) : Host.Outcome State Fault Refusal :=
  inPhase .activeW (actionProg (.tx b)) .unit s

/-- R136. -/
def execReadAck (s : State) : Host.Outcome State Fault Refusal :=
  inPhase .activeR (receiveProg true) .lastByte s

/-- R137. -/
def execReadNack (s : State) : Host.Outcome State Fault Refusal :=
  inPhase .activeR (receiveProg false) .lastByte s

/-- R138. -/
def execStop (s : State) : Host.Outcome State Fault Refusal := withToken [.launch .stop] .unit s

/-- R139. -/
def execWriteReg (addr : Byte) (bytes : List Byte) (s : State) : Host.Outcome State Fault Refusal :=
  if addrAdmitted addr then withToken (writeRegProg (busAddress addr) bytes) .unit s else .refused .addrOutOfRange

/-- R140. -/
def execReadReg (addr reg : Byte) (n : Nat) (s : State) : Host.Outcome State Fault Refusal :=
  if n = 0 then .refused .emptyRead
  else if addrAdmitted addr then withToken (readRegProg (busAddress addr) reg n) .allBytes s
  else .refused .addrOutOfRange

/-- R141. -/
def execPingDevice (addr : Byte) (s : State) : Host.Outcome State Fault Refusal :=
  if addrAdmitted addr then withToken (pingProg (busAddress addr)) .lastFlag s else .refused .addrOutOfRange

/-- R142. -/
def execScanBus (s : State) : Host.Outcome State Fault Refusal := withToken scanProg .allFlags s

/-- R131. -/
def execWait (s : State) : Host.Outcome State Fault Refusal := withToken [.wait] .unit s

/-- R130. -/
def execLaunch (action : BusAction) (s : State) : Host.Outcome State Fault Refusal :=
  withToken [.launch action] .unit s

/-- 41_shared_bus.md R170. -/
def execAcquire (s : State) : Host.Outcome State Fault Refusal :=
  if s.sb.held then .next (s.raise .busBusy) else .next (s.hold.finish (.token .token))

/-- 41_shared_bus.md R171. -/
def execRelease (t : Token) (s : State) : Host.Outcome State Fault Refusal :=
  match t with
  | .token => if s.sb.held then .next (s.unhold.finish .unit) else .refused .noHolder

end Sys2Proof.Machine
end

