-- ==== Sys2Proof/Machine/DisplayOps.lean ====
section
/-! DEFINITION. The DisplayDriver operations (spec/42_display.md). A `…Prog` is an operation's body, the operation
without its acquisition (R186); its bytes are computed from the state the operation starts in. -/

namespace Sys2Proof.Machine

/-! ### Bodies -/

/-- `exp_write(b)` (R180). -/
def expWriteProg (s : State) (b : Byte) : List Micro := writeRegProg s.lcd.addr [b]

/-- `exp_read()` (R181). -/
def expReadProg (s : State) : List Micro :=
  addressProg s.lcd.addr .read ++ receiveProg false ++ [.launch .stop]

/-- `pulse_nibble(nib, mode)` (R182). -/
def pulseProg (s : State) (nib : Nibble) (mode : Mode) : List Micro :=
  expWriteProg s (expanderByte s.lcd.bl nib mode false true) ++ [.delay s.cfg.tEnHold]
  ++ expWriteProg s (expanderByte s.lcd.bl nib mode false false) ++ [.delay s.cfg.tSettle]

/-- `send(value, mode)` (R183). -/
def sendProg (s : State) (value : Byte) (mode : Mode) : List Micro :=
  pulseProg s (highNibble value) mode ++ pulseProg s (lowNibble value) mode

/-- `command(c)` (R186). -/
def commandProg (s : State) (c : Byte) : List Micro := sendProg s c .cmd

/-- `read_nibble(mode)` (R184). -/
def readNibbleProg (s : State) (mode : Mode) : List Micro :=
  expWriteProg s (expanderByte s.lcd.bl 0xF mode true true) ++ [.delay s.cfg.tEnHold]
  ++ expReadProg s
  ++ expWriteProg s (expanderByte s.lcd.bl 0xF mode true false) ++ [.delay s.cfg.tSettle]

/-- `receive(mode)` (R185). -/
def receiveByteProg (s : State) (mode : Mode) : List Micro := readNibbleProg s mode ++ readNibbleProg s mode

/-- `for b in bytes: send(b, DATA)` (R188, R209). -/
def sendAllProg (s : State) (bytes : List Byte) : List Micro := bytes.flatMap fun b => sendProg s b .data

/-- A shadow register is written and its command byte sent (R193 to R204, R207, R208). -/
def shadowCommandProg (s : State) (r : Shadow) (v : Byte) : List Micro := .setShadow r v :: commandProg s v

/-- A raw command, with the shadow register it belongs to (R191). -/
def commandWriteProg (s : State) (cmd : Byte) : List Micro :=
  match commandShadow cmd with
  | some r => shadowCommandProg s r cmd
  | none => commandProg s cmd

/-- `clear()` (R200). -/
def clearProg (s : State) : List Micro := commandProg s 0x01 ++ [.delay s.cfg.tClear]

/-- `init()` (R199). -/
def lcdInitProg (s : State) : List Micro :=
  [.delay s.cfg.tPowerOn]
  ++ pulseProg s 0x3 .cmd ++ [.delay s.cfg.tInit1]
  ++ pulseProg s 0x3 .cmd ++ [.delay s.cfg.tInit2]
  ++ pulseProg s 0x3 .cmd ++ [.delay s.cfg.tInit3]
  ++ pulseProg s 0x2 .cmd ++ [.delay s.cfg.tInit4]
  ++ shadowCommandProg s .fn (functionSetByte s.lcd.lines s.lcd.font)
  ++ shadowCommandProg s .entry 0x06
  ++ shadowCommandProg s .ctrl 0x0C
  ++ clearProg s

/-- `set_backlight(v)` (R210): the rewrite is an `exp_write` whose byte comes from the byte read. -/
def setBacklightProg (s : State) (v : Bit) : List Micro :=
  [.setBl v] ++ expReadProg s ++ addressProg s.lcd.addr .write ++ [.rewritePort v, .wait, .launch .stop]

/-- `create_char(loc, map)` (R209). -/
def createCharProg (s : State) (loc : Byte) (map : List Byte) : List Micro :=
  commandProg s (cgramCommand loc) ++ sendAllProg s map

/-! ### Operations -/

/-- R199. -/
def execLcdInit (s : State) : Host.Outcome State Fault Refusal := driverOp none (lcdInitProg s) .unit s

/-- R187. -/
def execWriteChar (c : Byte) (s : State) : Host.Outcome State Fault Refusal :=
  driverOp none (sendProg s c .data) .unit s

/-- R188. -/
def execWriteStr (str : List Byte) (s : State) : Host.Outcome State Fault Refusal :=
  driverOp none (sendAllProg s str) .unit s

/-- R191. -/
def execCommandWrite (cmd : Byte) (s : State) : Host.Outcome State Fault Refusal :=
  driverOp none (commandWriteProg s cmd) .unit s

/-- R189. -/
def execCommandRead (s : State) : Host.Outcome State Fault Refusal :=
  driverOp none (receiveByteProg s .cmd) .twoNibbles s

/-- R192. -/
def execSetCursor (col row : Byte) (s : State) : Host.Outcome State Fault Refusal :=
  driverOp (if 0x7F < ddramAddress s.cfg.rowOffset s.lcd.lines col row then some .ddramRange else none)
    (commandProg s (ddramCommand (ddramAddress s.cfg.rowOffset s.lcd.lines col row))) .unit s

/-- R193. -/
def execDisplayOn (s : State) : Host.Outcome State Fault Refusal :=
  driverOp none (shadowCommandProg s .ctrl (withBits s.lcd.ctrl displayBit)) .unit s

/-- R194. -/
def execDisplayOff (s : State) : Host.Outcome State Fault Refusal :=
  driverOp none (shadowCommandProg s .ctrl (withoutBits s.lcd.ctrl displayBit)) .unit s

/-- R195. -/
def execCursorOn (s : State) : Host.Outcome State Fault Refusal :=
  driverOp none (shadowCommandProg s .ctrl (withBits s.lcd.ctrl cursorBit)) .unit s

/-- R196. -/
def execCursorOff (s : State) : Host.Outcome State Fault Refusal :=
  driverOp none (shadowCommandProg s .ctrl (withoutBits s.lcd.ctrl cursorBit)) .unit s

/-- R197. -/
def execBlinkOn (s : State) : Host.Outcome State Fault Refusal :=
  driverOp none (shadowCommandProg s .ctrl (withBits s.lcd.ctrl blinkBit)) .unit s

/-- R198. -/
def execBlinkOff (s : State) : Host.Outcome State Fault Refusal :=
  driverOp none (shadowCommandProg s .ctrl (withoutBits s.lcd.ctrl blinkBit)) .unit s

/-- R201: cursor/display shift, S/C = 1, R/L = 0. -/
def execScrollLeft (s : State) : Host.Outcome State Fault Refusal := driverOp none (commandProg s 0x18) .unit s

/-- R202: cursor/display shift, S/C = 1, R/L = 1. -/
def execScrollRight (s : State) : Host.Outcome State Fault Refusal := driverOp none (commandProg s 0x1C) .unit s

/-- R203. -/
def execLeftToRight (s : State) : Host.Outcome State Fault Refusal :=
  driverOp none (shadowCommandProg s .entry (withBits s.lcd.entry incrementBit)) .unit s

/-- R204. -/
def execRightToLeft (s : State) : Host.Outcome State Fault Refusal :=
  driverOp none (shadowCommandProg s .entry (withoutBits s.lcd.entry incrementBit)) .unit s

/-- R207. -/
def execAutoscroll (s : State) : Host.Outcome State Fault Refusal :=
  driverOp none (shadowCommandProg s .entry (withBits s.lcd.entry shiftBit)) .unit s

/-- R208. -/
def execNoAutoscroll (s : State) : Host.Outcome State Fault Refusal :=
  driverOp none (shadowCommandProg s .entry (withoutBits s.lcd.entry shiftBit)) .unit s

/-- R209. -/
def execCreateChar (loc : Byte) (map : List Byte) (s : State) : Host.Outcome State Fault Refusal :=
  driverOp (if map.length ≠ 8 then some .mapLength else none) (createCharProg s loc map) .unit s

/-- R205. -/
def execBacklight (s : State) : Host.Outcome State Fault Refusal := driverOp none (setBacklightProg s true) .unit s

/-- R206. -/
def execNoBacklight (s : State) : Host.Outcome State Fault Refusal := driverOp none (setBacklightProg s false) .unit s

/-- R183. -/
def execSend (value : Byte) (mode : Mode) (s : State) : Host.Outcome State Fault Refusal :=
  driverOp none (sendProg s value mode) .unit s

/-- R185. -/
def execReceive (mode : Mode) (s : State) : Host.Outcome State Fault Refusal :=
  driverOp none (receiveByteProg s mode) .twoNibbles s

/-- R200. -/
def execClear (s : State) : Host.Outcome State Fault Refusal := driverOp none (clearProg s) .unit s

/-- R180; issued by a caller it runs inside the caller's own acquisition (41_shared_bus.md R173). -/
def execExpWrite (b : Byte) (s : State) : Host.Outcome State Fault Refusal := withToken (expWriteProg s b) .unit s

/-- R181. -/
def execExpRead (s : State) : Host.Outcome State Fault Refusal := withToken (expReadProg s) .lastByte s

/-- R182. -/
def execPulseNibble (nib : Nibble) (mode : Mode) (s : State) : Host.Outcome State Fault Refusal :=
  withToken (pulseProg s nib mode) .unit s

/-- R184. -/
def execReadNibble (mode : Mode) (s : State) : Host.Outcome State Fault Refusal :=
  withToken (readNibbleProg s mode) .highNibble s

/-- R210. -/
def execSetBacklight (v : Bit) (s : State) : Host.Outcome State Fault Refusal :=
  driverOp none (setBacklightProg s v) .unit s

end Sys2Proof.Machine
end

