-- ==== Sys2Proof/Machine/LoadCellOps.lean ====
section
/-! DEFINITION. The LoadCellDriver operations (spec/45_loadcell.md). -/

namespace Sys2Proof.Machine

/-! ### Bodies -/

/-- `lc_pulse()` (R273). -/
def lcPulseProg (s : State) : List Micro := [.clk true, .delay s.cfg.tLcHigh, .clk false, .delay s.cfg.tLcLow]

/-- One bit of `shift_in_byte`, the `k`-th bit-pair of the read (R265). -/
def shiftBitProg (s : State) (k : Nat) : List Micro :=
  [.lcPhase (.shifting k), .clk true, .delay s.cfg.tLcHigh, .takeBit, .clk false, .delay s.cfg.tLcLow]

/-- `shift_in_byte(base)` (R265). -/
def shiftProg (s : State) (base : Nat) : List Micro :=
  ((List.range 8).flatMap fun j => shiftBitProg s (base + j)) ++ [.endByte]

/-- The trailing pulses of `read` (R264). -/
def gainProg (s : State) : List Micro :=
  (List.range s.lc.gain).flatMap fun k => .lcPhase (.gainSelect k) :: lcPulseProg s

/-- `read()` (R264). -/
def readProg (s : State) : List Micro :=
  [.pollReady (msToNs s.cfg.tReadyPoll)] ++ shiftProg s 0 ++ shiftProg s 8 ++ shiftProg s 16
  ++ gainProg s ++ [.lcPhase .idle, .endRead]

/-- `count` consecutive reads (R266). -/
def readsProg (s : State) (count : Byte) : List Micro := (List.replicate count.toNat (readProg s)).flatten

/-! ### Operations -/

/-- An operation built on `count` reads: `ZeroCount`, then `PoweredDown` at the first read (R264, R266). -/
def averagingOp (count : Byte) (last : List Micro) (ret : Ret) (s : State) : Host.Outcome State Fault Refusal :=
  if !countAdmitted count then .refused .zeroCount
  else if s.lc.phase = .poweredDown then .refused .poweredDown
  else pinOp (readsProg s count ++ last) ret s

/-- R261. -/
def execIsReady (s : State) : Host.Outcome State Fault Refusal := pinOp [.takeReady] .lastFlag s

/-- R262. -/
def execWaitReady (delayMs : Word) (s : State) : Host.Outcome State Fault Refusal :=
  pinOp [.pollReady (msToNs delayMs.toNat)] .unit s

/-- R263. -/
def execWaitReadyRetry (retries delayMs : Word) (s : State) : Host.Outcome State Fault Refusal :=
  pinOp [.pollRetry retries.toNat (msToNs delayMs.toNat)] .lastFlag s

/-- R264. -/
def execRead (s : State) : Host.Outcome State Fault Refusal :=
  if s.lc.phase = .poweredDown then .refused .poweredDown else pinOp (readProg s) .lastSample s

/-- R266. -/
def execReadAverage (count : Byte) (s : State) : Host.Outcome State Fault Refusal := averagingOp count [] .average s

/-- R267. -/
def execTare (count : Byte) (s : State) : Host.Outcome State Fault Refusal :=
  averagingOp count [.storeOffset] .unit s

/-- R268. -/
def execGetValue (count : Byte) (s : State) : Host.Outcome State Fault Refusal := averagingOp count [] .value s

/-- R269. -/
def execGetUnits (count : Byte) (s : State) : Host.Outcome State Fault Refusal := averagingOp count [] .units s

/-- R270. -/
def execPowerDown (s : State) : Host.Outcome State Fault Refusal :=
  pinOp [.clk true, .lcPhase .poweredDown] .unit s

/-- R271. -/
def execPowerUp (s : State) : Host.Outcome State Fault Refusal := pinOp [.clk false, .lcPhase .idle] .unit s

/-- R272. -/
def execSetGain (gain : Byte) (s : State) : Host.Outcome State Fault Refusal :=
  .next (({ s with lc.gain := gainCode gain s.lc.gain }).finish .unit)

/-- R265; issued by a caller it needs nothing of the driver's phase (log 17). -/
def execShiftInByte (base : ShiftBase) (s : State) : Host.Outcome State Fault Refusal :=
  pinOp (shiftProg s base.toNat) .lastByte s

/-- R273. -/
def execLcPulse (s : State) : Host.Outcome State Fault Refusal := pinOp (lcPulseProg s) .unit s

/-- R260. -/
def execClk (l : Bit) (s : State) : Host.Outcome State Fault Refusal := pinOp [.clk l] .unit s

end Sys2Proof.Machine
end

