-- ==== Sys2Proof/Machine/PwmOps.lean ====
section
/-! DEFINITION. The PwmDriver operations (spec/44_pwm.md). -/

namespace Sys2Proof.Machine

/-- The body of `pwm_init` (R240): the ping, then the two register writes of a device that answered. -/
def pwmInitProg (s : State) : List Micro :=
  pingProg s.pwm.addr ++ [.needAck]
  ++ writeRegProg s.pwm.addr [BitVec.ofNat 8 s.cfg.pwmRegMode1, BitVec.ofNat 8 s.cfg.pwmMode1Value]
  ++ writeRegProg s.pwm.addr [BitVec.ofNat 8 s.cfg.pwmRegPrescale, BitVec.ofNat 8 s.cfg.pwmPrescaleValue]

/-- The operand refusals of `set_channel`, in the order written (R241). -/
def setChannelCheck (channel : Byte) (on off : Half) : Option Refusal :=
  if !channelAdmitted channel then some .channelRange
  else if !counterAdmitted on || !counterAdmitted off then some .counterRange
  else none

/-- R240. -/
def execPwmInit (s : State) : Host.Outcome State Fault Refusal := driverOp none (pwmInitProg s) .unit s

/-- R241. -/
def execSetChannel (channel : Byte) (on off : Half) (s : State) : Host.Outcome State Fault Refusal :=
  driverOp (setChannelCheck channel on off)
    (writeRegProg s.pwm.addr (channelPacket s.cfg.pwmLed0Base channel on off)) .unit s

end Sys2Proof.Machine
end

