-- ==== Sys2Proof/Machine/Dispatch.lean ====
section
/-! DEFINITION. One arm per operation: the meaning of each row of spec/opcode_table.json. -/

namespace Sys2Proof.Machine

/-- What an issued operation does in a state. -/
def exec (i : Instr) (s : State) : Host.Outcome State Fault Refusal :=
  match i with
  | .startTransaction addr dir => Sys2Proof.Machine.execStartTransaction addr dir s
  | .writeByte b => Sys2Proof.Machine.execWriteByte b s
  | .readAck => Sys2Proof.Machine.execReadAck s
  | .readNack => Sys2Proof.Machine.execReadNack s
  | .stop => Sys2Proof.Machine.execStop s
  | .writeReg addr bytes => Sys2Proof.Machine.execWriteReg addr bytes s
  | .readReg addr reg n => Sys2Proof.Machine.execReadReg addr reg n s
  | .pingDevice addr => Sys2Proof.Machine.execPingDevice addr s
  | .scanBus => Sys2Proof.Machine.execScanBus s
  | .wait => Sys2Proof.Machine.execWait s
  | .launch action => Sys2Proof.Machine.execLaunch action s
  | .acquire => Sys2Proof.Machine.execAcquire s
  | .release t => Sys2Proof.Machine.execRelease t s
  | .lcdInit => Sys2Proof.Machine.execLcdInit s
  | .writeChar c => Sys2Proof.Machine.execWriteChar c s
  | .writeStr str => Sys2Proof.Machine.execWriteStr str s
  | .commandWrite cmd => Sys2Proof.Machine.execCommandWrite cmd s
  | .commandRead => Sys2Proof.Machine.execCommandRead s
  | .setCursor col row => Sys2Proof.Machine.execSetCursor col row s
  | .displayOn => Sys2Proof.Machine.execDisplayOn s
  | .displayOff => Sys2Proof.Machine.execDisplayOff s
  | .cursorOn => Sys2Proof.Machine.execCursorOn s
  | .cursorOff => Sys2Proof.Machine.execCursorOff s
  | .blinkOn => Sys2Proof.Machine.execBlinkOn s
  | .blinkOff => Sys2Proof.Machine.execBlinkOff s
  | .scrollLeft => Sys2Proof.Machine.execScrollLeft s
  | .scrollRight => Sys2Proof.Machine.execScrollRight s
  | .leftToRight => Sys2Proof.Machine.execLeftToRight s
  | .rightToLeft => Sys2Proof.Machine.execRightToLeft s
  | .autoscroll => Sys2Proof.Machine.execAutoscroll s
  | .noAutoscroll => Sys2Proof.Machine.execNoAutoscroll s
  | .createChar loc map => Sys2Proof.Machine.execCreateChar loc map s
  | .backlight => Sys2Proof.Machine.execBacklight s
  | .noBacklight => Sys2Proof.Machine.execNoBacklight s
  | .send value mode => Sys2Proof.Machine.execSend value mode s
  | .receive mode => Sys2Proof.Machine.execReceive mode s
  | .clear => Sys2Proof.Machine.execClear s
  | .expWrite b => Sys2Proof.Machine.execExpWrite b s
  | .expRead => Sys2Proof.Machine.execExpRead s
  | .pulseNibble nib mode => Sys2Proof.Machine.execPulseNibble nib mode s
  | .readNibble mode => Sys2Proof.Machine.execReadNibble mode s
  | .setBacklight v => Sys2Proof.Machine.execSetBacklight v s
  | .pwmInit => Sys2Proof.Machine.execPwmInit s
  | .setChannel channel on off => Sys2Proof.Machine.execSetChannel channel on off s
  | .isReady => Sys2Proof.Machine.execIsReady s
  | .waitReady delayMs => Sys2Proof.Machine.execWaitReady delayMs s
  | .waitReadyRetry retries delayMs => Sys2Proof.Machine.execWaitReadyRetry retries delayMs s
  | .read => Sys2Proof.Machine.execRead s
  | .readAverage count => Sys2Proof.Machine.execReadAverage count s
  | .tare count => Sys2Proof.Machine.execTare count s
  | .getValue count => Sys2Proof.Machine.execGetValue count s
  | .getUnits count => Sys2Proof.Machine.execGetUnits count s
  | .powerDown => Sys2Proof.Machine.execPowerDown s
  | .powerUp => Sys2Proof.Machine.execPowerUp s
  | .setGain gain => Sys2Proof.Machine.execSetGain gain s
  | .shiftInByte base => Sys2Proof.Machine.execShiftInByte base s
  | .lcPulse => Sys2Proof.Machine.execLcPulse s
  | .clk l => Sys2Proof.Machine.execClk l s

end Sys2Proof.Machine
end

