-- ==== Sys2Proof/Machine/Fetch.lean ====
section
/-! DEFINITION. Taking the next command the caller has issued, and what happens between operations. The spec gives
the block no program (10_state.md R22): the command port is the model's (log 1, log 2). -/

namespace Sys2Proof.Machine

/-- The reason of R305 for a byte string that is no command. -/
def refusalOf (e : DecodeError) : Refusal :=
  match e with
  | .reservedOp => .reservedOp
  | .truncated => .truncatedCommand
  | .operandOutsideType => .operandOutsideType

/-- Issues the operation at the front of the command port. With none there the caller issues nothing. -/
def fetchAndExec (s : State) : Host.Outcome State Fault Refusal :=
  match s.cmds with
  | [] => .next s
  | _ :: _ =>
    match decode s.cmds with
    | .ok (i, rest) => exec i { s with cmds := rest }
    | .error e => .refused (refusalOf e)

/-- The next thing the block does: an operation that holds goes on (00_scope.md R14), else the oracle gets its
chance (40_bus_controller.md R132) and the next operation is issued (00_scope.md R9). -/
def advance (s : State) : Host.Outcome State Fault Refusal :=
  match s.work.todo with
  | [] => fetchAndExec s.tick
  | .refuse r :: _ => .refused r
  | m :: rest => .next (run (m :: rest) s)

/-- `s` with one command alone in the command port and no operation in progress. -/
def withCommand (bytes : List Byte) (s : State) : State := { s with cmds := bytes, work := .idle, refused := false }

end Sys2Proof.Machine
end

