-- ==== Sys2Proof/Machine/Step.lean ====
section
/-! DEFINITION. One step of the block, and the record of a refusal (spec/10_state.md R21). -/

namespace Sys2Proof.Machine

/-- One step: an operation is issued and runs to its end or its next hold, or a held one goes on. A run that was
refused has no meaning (R21). -/
def step (s : State) : Host.Outcome State Fault Refusal :=
  if s.refused then .refused .runRefused else advance s

/-- The state a step leaves the run in: a refusal is recorded and nothing else changes (00_scope.md R12). -/
def stepRecorded (s : State) : State :=
  match step s with
  | .next t => t
  | .fault r => nomatch r
  | .refused _ => s.recordRefusal

/-- `s` with a table word of `nbits` bits as the next command, operand bytes above it zero. -/
def State.withFetchWord (s : State) (nbits w : Nat) : State := withCommand (tableBytes nbits w) s

end Sys2Proof.Machine
end

