-- ==== Sys2Proof/Machine/Completed.lean ====
section
/-! DEFINITION. The pseudocode of the spec read straight through, for a run in which no hold occurs: every bus action
completes when it is waited for and the load cell is ready when it is polled. No continuation and no primitive step
appears here; the statements say that the machine of Ops.lean comes to these states. -/

namespace Sys2Proof.Machine

/-- No bus action is pending and the next `n` questions to the oracle are answered "completed". -/
def AnswersReady (n : Nat) (s : State) : Prop :=
  s.bc.pending = none ∧ ∀ k, k < n → (s.env.answer k).done = true

/-! ### BusController (40_bus_controller.md) -/

/-- A START has been sent (R130, R133). -/
def afterStart (s : State) : State :=
  { s with
    hist := s.hist ++ [startEvent s.bc.phase]
    bc.phase := .started
    bc.status := startStatus s.bc.phase
    bc.ready := true
    bc.sta := false
    bc.pending := none
    env := s.env.advance 1 }

/-- A byte has been sent (R130, R133); the oracle answered the acknowledge. -/
def afterTx (b : Byte) (s : State) : State :=
  { s with
    hist := s.hist ++ [.tx b (s.env.answer 0).ack]
    bc.data := b
    bc.status := txStatus s.bc.phase b (s.env.answer 0).ack
    bc.ready := true
    bc.sta := false
    bc.pending := none
    env := s.env.advance 1 }

/-- A byte has been received and answered with acknowledge `m` (R130, R133). -/
def afterRx (m : Bit) (s : State) : State :=
  { s with
    hist := s.hist ++ [.rx (s.env.answer 0).rx m]
    bc.data := (s.env.answer 0).rx
    bc.status := rxStatus m
    bc.ea := m
    bc.ready := true
    bc.sta := false
    bc.pending := none
    env := s.env.advance 1 }

/-- A STOP has been sent (R130, R138), and STO is clear (log 8). -/
def afterStop (s : State) : State :=
  { s with hist := s.hist ++ [.stop], bc.phase := .idle, bc.sto := false }

/-- `start_transaction(addr, dir)` (R134). -/
def afterAddress (addr : Addr7) (dir : Dir) (s : State) : State :=
  { afterTx (addressByte addr dir) (afterStart s) with
    bc.addr := addr
    bc.phase := match dir with
      | .write => .activeW
      | .read => .activeR }

/-- `write_byte` for each byte (R139). -/
def afterBytes (bytes : List Byte) (s : State) : State := bytes.foldl (fun t b => afterTx b t) s

/-- `write_reg(addr, bytes)` (R139). -/
def afterWriteReg (addr : Addr7) (bytes : List Byte) (s : State) : State :=
  afterStop (afterBytes bytes (afterAddress addr .write s))

/-- `k` times `read_ack` (R140). -/
def afterReadAcks (k : Nat) (s : State) : State := Nat.iterate (afterRx true) k s

/-- `read_reg(addr, reg, n)` for n ≥ 1 (R140). -/
def afterReadReg (addr : Addr7) (reg : Byte) (n : Nat) (s : State) : State :=
  afterStop (afterRx false (afterReadAcks (n - 1)
    (afterAddress addr .read (afterTx reg (afterAddress addr .write s)))))

/-- The bytes of `read_reg`: the oracle's answers after the five actions before the first receive (R140). -/
def readRegValue (n : Nat) (s : State) : List Byte := (List.range n).map fun k => (s.env.answer (5 + k)).rx

/-- `ping_device(addr)` (R141). -/
def afterPing (addr : Addr7) (s : State) : State := afterStop (afterAddress addr .write s)

/-- The pings of `scan_bus` from address 0 to `k - 1` (R142). -/
def afterScan (k : Nat) (s : State) : State :=
  (List.range k).foldl (fun t a => afterPing (BitVec.ofNat 7 a) t) s

/-! ### DisplayDriver (42_display.md) -/

/-- `exp_write(b)` (R180). -/
def afterExpWrite (b : Byte) (s : State) : State := afterWriteReg s.lcd.addr [b] s

/-- `exp_read()` (R181). -/
def afterExpRead (s : State) : State := afterStop (afterRx false (afterAddress s.lcd.addr .read s))

/-- The byte of `exp_read`: the answer to its third action. -/
def expReadValue (s : State) : Byte := (s.env.answer 2).rx

/-- `pulse_nibble(nib, mode)` (R182). -/
def afterPulse (nib : Nibble) (mode : Mode) (s : State) : State :=
  (afterExpWrite (expanderByte s.lcd.bl nib mode false false)
    ((afterExpWrite (expanderByte s.lcd.bl nib mode false true) s).delay s.cfg.tEnHold)).delay s.cfg.tSettle

/-- `send(value, mode)` (R183). -/
def afterSend (value : Byte) (mode : Mode) (s : State) : State :=
  afterPulse (lowNibble value) mode (afterPulse (highNibble value) mode s)

/-- `send` for each byte of a string (R188). -/
def afterSendAll (bytes : List Byte) (s : State) : State := bytes.foldl (fun t b => afterSend b .data t) s

/-- `read_nibble(mode)` (R184). -/
def afterReadNibble (mode : Mode) (s : State) : State :=
  (afterExpWrite (expanderByte s.lcd.bl 0xF mode true false)
    (afterExpRead ((afterExpWrite (expanderByte s.lcd.bl 0xF mode true true) s).delay s.cfg.tEnHold))).delay s.cfg.tSettle

/-- The nibble of `read_nibble`: its sixth action receives. -/
def readNibbleValue (s : State) : Nibble := highNibble (s.env.answer 5).rx

/-- `receive(mode)` (R185). -/
def afterReceive (mode : Mode) (s : State) : State := afterReadNibble mode (afterReadNibble mode s)

/-- The byte of `receive`: nine actions a nibble. -/
def receiveValue (s : State) : Byte :=
  joinNibbles (highNibble (s.env.answer 5).rx) (highNibble (s.env.answer 14).rx)

/-- A shadow register is written and its byte sent as a command (R193). -/
def afterShadowCommand (r : Shadow) (v : Byte) (s : State) : State := afterSend v .cmd (s.setShadow r v)

/-- `clear()` (R200). -/
def afterClear (s : State) : State := (afterSend 0x01 .cmd s).delay s.cfg.tClear

/-- One init pulse and its wait (R199). -/
def afterInitPulse (nib : Nibble) (ns : Nat) (s : State) : State := (afterPulse nib .cmd s).delay ns

/-- `init()` (R199). -/
def afterLcdInit (s : State) : State :=
  let s0 := s.delay s.cfg.tPowerOn
  let s1 := afterInitPulse 0x3 s.cfg.tInit1 s0
  let s2 := afterInitPulse 0x3 s.cfg.tInit2 s1
  let s3 := afterInitPulse 0x3 s.cfg.tInit3 s2
  let s4 := afterInitPulse 0x2 s.cfg.tInit4 s3
  let s5 := afterShadowCommand .fn (functionSetByte s.lcd.lines s.lcd.font) s4
  let s6 := afterShadowCommand .entry 0x06 s5
  let s7 := afterShadowCommand .ctrl 0x0C s6
  afterClear s7

/-- `set_backlight(v)` (R210). -/
def afterSetBacklight (v : Bit) (s : State) : State :=
  afterExpWrite (withBacklight (expReadValue s) v) (afterExpRead { s with lcd.bl := v })

/-- `create_char(loc, map)` (R209). -/
def afterCreateChar (loc : Byte) (map : List Byte) (s : State) : State :=
  afterSendAll map (afterSend (cgramCommand loc) .cmd s)

/-- A driver operation that ran its body `f` inside one acquisition and returned `r` (41_shared_bus.md R173). -/
def driverDone (f : State → State) (r : Result) (s : State) : State := (f s.hold).unhold.finish r

/-! ### PwmDriver (44_pwm.md) -/

/-- The two register writes of `pwm_init` (R240). -/
def afterPwmSetup (s : State) : State :=
  afterWriteReg s.pwm.addr [BitVec.ofNat 8 s.cfg.pwmRegPrescale, BitVec.ofNat 8 s.cfg.pwmPrescaleValue]
    (afterWriteReg s.pwm.addr [BitVec.ofNat 8 s.cfg.pwmRegMode1, BitVec.ofNat 8 s.cfg.pwmMode1Value] s)

/-! ### LoadCellDriver (45_loadcell.md) -/

/-- `lc_pulse()` (R273). -/
def afterLcPulse (s : State) : State :=
  (((s.driveClk true).delay s.cfg.tLcHigh).driveClk false).delay s.cfg.tLcLow

/-- One bit of `shift_in_byte` (R265). -/
def afterShiftBit (k : Nat) (s : State) : State :=
  ((((({ s with lc.phase := .shifting k }).driveClk true).delay s.cfg.tLcHigh).sampled).driveClk false).delay s.cfg.tLcLow

/-- The bit-pairs `base .. base + n - 1` of a read (R265). -/
def afterShift (base n : Nat) (s : State) : State :=
  (List.range n).foldl (fun t j => afterShiftBit (base + j) t) s

/-- The levels the data pin shows at the questions `k .. k + n - 1` from now. -/
def levelsAt (e : Env) (k n : Nat) : List Bit := (List.range n).map fun j => (e.answer (k + j)).level

/-- The trailing pulses `0 .. n - 1` of a read (R264). -/
def afterGainPulses (n : Nat) (s : State) : State :=
  (List.range n).foldl (fun t k => afterLcPulse { t with lc.phase := .gainSelect k }) s

/-- `read()` when the line is low at the first poll (R264). -/
def afterRead (s : State) : State :=
  { afterGainPulses s.lc.gain (afterShift 0 24 s.sampled) with lc.phase := .idle }

/-- A read asks the oracle 25 times: the poll and 24 bits. -/
def readQuestions : Nat := 25

/-- The sample a read returns that polls at question `k` from now: `sext_32` of the 24 bits that follow, the first
bit 23 (30_encoding.md R114). -/
def readValue (e : Env) (k : Nat) : Word :=
  ((levelsAt e (k + 1) 24).foldl (fun (v : BitVec 24) b => (v <<< 1) ||| (BitVec.ofBool b).setWidth 24) 0).signExtend 32

/-- `n` consecutive reads (R266). -/
def afterReads (n : Nat) (s : State) : State := Nat.iterate afterRead n s

/-- The samples of `n` consecutive reads. -/
def readValues (e : Env) (n : Nat) : List Word := (List.range n).map fun j => readValue e (readQuestions * j)

/-- The line is low at the first poll of each of `n` reads. -/
def readsReady (e : Env) (n : Nat) : Prop := ∀ j, j < n → (e.answer (readQuestions * j)).level = false

/-- `read_average(count)`: the exact sum over the exact count, truncated toward zero (R266). -/
def averageValue (e : Env) (count : Nat) : Int := Int.tdiv ((readValues e count).map BitVec.toInt).sum count

/-- `k` polls that found the line high, each followed by its delay (R262, R263). -/
def afterBusyPolls (k ns : Nat) (s : State) : State := Nat.iterate (fun t => t.sampled.delay ns) k s

end Sys2Proof.Machine
end

