-- ==== Sys2Proof/Safety.lean ====
section
/-! DEFINITION. What the claims speak of: the invariant of the block, the fields construction alone writes, the
wire events of each driver, the groups of operations, and the hazard check of spec/70_reset_and_hazards.md R343. -/

namespace Sys2Proof.Machine

/-! ### The invariant -/

/-- k ∈ 0..23 and k ∈ 0..2 (10_state.md R43). -/
def LcPhase.legal : LcPhase → Prop
  | .poweredDown => True
  | .idle => True
  | .shifting k => k < 24
  | .gainSelect k => k < 3

/-- A load-cell sample: −2^23 .. 2^23−1 (45_loadcell.md R264). -/
def sampleRange (v : Word) : Prop := -8388608 ≤ v.toInt ∧ v.toInt ≤ 8388607

/-- The command class of a shadow register's group (30_encoding.md R102, R104 to R106). -/
def Shadow.classBit : Shadow → Byte
  | .fn => 0x20
  | .entry => 0x04
  | .ctrl => 0x08

/-- The operation's remaining steps are ones an operation of the block can have: bus actions and the release only
while the handle is held (41_shared_bus.md R172), shadow writes of the right class, phases in range, and an end that
returns or is refused. -/
def todoLegal (held : Bool) : List Micro → Prop
  | [] => False
  | .ret _ :: _ => True
  | .refuse _ :: _ => True
  | .release :: rest => held = true ∧ todoLegal false rest
  | .launch _ :: rest => held = true ∧ todoLegal held rest
  | .rewritePort _ :: rest => held = true ∧ todoLegal held rest
  | .setShadow r v :: rest => commandClass v = r.classBit ∧ todoLegal held rest
  | .lcPhase p :: rest => p.legal ∧ todoLegal held rest
  | .wait :: rest => todoLegal held rest
  | .addressed _ _ :: rest => todoLegal held rest
  | .takeByte :: rest => todoLegal held rest
  | .takeAck :: rest => todoLegal held rest
  | .needAck :: rest => todoLegal held rest
  | .delay _ :: rest => todoLegal held rest
  | .setBl _ :: rest => todoLegal held rest
  | .clk _ :: rest => todoLegal held rest
  | .takeBit :: rest => todoLegal held rest
  | .endByte :: rest => todoLegal held rest
  | .endRead :: rest => todoLegal held rest
  | .takeReady :: rest => todoLegal held rest
  | .pollReady _ :: rest => todoLegal held rest
  | .pollRetry _ _ :: rest => todoLegal held rest
  | .storeOffset :: rest => todoLegal held rest

/-- The invariant of the block. -/
structure BlockInv (s : State) : Prop where
  /-- 10_state.md R39 -/
  lines : 1 ≤ s.lcd.lines ∧ s.lcd.lines ≤ 4
  /-- 10_state.md R44 -/
  gain : 1 ≤ s.lc.gain ∧ s.lc.gain ≤ 3
  /-- 10_state.md R43 -/
  lcPhase : s.lc.phase.legal
  /-- 10_state.md R46 -/
  scale : s.lc.scale ≠ 0
  /-- 45_loadcell.md R266, R267 -/
  offset : sampleRange s.lc.offset
  /-- 45_loadcell.md R264 -/
  samples : ∀ v ∈ s.work.samples, sampleRange v
  /-- 30_encoding.md R104 to R106 -/
  shadows : ∀ r : Shadow, commandClass (s.shadow r) = r.classBit
  /-- 40_bus_controller.md R146 -/
  status : s.bc.status ≠ .arbLost ∧ s.bc.status ≠ .busError
  /-- 10_state.md R26: the flag is clear from the launch to the completion -/
  ready : s.bc.pending ≠ none → s.bc.ready = false
  /-- 10_state.md R30 -/
  sta : s.bc.sta = true ↔ s.bc.pending = some .start
  /-- 40_bus_controller.md R130: STOP completes at once -/
  stopNotPending : s.bc.pending ≠ some .stop
  /-- 10_state.md R30 -/
  enabled : s.bc.en = true
  /-- an operation in progress is one the block can have in progress -/
  todo : s.work.todo = [] ∨ todoLegal s.sb.held s.work.todo
  /-- between operations nothing of an operation is left -/
  idle : s.work.todo = [] → s.work = .idle

/-! ### Fields that construction alone writes -/

/-- `S.bc.div`, EN, `S.lcd.addr`, `S.lcd.lines`, `S.lcd.font`, `S.pwm`, `S.lc.scale` and the parameters agree (10_state.md
R29, R30, R34, R39, R40, R46). -/
def sameConstruction (s t : State) : Prop :=
  t.bc.div = s.bc.div ∧ t.bc.en = s.bc.en ∧ t.lcd.addr = s.lcd.addr ∧ t.lcd.lines = s.lcd.lines
  ∧ t.lcd.font = s.lcd.font ∧ t.pwm = s.pwm ∧ t.lc.scale = s.lc.scale ∧ t.cfg = s.cfg

/-! ### Events and operations by driver -/

/-- A `Clk`, `Dout` or `Delay` event: what the LoadCellDriver emits (45_loadcell.md). -/
def Event.ofPins : Event → Bool
  | .clk _ => true
  | .dout _ => true
  | .delay _ => true
  | .start => false
  | .repStart => false
  | .tx _ _ => false
  | .rx _ _ => false
  | .stop => false

/-- A two-wire event or a `Delay`: what the other drivers emit. -/
def Event.ofBus : Event → Bool
  | .clk _ => false
  | .dout _ => false
  | .delay _ => true
  | .start => true
  | .repStart => true
  | .tx _ _ => true
  | .rx _ _ => true
  | .stop => true

/-- The four parts of the block an operation may belong to (30_encoding.md R92, "kind"), and whether a driver operation
acquires by itself (41_shared_bus.md R173). -/
inductive Part where
  | controller
  | handle
  | driver
  | internal
  | loadCell
  deriving DecidableEq, Repr

/-- The part an operation belongs to: `driver` is an operation wrapped in an acquisition, `internal` a display
operation that runs inside its caller's (41_shared_bus.md R173). -/
def partOf : Instr → Part
  | .startTransaction _ _ => .controller
  | .writeByte _ => .controller
  | .readAck => .controller
  | .readNack => .controller
  | .stop => .controller
  | .writeReg _ _ => .controller
  | .readReg _ _ _ => .controller
  | .pingDevice _ => .controller
  | .scanBus => .controller
  | .wait => .controller
  | .launch _ => .controller
  | .acquire => .handle
  | .release _ => .handle
  | .lcdInit => .driver
  | .writeChar _ => .driver
  | .writeStr _ => .driver
  | .commandWrite _ => .driver
  | .commandRead => .driver
  | .setCursor _ _ => .driver
  | .displayOn => .driver
  | .displayOff => .driver
  | .cursorOn => .driver
  | .cursorOff => .driver
  | .blinkOn => .driver
  | .blinkOff => .driver
  | .scrollLeft => .driver
  | .scrollRight => .driver
  | .leftToRight => .driver
  | .rightToLeft => .driver
  | .autoscroll => .driver
  | .noAutoscroll => .driver
  | .createChar _ _ => .driver
  | .backlight => .driver
  | .noBacklight => .driver
  | .send _ _ => .driver
  | .receive _ => .driver
  | .clear => .driver
  | .expWrite _ => .internal
  | .expRead => .internal
  | .pulseNibble _ _ => .internal
  | .readNibble _ => .internal
  | .setBacklight _ => .driver
  | .pwmInit => .driver
  | .setChannel _ _ _ => .driver
  | .isReady => .loadCell
  | .waitReady _ => .loadCell
  | .waitReadyRetry _ _ => .loadCell
  | .read => .loadCell
  | .readAverage _ => .loadCell
  | .tare _ => .loadCell
  | .getValue _ => .loadCell
  | .getUnits _ => .loadCell
  | .powerDown => .loadCell
  | .powerUp => .loadCell
  | .setGain _ => .loadCell
  | .shiftInByte _ => .loadCell
  | .lcPulse => .loadCell
  | .clk _ => .loadCell

/-- The operations that may write a shadow register (10_state.md R35, R36, R37). -/
def writesShadow (r : Shadow) : Instr → Bool
  | .lcdInit => true
  | .commandWrite cmd => commandShadow cmd = some r
  | .displayOn | .displayOff | .cursorOn | .cursorOff | .blinkOn | .blinkOff => r = .ctrl
  | .leftToRight | .rightToLeft | .autoscroll | .noAutoscroll => r = .entry
  | _ => false

/-- `k` steps, up to the first refusal: what the host's `Core.run` does on this machine. -/
def runSteps : Nat → State → Host.Outcome State Fault Refusal
  | 0, s => .next s
  | k + 1, s =>
    match step s with
    | .next t => runSteps k t
    | .fault r => .fault r
    | .refused r => .refused r

/-- Up to `k` more steps of the operation in progress: no step is taken once it has ended or been refused. -/
def goOn : Nat → State → State
  | 0, s => s
  | k + 1, s =>
    match s.work.todo with
    | [] => s
    | _ :: _ =>
      match step s with
      | .next t => goOn k t
      | .fault _ => s
      | .refused _ => s

/-- Issued in `s`, operation `i` answers a next state, and there and however far it goes on the display's registers and
flag are `d`. -/
def showsThroughout (i : Instr) (s : State) (d : Display) : Prop :=
  ∃ t : State, exec i s = .next t ∧ ∀ k : Nat, (goOn k t).lcd = d

/-- The operations that may write the backlight flag (10_state.md R38). -/
def writesBacklight : Instr → Bool
  | .backlight | .noBacklight | .setBacklight _ => true
  | _ => false

/-- The op codes of the table (30_encoding.md R92). -/
def opCodeMap : List Nat :=
  [0x01, 0x02, 0x03, 0x04, 0x05, 0x06, 0x07, 0x08, 0x09, 0x0A, 0x0B, 0x10, 0x11]
  ++ [0x20, 0x21, 0x22, 0x23, 0x24, 0x25, 0x26, 0x27, 0x28, 0x29, 0x2A, 0x2B, 0x2C, 0x2D, 0x2E, 0x2F]
  ++ [0x30, 0x31, 0x32, 0x33, 0x34, 0x35, 0x36, 0x37, 0x38, 0x39, 0x3A, 0x3B, 0x3C, 0x40, 0x41]
  ++ [0x50, 0x51, 0x52, 0x53, 0x54, 0x55, 0x56, 0x57, 0x58, 0x59, 0x5A, 0x5B, 0x5C, 0x5D]

/-! ### Wire events of the composite operations, written out -/

/-- The bytes of a frame with the acknowledges the oracle gives from question `k` on. -/
def sentBytes (e : Env) (k : Nat) (bytes : List Byte) : List Event :=
  bytes.zipIdx.map fun p => .tx p.1 (e.answer (k + p.2)).ack

/-- One write frame of one byte from IDLE, its three questions from `k` on (42_display.md R180). -/
def writeFrame (e : Env) (k : Nat) (addr : Addr7) (b : Byte) : List Event :=
  [.start, .tx (addr ++ 0#1) (e.answer (k + 1)).ack, .tx b (e.answer (k + 2)).ack, .stop]

/-- One nibble strobe: the byte with EN set, the byte with EN clear, and the two delays (42_display.md R182). -/
def strobe (s : State) (k : Nat) (nib : Nibble) (mode : Mode) : List Event :=
  writeFrame s.env k s.lcd.addr (expanderByte s.lcd.bl nib mode false true) ++ [.delay s.cfg.tEnHold]
  ++ writeFrame s.env (k + 3) s.lcd.addr (expanderByte s.lcd.bl nib mode false false) ++ [.delay s.cfg.tSettle]

/-- The events of one sampled bit (45_loadcell.md R265). -/
def bitGroup (p : Params) (l : Bit) : List Event :=
  [.clk true, .delay p.tLcHigh, .dout l, .clk false, .delay p.tLcLow]

/-- The events of one trailing pulse (45_loadcell.md R273). -/
def pulseGroup (p : Params) : List Event := [.clk true, .delay p.tLcHigh, .clk false, .delay p.tLcLow]

/-- The unsigned number of 24 bits, the first the most significant (30_encoding.md R114). -/
def rawNumber (bits : List Bit) : Nat := bits.foldl (fun n b => 2 * n + b.toNat) 0

/-- The hazard check of 70_reset_and_hazards.md R343 for the minimum high time: it lies below the power-down
threshold. The block does not enforce it. -/
def clockHighBelowThreshold (p : Params) : Prop := p.tLcHigh < p.tLcHighMax

end Sys2Proof.Machine
end

