-- ==== Sys2Proof/Certificates/Slice0/Obligations.lean ====
section
/-! DEFINITION. The statements for the provers. `s` is always any state that meets the hypotheses, not a state some run
reaches. `AnswersReady n s` says that no bus action is pending and the next `n` questions to the oracle are answered
"completed": the operation then runs to its end in one step. -/

open Sys2Proof Sys2Proof.Machine

/-! ### Commands and steps -/

/-- Decoding the command bytes of any operation, with anything after them, gives the operation back and leaves what
follows (log 1). -/
def Obligations.DecodeOfEncode : Prop :=
  ∀ (i : Instr) (rest : List Byte), decode (encode i ++ rest) = .ok (i, rest)

/-- The decoder accepts nothing but encodings: no two command byte strings name one operation (log 1). -/
def Obligations.DecodeAcceptsOnlyEncodings : Prop :=
  ∀ (bytes rest : List Byte) (i : Instr), decode bytes = .ok (i, rest) → bytes = encode i ++ rest

/-- A few command byte strings written out from the op code map (log 1). -/
def Obligations.WrittenCommandsDecode : Prop :=
  decode [0x01, 0x27, 0x01] = .ok (.startTransaction 0x27 .read, [])
  ∧ decode [0x06, 0x40, 0x02, 0x00, 0xA0, 0x05] = .ok (.writeReg 0x40 [0x00, 0xA0], [0x05])
  ∧ decode [0x11] = .ok (.release .token, [])
  ∧ decode [0x35, 0x41, 0x01] = .ok (.send 0x41 .data, [])
  ∧ decode [0x41, 0x03, 0x00, 0x00, 0x00, 0x08] = .ok (.setChannel 3 0 0x800, [])
  ∧ decode [0x52, 0x02, 0x00, 0x00, 0x00, 0x05, 0x00, 0x00, 0x00] = .ok (.waitReadyRetry 2 5, [])
  ∧ decode [0x5B, 0x10] = .ok (.shiftInByte .b16, [])

/-- R92, R93: an op code outside the map is refused with `ReservedOp`, and the refusal is all that is recorded (R12, R21);
the op codes of the map are those of the operations. That the op code is the first byte of the command port is the
model's choice (log 1, log 2), and so is `stepRecorded` (log 9). -/
def Obligations.ReservedOpCodeIsRefused : Prop :=
  (∀ i : Instr, i.opCode.toNat ∈ opCodeMap) ∧ (∀ op ∈ opCodeMap, ∃ i : Instr, i.opCode.toNat = op)
  ∧ ∀ (s : State) (op : Byte) (rest : List Byte), s.refused = false → s.work.todo = [] → s.cmds = op :: rest →
    op.toNat ∉ opCodeMap → step s = .refused .reservedOp ∧ stepRecorded s = { s with refused := true }

/-- Between operations a step gives the oracle its chance to complete a pending bus action and then runs the operation
at the front of the command port; with nothing there it does no more. -/
def Obligations.StepRunsTheDecodedOperation : Prop :=
  (∀ (s : State) (i : Instr) (rest : List Byte), s.refused = false → s.work.todo = [] →
    decode s.cmds = .ok (i, rest) → step s = exec i { s.tick with cmds := rest })
  ∧ ∀ s : State, s.refused = false → s.work.todo = [] → s.cmds = [] → step s = .next s.tick

/-- Every step from a state that meets the invariant of the block leads to one that meets it. -/
def Obligations.EveryStepKeepsTheInvariant : Prop :=
  ∀ s t : State, BlockInv s → step s = .next t → BlockInv t

/-- Every constructed block meets the invariant, the one State.reset holds among them. -/
def Obligations.ConstructionMeetsTheInvariant : Prop :=
  (∀ (a : ConstructArgs) (t : State), construct a = .next t → BlockInv t)
  ∧ construct {} = .next State.reset ∧ BlockInv State.reset

/-- R20: every step appends to the history and none removes from it. -/
def Obligations.HistoryOnlyGrows : Prop :=
  ∀ s t : State, step s = .next t → ∃ events : List Event, t.hist = s.hist ++ events

/-- No step changes what construction alone writes: the divisor, EN, the device addresses, the line count, the font,
the scale and the parameters. -/
def Obligations.ConstructionFieldsNeverChange : Prop :=
  ∀ s t : State, step s = .next t → sameConstruction s t

/-- R47: the state after construction, in the entries the rule gives a value. -/
def Obligations.ConstructedStateIsTheTable : Prop :=
  ∀ a : ConstructArgs, a.inRange = true → ∃ t : State, construct a = .next t
    ∧ t.hist = [] ∧ t.refused = false
    ∧ t.bc.phase = .idle ∧ t.bc.ready = false ∧ t.bc.status = .noInfo ∧ t.bc.div = a.busDivisor
    ∧ t.bc.en = true ∧ t.bc.sta = false ∧ t.bc.sto = false ∧ t.sb.held = false
    ∧ t.lcd.addr.toNat = a.lcdAddr
    ∧ t.lcd.fn = 0x20 ||| (if a.numLines > 1 then 0x08 else 0) ||| (if a.font5x10 then 0x04 else 0)
    ∧ t.lcd.entry = 0x06 ∧ t.lcd.ctrl = 0x0C ∧ t.lcd.bl = a.blInit ∧ t.lcd.lines = a.numLines
    ∧ t.lcd.font = a.font5x10 ∧ t.pwm.addr.toNat = a.pwmAddr
    ∧ t.lc.clk = false ∧ t.lc.phase = .idle ∧ t.lc.gain = a.lcGainInit ∧ t.lc.offset = 0 ∧ t.lc.scale = a.lcScale

/-- R334 to R336: exactly the arguments outside their ranges are refused with `BadParameter`. That no other argument is
refused is the model's choice (log 26, log 27, log 28). -/
def Obligations.BadParametersAreRefused : Prop :=
  ∀ a : ConstructArgs, construct a = .refused .badParameter ↔
    128 ≤ a.lcdAddr ∨ a.numLines < 1 ∨ 4 < a.numLines ∨ 128 ≤ a.pwmAddr ∨ 0xFF < a.params.pwmLed0Base + 4 * 15 + 3
    ∨ 0xFF < a.params.pwmRegMode1 ∨ 0xFF < a.params.pwmMode1Value ∨ 0xFF < a.params.pwmRegPrescale
    ∨ 0xFF < a.params.pwmPrescaleValue ∨ a.lcGainInit < 1 ∨ 3 < a.lcGainInit ∨ a.lcScale = 0

/-- A refusal changes nothing but the refused flag, the flag is never cleared, and a refused run takes no further
step (log 9). -/
def Obligations.ARefusalEndsTheRun : Prop :=
  (∀ (s : State) (r : Refusal), step s = .refused r →
    stepRecorded s = { s with refused := true } ∧ step (stepRecorded s) = .refused .runRefused)
  ∧ ∀ s t : State, step s = .next t → t.refused = false

/-! ### BusController -/

/-- Launching an action (R130). START, TX and RX clear the ready flag; the oracle may complete them before the
operation returns (log 5). STOP completes at once, and STO with it (log 8); with another action pending it does so too
(R143), and that action stays pending (log 23). -/
def Obligations.LaunchCompletes : Prop :=
  (∀ s : State, s.sb.held = true →
    exec (.launch .stop) s = .next ((afterStop s.tick).tick.finish .unit)
    ∧ (∀ a : BusAction, s.bc.pending = some a → (s.env.answer 0).done = false → (s.env.answer 1).done = false →
      exec (.launch .stop) s = .next { s with
        hist := s.hist ++ [.stop], bc.phase := .idle, bc.sto := false, env := s.env.advance 2, ret := .unit
        work := .idle }))
  ∧ ∀ s : State, s.sb.held = true → s.bc.pending = none →
    (exec (.launch .stop) s = .next { s with
      hist := s.hist ++ [.stop], bc.phase := .idle, bc.sto := false, ret := .unit, work := .idle })
    ∧ ((s.env.answer 0).done = false →
      exec (.launch .start) s = .next { s with
        bc.ready := false, bc.sta := true, bc.pending := some .start, env := s.env.advance 1, ret := .unit, work := .idle }
      ∧ (∀ b : Byte, exec (.launch (.tx b)) s = .next { s with
        bc.data := b, bc.ready := false, bc.pending := some (.tx b), env := s.env.advance 1, ret := .unit, work := .idle })
      ∧ ∀ m : Bit, exec (.launch (.rx m)) s = .next { s with
        bc.ea := m, bc.ready := false, bc.pending := some (.rx m), env := s.env.advance 1, ret := .unit, work := .idle })
    ∧ ((s.env.answer 0).done = true →
      exec (.launch .start) s = .next ((afterStart s).finish .unit)
      ∧ (∀ b : Byte, exec (.launch (.tx b)) s = .next ((afterTx b s).finish .unit))
      ∧ ∀ m : Bit, exec (.launch (.rx m)) s = .next ((afterRx m s).finish .unit))

/-- The completion step (R133): what the pending action writes and emits when the oracle completes it, and nothing of it
before. -/
def Obligations.PendingActionCompletes : Prop :=
  ∀ s : State,
    (∀ a : BusAction, s.bc.pending = some a → (s.env.answer 0).done = false → s.tick = { s with env := s.env.advance 1 })
    ∧ ((s.env.answer 0).done = true →
      (s.bc.pending = some .start → s.tick = { s with
        hist := s.hist ++ [if s.bc.phase = .idle then .start else .repStart]
        bc.status := if s.bc.phase = .idle then .startSent else .repStartSent
        bc.phase := .started, bc.sta := false, bc.ready := true, bc.pending := none, env := s.env.advance 1 })
      ∧ (∀ b : Byte, s.bc.pending = some (.tx b) → s.tick = { s with
        hist := s.hist ++ [.tx b (s.env.answer 0).ack]
        bc.status :=
          if s.bc.phase = .started then
            (if b.getLsbD 0 then (if (s.env.answer 0).ack then .mrSlaAck else .mrSlaNack)
            else (if (s.env.answer 0).ack then .mtSlaAck else .mtSlaNack))
          else (if (s.env.answer 0).ack then .mtDataAck else .mtDataNack)
        bc.sta := false, bc.ready := true, bc.pending := none, env := s.env.advance 1 })
      ∧ ∀ m : Bit, s.bc.pending = some (.rx m) → s.tick = { s with
        hist := s.hist ++ [.rx (s.env.answer 0).rx m]
        bc.data := (s.env.answer 0).rx
        bc.status := if m then .mrDataAck else .mrDataNack
        bc.sta := false, bc.ready := true, bc.pending := none, env := s.env.advance 1 })

/-- `wait` (R131) returns at once when the ready flag is set, and when the oracle completes the pending action now; when
it does not, and when nothing was ever launched, `wait` holds and nothing changes. -/
def Obligations.WaitReturnsWhenReady : Prop :=
  ∀ s : State, s.sb.held = true →
    (s.bc.pending = none → s.bc.ready = true → exec .wait s = .next { s with ret := .unit, work := .idle })
    ∧ (∀ a : BusAction, s.bc.pending = some a → (s.env.answer 0).done = true →
      exec .wait s = .next { s.tick with ret := .unit, work := .idle })
    ∧ (∀ a : BusAction, s.bc.pending = some a → s.bc.ready = false → (s.env.answer 0).done = false →
      exec .wait s = .next { s with env := s.env.advance 1, work := { todo := [.wait, .ret .unit] } })
    ∧ (s.bc.pending = none → s.bc.ready = false →
      exec .wait s = .next { s with work := { todo := [.wait, .ret .unit] } })

/-- A wait whose action the oracle does not complete holds for as many steps as that lasts, and a wait before any launch
holds for ever: no timeout, no fault, no change (R131, R344). That the oracle is asked once in each of these steps is the
model's choice (log 3, log 5). -/
def Obligations.AWaitNeverTimesOut : Prop :=
  ∀ (n : Nat) (s : State) (rest : List Micro), s.refused = false → s.work.todo = .wait :: rest → s.bc.ready = false →
    (s.bc.pending ≠ none → (∀ k, k < n → (s.env.answer k).done = false) →
      runSteps n s = .next { s with env := s.env.advance n })
    ∧ (s.bc.pending = none → runSteps n s = .next s)

/-- A held wait goes on with the rest of its operation in the step in which the oracle completes the action (R131,
R132). That this is step `n + 1` when the oracle completes it at question `n`, one question a step, is the model's
choice (log 3, log 5). -/
def Obligations.AWaitEndsAtCompletion : Prop :=
  ∀ (n : Nat) (s : State) (a : BusAction) (rest : List Micro), s.refused = false → s.work.todo = .wait :: rest →
    s.bc.pending = some a → s.bc.ready = false → (∀ k, k < n → (s.env.answer k).done = false) →
    (s.env.answer n).done = true →
    runSteps (n + 1) s = .next (run rest ({ s with env := s.env.advance n } : State).tick)

/-- `start_transaction` (R134), from any phase: START or repeated START, the address byte, the phase of the direction. A
NACK changes the status alone. -/
def Obligations.StartTransactionCompletes : Prop :=
  ∀ (s : State) (addr : Byte) (dir : Dir), s.sb.held = true → AnswersReady 2 s → addr.toNat < 128 →
    exec (.startTransaction addr dir) s = .next { s with
      hist := s.hist ++ [if s.bc.phase = .idle then .start else .repStart,
        .tx ((addr <<< 1) ||| (if dir = .read then 1 else 0)) (s.env.answer 1).ack]
      bc := { s.bc with
        phase := if dir = .read then .activeR else .activeW
        addr := addr.setWidth 7
        ready := true
        status :=
          if dir = .read then (if (s.env.answer 1).ack then .mrSlaAck else .mrSlaNack)
          else (if (s.env.answer 1).ack then .mtSlaAck else .mtSlaNack)
        data := (addr <<< 1) ||| (if dir = .read then 1 else 0)
        sta := false
        pending := none }
      env := s.env.advance 2
      ret := .unit
      work := .idle }

/-- `write_byte`, `read_ack` and `read_nack` (R135 to R137) in the phase that admits them. -/
def Obligations.ByteTransfersComplete : Prop :=
  ∀ s : State, s.sb.held = true → AnswersReady 1 s →
    (s.bc.phase = .activeW → ∀ b : Byte, exec (.writeByte b) s = .next { s with
      hist := s.hist ++ [.tx b (s.env.answer 0).ack]
      bc := { s.bc with
        data := b, ready := true, sta := false, pending := none
        status := if (s.env.answer 0).ack then .mtDataAck else .mtDataNack }
      env := s.env.advance 1, ret := .unit, work := .idle })
    ∧ (s.bc.phase = .activeR →
      exec .readAck s = .next { s with
        hist := s.hist ++ [.rx (s.env.answer 0).rx true]
        bc := { s.bc with
          data := (s.env.answer 0).rx, ready := true, sta := false, ea := true, pending := none, status := .mrDataAck }
        env := s.env.advance 1, ret := .byte (s.env.answer 0).rx, work := .idle }
      ∧ exec .readNack s = .next { s with
        hist := s.hist ++ [.rx (s.env.answer 0).rx false]
        bc := { s.bc with
          data := (s.env.answer 0).rx, ready := true, sta := false, ea := false, pending := none, status := .mrDataNack }
        env := s.env.advance 1, ret := .byte (s.env.answer 0).rx, work := .idle })

/-- `stop` (R138) in any phase; STO is clear after it (log 8). R143 admits it while another action is pending too: that
action may complete before it and after it (log 5), and stays pending if it does neither (log 23). -/
def Obligations.StopCompletes : Prop :=
  ∀ s : State, s.sb.held = true →
    exec .stop s = .next ((afterStop s.tick).tick.finish .unit)
    ∧ (s.bc.pending = none →
      exec .stop s = .next { s with
        hist := s.hist ++ [.stop], bc.phase := .idle, bc.sto := false, ret := .unit, work := .idle })
    ∧ (∀ a : BusAction, s.bc.pending = some a → (s.env.answer 0).done = false → (s.env.answer 1).done = false →
      exec .stop s = .next { s with
        hist := s.hist ++ [.stop], bc.phase := .idle, bc.sto := false, env := s.env.advance 2, ret := .unit
        work := .idle })

/-- `write_reg` (R139) is its expansion read straight through, and its frame from IDLE is the one of R97; a NACK stops
nothing. -/
def Obligations.WriteRegCompletes : Prop :=
  ∀ (s : State) (addr : Byte) (bytes : List Byte), s.sb.held = true → addr.toNat < 128 →
    AnswersReady (2 + bytes.length) s →
    exec (.writeReg addr bytes) s = .next ((afterWriteReg (addr.setWidth 7) bytes s).finish .unit)
    ∧ (s.bc.phase = .idle →
      (afterWriteReg (addr.setWidth 7) bytes s).hist = s.hist
        ++ [.start, .tx (addr <<< 1) (s.env.answer 1).ack] ++ sentBytes s.env 2 bytes ++ [.stop])

/-- `read_reg` (R140) for n ≥ 1: its expansion, the frame of R97, and the n bytes the oracle gives. -/
def Obligations.ReadRegCompletes : Prop :=
  ∀ (s : State) (addr reg : Byte) (n : Nat), s.sb.held = true → addr.toNat < 128 → AnswersReady (6 + n) s →
    exec (.readReg addr reg (n + 1)) s =
      .next ((afterReadReg (addr.setWidth 7) reg (n + 1) s).finish (.bytes (readRegValue (n + 1) s)))
    ∧ (s.bc.phase = .idle →
      (afterReadReg (addr.setWidth 7) reg (n + 1) s).hist = s.hist
        ++ [.start, .tx (addr <<< 1) (s.env.answer 1).ack, .tx reg (s.env.answer 2).ack,
          .repStart, .tx ((addr <<< 1) ||| 1) (s.env.answer 4).ack]
        ++ ((List.range n).map fun k => .rx (s.env.answer (5 + k)).rx true)
        ++ [.rx (s.env.answer (5 + n)).rx false, .stop])

/-- `ping_device` (R141): the address-only frame; its result is the acknowledge of the address byte, so under a device set
P it is `addr ∈ P` (R145). STO is clear after its STOP (log 8). -/
def Obligations.PingDeviceCompletes : Prop :=
  ∀ (s : State) (addr : Byte), s.sb.held = true → addr.toNat < 128 → AnswersReady 2 s →
    exec (.pingDevice addr) s = .next { s with
      hist := s.hist ++ [if s.bc.phase = .idle then .start else .repStart, .tx (addr <<< 1) (s.env.answer 1).ack, .stop]
      bc := { s.bc with
        phase := .idle, addr := addr.setWidth 7, ready := true, data := addr <<< 1, sta := false, sto := false
        status := if (s.env.answer 1).ack then .mtSlaAck else .mtSlaNack, pending := none }
      env := s.env.advance 2
      ret := .bool (s.env.answer 1).ack
      work := .idle }

/-- `scan_bus` (R142): 127 pings in increasing order, 381 events, and against any device set the true presence map
(R145). -/
def Obligations.ScanBusFindsTheDevices : Prop :=
  ∀ s : State, s.sb.held = true → AnswersReady 254 s →
    exec .scanBus s =
      .next ((afterScan 127 s).finish (.presence ((List.range 127).map fun a => (s.env.answer (2 * a + 1)).ack)))
    ∧ (s.bc.phase = .idle →
      (afterScan 127 s).hist = s.hist ++ (List.range 127).flatMap fun a =>
        [.start, .tx (BitVec.ofNat 8 (2 * a)) (s.env.answer (2 * a + 1)).ack, .stop])
    ∧ (afterScan 127 s).hist.length = s.hist.length + 381
    ∧ ∀ present : Nat → Bool, (∀ a, a < 127 → (s.env.answer (2 * a + 1)).ack = present a) →
      exec .scanBus s = .next ((afterScan 127 s).finish (.presence ((List.range 127).map present)))

/-- R172, R173; `NoToken` before `PhaseError` is log 10: without the token a BusController operation with an admitted operand, and a display operation that
runs inside its caller's acquisition, is refused with `NoToken`. -/
def Obligations.NoTokenIsRefused : Prop :=
  ∀ (s : State) (i : Instr), s.sb.held = false → i.wellFormed = true →
    partOf i = .controller ∨ partOf i = .internal → exec i s = .refused .noToken

/-- R143: the phases and the launches the table refuses. That an operation which launches START, TX or RX at once while an
earlier action has not completed is refused whole, as it is issued, and one that reaches such a launch later (`lcd_init`,
after its first delay) in the step after, is log 12. -/
def Obligations.PhaseErrorIsRefused : Prop :=
  (∀ s : State, s.sb.held = true →
    (s.bc.phase ≠ .activeW → ∀ b : Byte, exec (.writeByte b) s = .refused .phaseError)
    ∧ (s.bc.phase ≠ .activeR → exec .readAck s = .refused .phaseError ∧ exec .readNack s = .refused .phaseError)
    ∧ (s.bc.pending ≠ none →
      (∀ a : BusAction, a ≠ .stop → exec (.launch a) s = .refused .phaseError)
      ∧ (∀ b : Byte, exec (.writeByte b) s = .refused .phaseError)
      ∧ exec .readAck s = .refused .phaseError ∧ exec .readNack s = .refused .phaseError
      ∧ exec .scanBus s = .refused .phaseError
      ∧ ∀ addr : Byte, addr.toNat < 128 →
        (∀ dir : Dir, exec (.startTransaction addr dir) s = .refused .phaseError)
        ∧ (∀ bytes : List Byte, exec (.writeReg addr bytes) s = .refused .phaseError)
        ∧ (∀ (reg : Byte) (n : Nat), exec (.readReg addr reg (n + 1)) s = .refused .phaseError)
        ∧ exec (.pingDevice addr) s = .refused .phaseError)
    ∧ (s.bc.pending ≠ none →
      (∀ b : Byte, exec (.expWrite b) s = .refused .phaseError)
      ∧ exec .expRead s = .refused .phaseError
      ∧ ∀ mode : Mode, exec (.readNibble mode) s = .refused .phaseError
        ∧ ∀ nib : Nibble, exec (.pulseNibble nib mode) s = .refused .phaseError))
  ∧ (∀ s : State, s.sb.held = false → s.bc.pending ≠ none →
    (∀ i ∈ [Instr.commandRead, .displayOn, .displayOff, .cursorOn, .cursorOff, .blinkOn, .blinkOff, .scrollLeft,
      .scrollRight, .leftToRight, .rightToLeft, .autoscroll, .noAutoscroll, .backlight, .noBacklight, .clear, .pwmInit],
      exec i s = .refused .phaseError)
    ∧ (∀ b : Byte, exec (.writeChar b) s = .refused .phaseError ∧ exec (.commandWrite b) s = .refused .phaseError
      ∧ (∀ str : List Byte, exec (.writeStr (b :: str)) s = .refused .phaseError)
      ∧ ∀ mode : Mode, exec (.send b mode) s = .refused .phaseError)
    ∧ (∀ mode : Mode, exec (.receive mode) s = .refused .phaseError)
    ∧ (∀ v : Bit, exec (.setBacklight v) s = .refused .phaseError)
    ∧ (∀ col row : Byte, ddramAddress s.cfg.rowOffset s.lcd.lines col row ≤ 0x7F →
      exec (.setCursor col row) s = .refused .phaseError)
    ∧ (∀ (loc : Byte) (map : List Byte), map.length = 8 → exec (.createChar loc map) s = .refused .phaseError)
    ∧ (∀ (channel : Byte) (on off : Half), channel.toNat ≤ 15 → on.toNat ≤ 0xFFF → off.toNat ≤ 0xFFF →
      exec (.setChannel channel on off) s = .refused .phaseError)
    ∧ ((s.env.answer 0).done = false → (s.env.answer 1).done = false →
      exec .lcdInit s = .next { s with
        hist := s.hist ++ [.delay s.cfg.tPowerOn], sb.held := true, env := s.env.advance 2
        work := { todo := [.refuse .phaseError] } }))
  ∧ ∀ (s : State) (r : Refusal) (rest : List Micro), s.refused = false → s.work.todo = .refuse r :: rest →
    step s = .refused r

/-- R144: an address of 128 or more is refused with `AddrOutOfRange` by every operation that has an `addr` operand, whatever
the state, before `NoToken` and `PhaseError` (R310); a read of no byte is refused before that (R140). -/
def Obligations.AddressOutOfRangeIsRefused : Prop :=
  ∀ (s : State) (addr reg : Byte),
    exec (.readReg addr reg 0) s = .refused .emptyRead
    ∧ (128 ≤ addr.toNat →
      (∀ dir : Dir, exec (.startTransaction addr dir) s = .refused .addrOutOfRange)
      ∧ (∀ bytes : List Byte, exec (.writeReg addr bytes) s = .refused .addrOutOfRange)
      ∧ (∀ n : Nat, exec (.readReg addr reg (n + 1)) s = .refused .addrOutOfRange)
      ∧ exec (.pingDevice addr) s = .refused .addrOutOfRange)

/-- What a BusController operation leaves alone, however far it gets, in the step that issues it and in every step that
goes on with it: the handle, the display, PWM and load-cell state, the divisor and EN; and it emits two-wire events
only. -/
def Obligations.ControllerOperationsFrame : Prop :=
  ∀ (i : Instr) (s u : State) (k : Nat), partOf i = .controller → exec i s = .next u →
    let t := goOn k u
    t.sb = s.sb ∧ t.lcd = s.lcd ∧ t.pwm = s.pwm ∧ t.lc = s.lc ∧ t.cfg = s.cfg ∧ t.cmds = s.cmds
    ∧ t.refused = s.refused ∧ t.bc.div = s.bc.div ∧ t.bc.en = s.bc.en
    ∧ ∃ events : List Event, t.hist = s.hist ++ events ∧ ∀ e ∈ events, e.ofBus = true ∧ ∀ ns, e ≠ .delay ns

/-! ### SharedBusHandle -/

/-- R170, R171: `acquire` takes a free handle and fails on a held one; `release` gives a held one back, in mid-transaction
too, and is refused on a free one. Nothing else changes. -/
def Obligations.HandleOperationsComplete : Prop :=
  ∀ s : State,
    (s.sb.held = false →
      exec .acquire s = .next { s with sb.held := true, ret := .token .token, work := .idle }
      ∧ exec (.release .token) s = .refused .noHolder)
    ∧ (s.sb.held = true →
      exec .acquire s = .next { s with ret := .err .busBusy, work := .idle }
      ∧ exec (.release .token) s = .next { s with sb.held := false, ret := .unit, work := .idle })

/-- R301: every wrapped driver operation issued while the handle is held raises `BusBusy` before any other check, with no
wire event and no state change. -/
def Obligations.DriverOperationWhileHeldRaisesBusBusy : Prop :=
  ∀ (s : State) (i : Instr), s.sb.held = true → partOf i = .driver →
    exec i s = .next { s with ret := .err .busBusy, work := .idle }

/-- A driver operation that holds, in the step that issues it or in one that goes on with it, does so in a bus wait: the
handle stays held, the ready flag is clear and an action is pending (R306, R350). -/
def Obligations.AHeldDriverOperationKeepsTheHandle : Prop :=
  ∀ (s u : State) (i : Instr) (k : Nat), s.sb.held = false → s.bc.pending = none → partOf i = .driver →
    exec i s = .next u →
    let t := goOn k u
    t.work.todo ≠ [] → t.sb.held = true ∧ t.bc.ready = false ∧ t.bc.pending ≠ none

/-! ### DisplayDriver -/

/-- The expander byte (R100, R101), as a number. -/
def Obligations.ExpanderByteLayout : Prop :=
  ∀ (bl : Bit) (nib : Nibble) (mode : Mode) (rw en : Bit),
    (expanderByte bl nib mode rw en).toNat =
      16 * nib.toNat + 8 * bl.toNat + 4 * en.toNat + 2 * rw.toNat + (if mode = .data then 1 else 0)

/-- `exp_write`, `exp_read`, `pulse_nibble` and `read_nibble` (R180, R181, R182, R184) inside their caller's
acquisition. -/
def Obligations.ExpanderOperationsComplete : Prop :=
  ∀ s : State, s.sb.held = true →
    (AnswersReady 3 s → ∀ b : Byte, exec (.expWrite b) s = .next ((afterWriteReg s.lcd.addr [b] s).finish .unit))
    ∧ (AnswersReady 3 s →
      exec .expRead s =
        .next ((afterStop (afterRx false (afterAddress s.lcd.addr .read s))).finish (.byte (s.env.answer 2).rx)))
    ∧ (AnswersReady 6 s → ∀ (nib : Nibble) (mode : Mode),
      exec (.pulseNibble nib mode) s = .next ((afterPulse nib mode s).finish .unit)
      ∧ (s.bc.phase = .idle → (afterPulse nib mode s).hist = s.hist ++ strobe s 0 nib mode))
    ∧ (AnswersReady 9 s → ∀ mode : Mode,
      exec (.readNibble mode) s =
        .next ((afterReadNibble mode s).finish (.nibble ((s.env.answer 5).rx.extractLsb' 4 4)))
      ∧ (s.bc.phase = .idle → (afterReadNibble mode s).hist = s.hist
        ++ writeFrame s.env 0 s.lcd.addr (expanderByte s.lcd.bl 0xF mode true true) ++ [.delay s.cfg.tEnHold]
        ++ [.start, .tx (s.lcd.addr ++ 1#1) (s.env.answer 4).ack, .rx (s.env.answer 5).rx false, .stop]
        ++ writeFrame s.env 6 s.lcd.addr (expanderByte s.lcd.bl 0xF mode true false) ++ [.delay s.cfg.tSettle]))

/-- `send` and `write_char` (R183, R187): two strobes, high nibble first, inside one acquisition. -/
def Obligations.SendCompletes : Prop :=
  ∀ (s : State) (value : Byte), s.sb.held = false → AnswersReady 12 s →
    (∀ mode : Mode,
      exec (.send value mode) s = .next (driverDone (afterSend value mode) .unit s)
      ∧ (s.bc.phase = .idle → (driverDone (afterSend value mode) .unit s).hist =
        s.hist ++ strobe s 0 (value.extractLsb' 4 4) mode ++ strobe s 6 (value.extractLsb' 0 4) mode))
    ∧ exec (.writeChar value) s = .next (driverDone (afterSend value .data) .unit s)

/-- `write_str` (R188): the bytes in order, 20 events each, none for the empty string; the handle is free again. -/
def Obligations.WriteStrCompletes : Prop :=
  ∀ (s : State) (str : List Byte), s.sb.held = false → AnswersReady (12 * str.length) s →
    exec (.writeStr str) s = .next (driverDone (afterSendAll str) .unit s)
    ∧ (driverDone (afterSendAll str) .unit s).hist.length = s.hist.length + 20 * str.length
    ∧ (driverDone (afterSendAll str) .unit s).sb.held = false

/-- `receive` and `command_read` (R185, R189): two nibble reads, the first the high nibble. -/
def Obligations.ReceiveCompletes : Prop :=
  ∀ s : State, s.sb.held = false → AnswersReady 18 s →
    (∀ mode : Mode, exec (.receive mode) s = .next (driverDone (afterReceive mode) (.byte (receiveValue s)) s))
    ∧ exec .commandRead s = .next (driverDone (afterReceive .cmd) (.byte (receiveValue s)) s)
    ∧ (receiveValue s).toNat = 16 * ((s.env.answer 5).rx.toNat / 16) + (s.env.answer 14).rx.toNat / 16
    ∧ ∀ mode : Mode, (driverDone (afterReceive mode) (.byte (receiveValue s)) s).lcd = s.lcd

/-- `command_write` (R191): a command of a shadowed class writes that shadow, any other writes none; the byte is then sent
as a command. The shadow is written whatever the oracle answers, in a run held in a bus wait too. -/
def Obligations.CommandWriteCompletes : Prop :=
  (∀ (s : State) (cmd : Byte), s.sb.held = false → s.bc.pending = none →
    showsThroughout (.commandWrite cmd) s { s.lcd with
      fn := if 0x20 ≤ cmd.toNat ∧ cmd.toNat < 0x40 then cmd else s.lcd.fn
      ctrl := if 0x08 ≤ cmd.toNat ∧ cmd.toNat < 0x10 then cmd else s.lcd.ctrl
      entry := if 0x04 ≤ cmd.toNat ∧ cmd.toNat < 0x08 then cmd else s.lcd.entry })
  ∧ ∀ (s : State) (cmd : Byte), s.sb.held = false → AnswersReady 12 s →
    (0x20 ≤ cmd.toNat ∧ cmd.toNat < 0x40 →
      exec (.commandWrite cmd) s = .next (driverDone (fun t => afterSend cmd .cmd { t with lcd.fn := cmd }) .unit s))
    ∧ (0x08 ≤ cmd.toNat ∧ cmd.toNat < 0x10 →
      exec (.commandWrite cmd) s = .next (driverDone (fun t => afterSend cmd .cmd { t with lcd.ctrl := cmd }) .unit s))
    ∧ (0x04 ≤ cmd.toNat ∧ cmd.toNat < 0x08 →
      exec (.commandWrite cmd) s = .next (driverDone (fun t => afterSend cmd .cmd { t with lcd.entry := cmd }) .unit s))
    ∧ (cmd.toNat < 0x04 ∨ (0x10 ≤ cmd.toNat ∧ cmd.toNat < 0x20) ∨ 0x40 ≤ cmd.toNat →
      exec (.commandWrite cmd) s = .next (driverDone (afterSend cmd .cmd) .unit s))

/-- `set_cursor` (R192): the row clamped to the last line, the command 0x80 plus the DDRAM address; an address above 0x7F is
refused. That a row offset has 8 bits is the model's choice (log 28). -/
def Obligations.SetCursorCompletes : Prop :=
  ∀ (s : State) (col row : Byte) (offset : Byte), s.sb.held = false → 1 ≤ s.lcd.lines ∧ s.lcd.lines ≤ 4 →
    [s.cfg.rowOffset.row0, s.cfg.rowOffset.row1, s.cfg.rowOffset.row2, s.cfg.rowOffset.row3][
      min row.toNat (s.lcd.lines - 1)]? = some offset →
    (col.toNat + offset.toNat ≤ 0x7F → AnswersReady 12 s →
      exec (.setCursor col row) s =
        .next (driverDone (afterSend (BitVec.ofNat 8 (0x80 + (col.toNat + offset.toNat))) .cmd) .unit s))
    ∧ (0x7F < col.toNat + offset.toNat → exec (.setCursor col row) s = .refused .ddramRange)

/-- R193 to R198: a read-modify-write of the display-control shadow, then its byte as a command; on a held handle
`BusBusy` and no write (R173). The shadow is written whatever the oracle answers, in a run held in a bus wait too; when
every action completes the end state is that of the two strobes (R182, R183), with STO clear (log 8). -/
def Obligations.DisplayControlOperationsComplete : Prop :=
  (∀ (s : State) (i : Instr), s.sb.held = true →
    i ∈ [Instr.displayOn, .displayOff, .cursorOn, .cursorOff, .blinkOn, .blinkOff] →
    exec i s = .next { s with ret := .err .busBusy, work := .idle })
  ∧ (∀ s : State, s.sb.held = false → s.bc.pending = none →
    showsThroughout .displayOn s { s.lcd with ctrl := s.lcd.ctrl ||| 0x04 }
    ∧ showsThroughout .displayOff s { s.lcd with ctrl := s.lcd.ctrl &&& ~~~0x04 }
    ∧ showsThroughout .cursorOn s { s.lcd with ctrl := s.lcd.ctrl ||| 0x02 }
    ∧ showsThroughout .cursorOff s { s.lcd with ctrl := s.lcd.ctrl &&& ~~~0x02 }
    ∧ showsThroughout .blinkOn s { s.lcd with ctrl := s.lcd.ctrl ||| 0x01 }
    ∧ showsThroughout .blinkOff s { s.lcd with ctrl := s.lcd.ctrl &&& ~~~0x01 })
  ∧ ∀ s : State, s.sb.held = false → AnswersReady 12 s →
    exec .displayOn s = .next (driverDone (afterShadowCommand .ctrl (s.lcd.ctrl ||| 0x04)) .unit s)
    ∧ exec .displayOff s = .next (driverDone (afterShadowCommand .ctrl (s.lcd.ctrl &&& ~~~0x04)) .unit s)
    ∧ exec .cursorOn s = .next (driverDone (afterShadowCommand .ctrl (s.lcd.ctrl ||| 0x02)) .unit s)
    ∧ exec .cursorOff s = .next (driverDone (afterShadowCommand .ctrl (s.lcd.ctrl &&& ~~~0x02)) .unit s)
    ∧ exec .blinkOn s = .next (driverDone (afterShadowCommand .ctrl (s.lcd.ctrl ||| 0x01)) .unit s)
    ∧ exec .blinkOff s = .next (driverDone (afterShadowCommand .ctrl (s.lcd.ctrl &&& ~~~0x01)) .unit s)

/-- R203, R204, R207, R208: a read-modify-write of the entry-mode shadow, then its byte as a command; on a held handle
`BusBusy` and no write (R173). The shadow is written whatever the oracle answers, in a run held in a bus wait too; when
every action completes the end state is that of the two strobes (R182, R183), with STO clear (log 8). -/
def Obligations.EntryModeOperationsComplete : Prop :=
  (∀ (s : State) (i : Instr), s.sb.held = true → i ∈ [Instr.leftToRight, .rightToLeft, .autoscroll, .noAutoscroll] →
    exec i s = .next { s with ret := .err .busBusy, work := .idle })
  ∧ (∀ s : State, s.sb.held = false → s.bc.pending = none →
    showsThroughout .leftToRight s { s.lcd with entry := s.lcd.entry ||| 0x02 }
    ∧ showsThroughout .rightToLeft s { s.lcd with entry := s.lcd.entry &&& ~~~0x02 }
    ∧ showsThroughout .autoscroll s { s.lcd with entry := s.lcd.entry ||| 0x01 }
    ∧ showsThroughout .noAutoscroll s { s.lcd with entry := s.lcd.entry &&& ~~~0x01 })
  ∧ ∀ s : State, s.sb.held = false → AnswersReady 12 s →
    exec .leftToRight s = .next (driverDone (afterShadowCommand .entry (s.lcd.entry ||| 0x02)) .unit s)
    ∧ exec .rightToLeft s = .next (driverDone (afterShadowCommand .entry (s.lcd.entry &&& ~~~0x02)) .unit s)
    ∧ exec .autoscroll s = .next (driverDone (afterShadowCommand .entry (s.lcd.entry ||| 0x01)) .unit s)
    ∧ exec .noAutoscroll s = .next (driverDone (afterShadowCommand .entry (s.lcd.entry &&& ~~~0x01)) .unit s)

/-- `scroll_left`, `scroll_right` and `clear` (R201, R202, R200): fixed command bytes, no shadow; `clear` waits. -/
def Obligations.ScrollAndClearComplete : Prop :=
  ∀ s : State, s.sb.held = false → AnswersReady 12 s →
    exec .scrollLeft s = .next (driverDone (afterSend 0x18 .cmd) .unit s)
    ∧ exec .scrollRight s = .next (driverDone (afterSend 0x1C .cmd) .unit s)
    ∧ exec .clear s = .next (driverDone (fun t => (afterSend 0x01 .cmd t).delay s.cfg.tClear) .unit s)

/-- `lcd_init` (R199): its sequence read straight through, 126 events, and the three shadows at their initial values.
Whatever the oracle answers, each shadow is written before its command's first event: after 45, 65 and 85 events of the
operation, in a run held in a bus wait too. -/
def Obligations.LcdInitCompletes : Prop :=
  (∀ s : State, s.sb.held = false → s.bc.pending = none → ∃ t : State, exec .lcdInit s = .next t
    ∧ ∀ k : Nat,
      let u := goOn k t
      u.lcd = { s.lcd with
        fn := if s.hist.length + 45 ≤ u.hist.length
          then 0x20 ||| (if 1 < s.lcd.lines then 0x08 else 0) ||| (if s.lcd.font then 0x04 else 0) else s.lcd.fn
        entry := if s.hist.length + 65 ≤ u.hist.length then 0x06 else s.lcd.entry
        ctrl := if s.hist.length + 85 ≤ u.hist.length then 0x0C else s.lcd.ctrl })
  ∧ ∀ s : State, s.sb.held = false → AnswersReady 72 s →
    exec .lcdInit s = .next (driverDone afterLcdInit .unit s)
    ∧ (driverDone afterLcdInit .unit s).hist.length = s.hist.length + 126
    ∧ (driverDone afterLcdInit .unit s).lcd = { s.lcd with
      fn := 0x20 ||| (if 1 < s.lcd.lines then 0x08 else 0) ||| (if s.lcd.font then 0x04 else 0)
      entry := 0x06
      ctrl := 0x0C }

/-- `create_char` (R209): the CGRAM address of character `loc & 7`, then the eight rows as data; a map of any other
length is refused. -/
def Obligations.CreateCharCompletes : Prop :=
  ∀ (s : State) (loc : Byte) (map : List Byte), s.sb.held = false →
    (map.length = 8 → AnswersReady 108 s →
      exec (.createChar loc map) s = .next (driverDone
        (fun t => afterSendAll map (afterSend (BitVec.ofNat 8 (0x40 + 8 * (loc.toNat % 8))) .cmd t)) .unit s))
    ∧ (map.length ≠ 8 → exec (.createChar loc map) s = .refused .mapLength)

/-- `set_backlight`, `backlight` and `no_backlight` (R210, R205, R206): the flag, a read of the port, and the rewrite of the
byte read with bit 3 alone replaced. The flag is written whatever the oracle answers, in a run held in a bus wait too. -/
def Obligations.BacklightOperationsComplete : Prop :=
  (∀ s : State, s.sb.held = false → s.bc.pending = none →
    (∀ v : Bit, showsThroughout (.setBacklight v) s { s.lcd with bl := v })
    ∧ showsThroughout .backlight s { s.lcd with bl := true }
    ∧ showsThroughout .noBacklight s { s.lcd with bl := false })
  ∧ ∀ s : State, s.sb.held = false → AnswersReady 6 s →
    (∀ v : Bit,
      exec (.setBacklight v) s = .next (driverDone
        (fun t => afterExpWrite (((s.env.answer 2).rx &&& 0xF7) ||| (if v then 0x08 else 0))
          (afterExpRead { t with lcd.bl := v })) .unit s))
    ∧ exec .backlight s = .next (driverDone
      (fun t => afterExpWrite ((s.env.answer 2).rx ||| 0x08) (afterExpRead { t with lcd.bl := true })) .unit s)
    ∧ exec .noBacklight s = .next (driverDone
      (fun t => afterExpWrite ((s.env.answer 2).rx &&& 0xF7) (afterExpRead { t with lcd.bl := false })) .unit s)

/-- What a display or PWM operation leaves alone, however far it gets, in the step that issues it and in every step that
goes on with it: the PWM and load-cell state, the expander address, the line count and the font; and it emits no pin
event. -/
def Obligations.DriverOperationsFrame : Prop :=
  ∀ (i : Instr) (s u : State) (k : Nat), partOf i = .driver ∨ partOf i = .internal → exec i s = .next u →
    let t := goOn k u
    t.pwm = s.pwm ∧ t.lc = s.lc ∧ t.cfg = s.cfg ∧ t.cmds = s.cmds ∧ t.refused = s.refused
    ∧ t.lcd.addr = s.lcd.addr ∧ t.lcd.lines = s.lcd.lines ∧ t.lcd.font = s.lcd.font
    ∧ (writesBacklight i = false → t.lcd.bl = s.lcd.bl)
    ∧ ∃ events : List Event, t.hist = s.hist ++ events ∧ ∀ e ∈ events, e.ofBus = true

/-- R35 to R37: an operation the rules do not name leaves a shadow register as it is, however far it gets, in the step
that issues it and in every step that goes on with it. -/
def Obligations.OnlyNamedOperationsWriteAShadow : Prop :=
  ∀ (r : Shadow) (i : Instr) (s t : State) (k : Nat), writesShadow r i = false → exec i s = .next t →
    (goOn k t).shadow r = s.shadow r

/-! ### PwmDriver -/

/-- `pwm_init` (R240): with the address acknowledged, the ping and the two register writes; without, `NoConnection` after the
ping's three events and no register write. The handle is free again in both. STO: log 8. -/
def Obligations.PwmInitCompletes : Prop :=
  ∀ s : State, s.sb.held = false →
    ((s.env.answer 1).ack = true → AnswersReady 10 s →
      exec .pwmInit s = .next (driverDone (fun t => afterPwmSetup (afterPing s.pwm.addr t)) .unit s)
      ∧ (s.bc.phase = .idle → (driverDone (fun t => afterPwmSetup (afterPing s.pwm.addr t)) .unit s).hist = s.hist
        ++ [.start, .tx (s.pwm.addr ++ 0#1) true, .stop]
        ++ [.start, .tx (s.pwm.addr ++ 0#1) (s.env.answer 3).ack]
        ++ sentBytes s.env 4 [BitVec.ofNat 8 s.cfg.pwmRegMode1, BitVec.ofNat 8 s.cfg.pwmMode1Value] ++ [.stop]
        ++ [.start, .tx (s.pwm.addr ++ 0#1) (s.env.answer 7).ack]
        ++ sentBytes s.env 8 [BitVec.ofNat 8 s.cfg.pwmRegPrescale, BitVec.ofNat 8 s.cfg.pwmPrescaleValue] ++ [.stop]))
    ∧ ((s.env.answer 1).ack = false → AnswersReady 2 s →
      exec .pwmInit s = .next { s with
        hist := s.hist ++ [if s.bc.phase = .idle then .start else .repStart, .tx (s.pwm.addr ++ 0#1) false, .stop]
        bc := { s.bc with
          phase := .idle, addr := s.pwm.addr, ready := true, status := .mtSlaNack, data := s.pwm.addr ++ 0#1
          sta := false, sto := false, pending := none }
        env := s.env.advance 2
        ret := .err .noConnection
        work := .idle })

/-- `set_channel` (R241): the register number `base + 4 × channel` and the two counters, low byte first, in one frame. -/
def Obligations.SetChannelCompletes : Prop :=
  ∀ (s : State) (channel : Byte) (on off : Half), s.sb.held = false → channel.toNat ≤ 15 → on.toNat ≤ 0xFFF →
    off.toNat ≤ 0xFFF → AnswersReady 7 s →
    let packet : List Byte :=
      [BitVec.ofNat 8 (s.cfg.pwmLed0Base + 4 * channel.toNat), BitVec.ofNat 8 (on.toNat % 256),
        BitVec.ofNat 8 (on.toNat / 256), BitVec.ofNat 8 (off.toNat % 256), BitVec.ofNat 8 (off.toNat / 256)]
    exec (.setChannel channel on off) s = .next (driverDone (afterWriteReg s.pwm.addr packet) .unit s)
    ∧ (s.bc.phase = .idle → (driverDone (afterWriteReg s.pwm.addr packet) .unit s).hist = s.hist
      ++ [.start, .tx (s.pwm.addr ++ 0#1) (s.env.answer 1).ack] ++ sentBytes s.env 2 packet ++ [.stop])

/-- R241, in the order written: a channel above 15, then a counter above 0xFFF. -/
def Obligations.SetChannelRefusals : Prop :=
  ∀ (s : State) (channel : Byte) (on off : Half), s.sb.held = false →
    (15 < channel.toNat → exec (.setChannel channel on off) s = .refused .channelRange)
    ∧ (channel.toNat ≤ 15 → 0xFFF < on.toNat ∨ 0xFFF < off.toNat →
      exec (.setChannel channel on off) s = .refused .counterRange)

/-! ### LoadCellDriver -/

/-- `clk`, `is_ready`, `power_down`, `power_up` and `lc_pulse` (R260, R261, R270, R271, R273), in every phase. That `clk`
and `lc_pulse` issued by a caller run in every phase, without a token, is log 17 (DEDUCED). -/
def Obligations.PinOperationsComplete : Prop :=
  ∀ s : State, s.bc.pending = none →
    (∀ l : Bit, exec (.clk l) s = .next { s with hist := s.hist ++ [.clk l], lc.clk := l, ret := .unit, work := .idle })
    ∧ exec .isReady s = .next { s with
      hist := s.hist ++ [.dout (s.env.answer 0).level], env := s.env.advance 1
      ret := .bool (!(s.env.answer 0).level), work := .idle }
    ∧ exec .powerDown s = .next { s with
      hist := s.hist ++ [.clk true], lc.clk := true, lc.phase := .poweredDown, ret := .unit, work := .idle }
    ∧ exec .powerUp s = .next { s with
      hist := s.hist ++ [.clk false], lc.clk := false, lc.phase := .idle, ret := .unit, work := .idle }
    ∧ exec .lcPulse s = .next { s with
      hist := s.hist ++ [.clk true, .delay s.cfg.tLcHigh, .clk false, .delay s.cfg.tLcLow]
      lc.clk := false, ret := .unit, work := .idle }

/-- R272: the gain codes of the three physical gains; any other request keeps the code. In every state, with no
event. -/
def Obligations.SetGainCompletes : Prop :=
  ∀ (s : State) (gain : Byte),
    exec (.setGain gain) s = .next { s with
      lc.gain := if gain.toNat = 128 then 1 else if gain.toNat = 64 then 3 else if gain.toNat = 32 then 2 else s.lc.gain
      ret := .unit, work := .idle }

/-- `wait_ready` (R262): a line that is low at the first poll ends it at once; after any number of polls that find the
line high, each with its delay, the poll that finds it low ends it. That the command port holds 0x51 and the operand's
bytes, and that each poll is one step, is the model's choice (log 1, log 2, log 3). -/
def Obligations.WaitReadyPollsUntilReady : Prop :=
  (∀ (s : State) (delayMs : Word), s.bc.pending = none → (s.env.answer 0).level = false →
    exec (.waitReady delayMs) s = .next { s with
      hist := s.hist ++ [.dout false], env := s.env.advance 1, ret := .unit, work := .idle })
  ∧ ∀ (k : Nat) (s : State) (delayMs : Word), s.refused = false → s.bc.pending = none → s.work = .idle →
    s.cmds = 0x51 :: wordBytes delayMs →
    (∀ j, j < k → (s.env.answer j).level = true) → (s.env.answer k).level = false →
    runSteps (k + 1) s = .next { s with
      cmds := []
      hist := s.hist ++ (List.replicate k [.dout true, .delay (delayMs.toNat * 1000000)]).flatten ++ [.dout false]
      env := s.env.advance (k + 1)
      ret := .unit }

/-- `wait_ready_retry` (R263): true at the first poll that finds the line low; false after exactly `retries` polls and
delays. -/
def Obligations.WaitReadyRetryCompletes : Prop :=
  ∀ (s : State) (retries delayMs : Word), s.bc.pending = none →
    (∀ k, k < retries.toNat → (∀ j, j < k → (s.env.answer j).level = true) → (s.env.answer k).level = false →
      exec (.waitReadyRetry retries delayMs) s = .next { s with
        hist := s.hist ++ (List.replicate k [.dout true, .delay (delayMs.toNat * 1000000)]).flatten ++ [.dout false]
        env := s.env.advance (k + 1), ret := .bool true, work := .idle })
    ∧ ((∀ j, j < retries.toNat → (s.env.answer j).level = true) →
      exec (.waitReadyRetry retries delayMs) s = .next { s with
        hist := s.hist
          ++ (List.replicate retries.toNat [.dout true, .delay (delayMs.toNat * 1000000)]).flatten
        env := s.env.advance retries.toNat, ret := .bool false, work := .idle })

/-- `shift_in_byte` (R265): eight sampled bits, the first bit 7 of the byte. That it runs in every phase, without a token,
and leaves SHIFTING behind is log 17 (DEDUCED). -/
def Obligations.ShiftInByteCompletes : Prop :=
  ∀ (s : State) (base : ShiftBase), s.bc.pending = none → ∃ v : Byte,
    (∀ j, j < 8 → v.getLsbD (7 - j) = (s.env.answer j).level)
    ∧ exec (.shiftInByte base) s = .next { s with
      hist := s.hist ++ (levelsAt s.env 0 8).flatMap (bitGroup s.cfg)
      lc.clk := false, lc.phase := .shifting (base.toNat + 7), env := s.env.advance 8, ret := .byte v, work := .idle }

/-- `read` (R264) when the line is low at the poll: the poll, 24 bits, the trailing pulses of the gain code, and the sample
sign-extended from 24 bits. -/
def Obligations.ReadCompletes : Prop :=
  ∀ s : State, s.lc.phase ≠ .poweredDown → s.bc.pending = none → (s.env.answer 0).level = false →
    ∃ v : Word,
      (v.toInt = if rawNumber (levelsAt s.env 1 24) < 2 ^ 23 then (rawNumber (levelsAt s.env 1 24) : Int)
        else (rawNumber (levelsAt s.env 1 24) : Int) - 2 ^ 24)
      ∧ exec .read s = .next { s with
        hist := s.hist ++ [.dout false] ++ (levelsAt s.env 1 24).flatMap (bitGroup s.cfg)
          ++ (List.replicate s.lc.gain (pulseGroup s.cfg)).flatten
        lc.clk := false, lc.phase := .idle, env := s.env.advance 25, ret := .i32 v, work := .idle }

/-- A `read` whose line is high at first (R264, R262) polls in the same way, then reads as above: it is no error and
nothing is lost. That the command port holds 0x53, and that each poll is one step, is the model's choice (log 1, log 2,
log 3). -/
def Obligations.ReadPollsUntilReady : Prop :=
  ∀ (k : Nat) (s : State), s.refused = false → s.lc.phase ≠ .poweredDown → s.bc.pending = none → s.work = .idle →
    s.cmds = [0x53] → (∀ j, j < k → (s.env.answer j).level = true) → (s.env.answer k).level = false →
    runSteps (k + 1) s = .next { s with
      cmds := []
      hist := s.hist ++ (List.replicate k [.dout true, .delay (s.cfg.tReadyPoll * 1000000)]).flatten ++ [.dout false]
        ++ (levelsAt s.env (k + 1) 24).flatMap (bitGroup s.cfg)
        ++ (List.replicate s.lc.gain (pulseGroup s.cfg)).flatten
      lc.clk := false
      lc.phase := .idle
      env := s.env.advance (k + 25)
      ret := .i32 (readValue s.env k) }

/-- `read_average`, `tare`, `get_value` and `get_units` (R266 to R269) over reads that find the line low: the exact sum
over the count, truncated toward zero; nothing overflows. -/
def Obligations.AveragingOperationsComplete : Prop :=
  ∀ (s : State) (count : Byte), count.toNat ≠ 0 → s.lc.phase ≠ .poweredDown → s.bc.pending = none →
    readsReady s.env count.toNat →
    let t := afterReads count.toNat s
    let mean := averageValue s.env count.toNat
    ∃ m : Word, m.toInt = mean
      ∧ exec (.readAverage count) s = .next (t.finish (.i32 m))
      ∧ exec (.tare count) s = .next (({ t with lc.offset := m }).finish .unit)
      ∧ exec (.getUnits count) s =
        .next (t.finish (.rational (((mean - s.lc.offset.toInt : Int) : Rat) / s.lc.scale)))
      ∧ (sampleRange s.lc.offset → ∃ v : Word, v.toInt = mean - s.lc.offset.toInt
        ∧ exec (.getValue count) s = .next (t.finish (.i32 v)))

/-- A tare followed by a reading of the same samples gives 0 (R268). -/
def Obligations.TareThenGetValueIsZero : Prop :=
  ∀ (s t u : State) (count : Byte), s.bc.pending = none → readsReady s.env count.toNat →
    readsReady t.env count.toNat → readValues t.env count.toNat = readValues s.env count.toNat →
    exec (.tare count) s = .next t → exec (.getValue count) t = .next u → u.ret = .i32 0

/-- `read` and the operations built on it are refused in POWERED_DOWN (R264), a count of 0 first of all (R266, log 18). -/
def Obligations.LoadCellRefusals : Prop :=
  ∀ s : State,
    (exec (.readAverage 0) s = .refused .zeroCount ∧ exec (.tare 0) s = .refused .zeroCount
      ∧ exec (.getValue 0) s = .refused .zeroCount ∧ exec (.getUnits 0) s = .refused .zeroCount)
    ∧ (s.lc.phase = .poweredDown → exec .read s = .refused .poweredDown
      ∧ ∀ count : Byte, count ≠ 0 →
        exec (.readAverage count) s = .refused .poweredDown ∧ exec (.tare count) s = .refused .poweredDown
        ∧ exec (.getValue count) s = .refused .poweredDown ∧ exec (.getUnits count) s = .refused .poweredDown)

/-- What a load-cell operation leaves alone, however far it gets, in the step that issues it and in every step that goes
on with it: the handle, the display and PWM state, the scale; the gain code unless it is `set_gain`, the offset unless
it is `tare`; and with no bus action pending, the bus: it emits pin events only. -/
def Obligations.LoadCellOperationsFrame : Prop :=
  ∀ (i : Instr) (s u : State) (k : Nat), partOf i = .loadCell → exec i s = .next u →
    let t := goOn k u
    t.sb = s.sb ∧ t.lcd = s.lcd ∧ t.pwm = s.pwm ∧ t.cfg = s.cfg ∧ t.cmds = s.cmds ∧ t.refused = s.refused
    ∧ t.lc.scale = s.lc.scale
    ∧ ((∀ gain, i ≠ .setGain gain) → t.lc.gain = s.lc.gain)
    ∧ ((∀ count, i ≠ .tare count) → t.lc.offset = s.lc.offset)
    ∧ (s.bc.pending = none →
      t.bc = s.bc ∧ ∃ events : List Event, t.hist = s.hist ++ events ∧ ∀ e ∈ events, e.ofPins = true)
end

