-- ==== Sys2Proof/Laws/State.lean ====
section
/-! SUPPORT. One lemma per field per update of the state, true by unfolding, so that no later proof unfolds a record
update; for the updates that branch, the fields no branch touches. -/

namespace Sys2Proof.Machine

@[simp] theorem State.emit_hist (e : Event) (s : State) : (s.emit e).hist = s.hist ++ [e] := rfl
@[simp] theorem State.emit_refused (e : Event) (s : State) : (s.emit e).refused = s.refused := rfl
@[simp] theorem State.emit_bc (e : Event) (s : State) : (s.emit e).bc = s.bc := rfl
@[simp] theorem State.emit_sb (e : Event) (s : State) : (s.emit e).sb = s.sb := rfl
@[simp] theorem State.emit_lcd (e : Event) (s : State) : (s.emit e).lcd = s.lcd := rfl
@[simp] theorem State.emit_pwm (e : Event) (s : State) : (s.emit e).pwm = s.pwm := rfl
@[simp] theorem State.emit_lc (e : Event) (s : State) : (s.emit e).lc = s.lc := rfl
@[simp] theorem State.emit_cfg (e : Event) (s : State) : (s.emit e).cfg = s.cfg := rfl
@[simp] theorem State.emit_work (e : Event) (s : State) : (s.emit e).work = s.work := rfl
@[simp] theorem State.emit_ret (e : Event) (s : State) : (s.emit e).ret = s.ret := rfl
@[simp] theorem State.emit_env (e : Event) (s : State) : (s.emit e).env = s.env := rfl
@[simp] theorem State.emit_cmds (e : Event) (s : State) : (s.emit e).cmds = s.cmds := rfl

@[simp] theorem State.delay_hist (ns : Nat) (s : State) : (s.delay ns).hist = s.hist ++ [.delay ns] := rfl
@[simp] theorem State.delay_refused (ns : Nat) (s : State) : (s.delay ns).refused = s.refused := rfl
@[simp] theorem State.delay_bc (ns : Nat) (s : State) : (s.delay ns).bc = s.bc := rfl
@[simp] theorem State.delay_sb (ns : Nat) (s : State) : (s.delay ns).sb = s.sb := rfl
@[simp] theorem State.delay_lcd (ns : Nat) (s : State) : (s.delay ns).lcd = s.lcd := rfl
@[simp] theorem State.delay_pwm (ns : Nat) (s : State) : (s.delay ns).pwm = s.pwm := rfl
@[simp] theorem State.delay_lc (ns : Nat) (s : State) : (s.delay ns).lc = s.lc := rfl
@[simp] theorem State.delay_cfg (ns : Nat) (s : State) : (s.delay ns).cfg = s.cfg := rfl
@[simp] theorem State.delay_work (ns : Nat) (s : State) : (s.delay ns).work = s.work := rfl
@[simp] theorem State.delay_ret (ns : Nat) (s : State) : (s.delay ns).ret = s.ret := rfl
@[simp] theorem State.delay_env (ns : Nat) (s : State) : (s.delay ns).env = s.env := rfl
@[simp] theorem State.delay_cmds (ns : Nat) (s : State) : (s.delay ns).cmds = s.cmds := rfl

@[simp] theorem State.driveClk_hist (l : Bit) (s : State) : (s.driveClk l).hist = s.hist ++ [.clk l] := rfl
@[simp] theorem State.driveClk_refused (l : Bit) (s : State) : (s.driveClk l).refused = s.refused := rfl
@[simp] theorem State.driveClk_bc (l : Bit) (s : State) : (s.driveClk l).bc = s.bc := rfl
@[simp] theorem State.driveClk_sb (l : Bit) (s : State) : (s.driveClk l).sb = s.sb := rfl
@[simp] theorem State.driveClk_lcd (l : Bit) (s : State) : (s.driveClk l).lcd = s.lcd := rfl
@[simp] theorem State.driveClk_pwm (l : Bit) (s : State) : (s.driveClk l).pwm = s.pwm := rfl
@[simp] theorem State.driveClk_lc (l : Bit) (s : State) : (s.driveClk l).lc = { s.lc with clk := l } := rfl
@[simp] theorem State.driveClk_cfg (l : Bit) (s : State) : (s.driveClk l).cfg = s.cfg := rfl
@[simp] theorem State.driveClk_work (l : Bit) (s : State) : (s.driveClk l).work = s.work := rfl
@[simp] theorem State.driveClk_ret (l : Bit) (s : State) : (s.driveClk l).ret = s.ret := rfl
@[simp] theorem State.driveClk_env (l : Bit) (s : State) : (s.driveClk l).env = s.env := rfl
@[simp] theorem State.driveClk_cmds (l : Bit) (s : State) : (s.driveClk l).cmds = s.cmds := rfl

@[simp] theorem State.asked_hist (s : State) : (s.asked).hist = s.hist := rfl
@[simp] theorem State.asked_refused (s : State) : (s.asked).refused = s.refused := rfl
@[simp] theorem State.asked_bc (s : State) : (s.asked).bc = s.bc := rfl
@[simp] theorem State.asked_sb (s : State) : (s.asked).sb = s.sb := rfl
@[simp] theorem State.asked_lcd (s : State) : (s.asked).lcd = s.lcd := rfl
@[simp] theorem State.asked_pwm (s : State) : (s.asked).pwm = s.pwm := rfl
@[simp] theorem State.asked_lc (s : State) : (s.asked).lc = s.lc := rfl
@[simp] theorem State.asked_cfg (s : State) : (s.asked).cfg = s.cfg := rfl
@[simp] theorem State.asked_work (s : State) : (s.asked).work = s.work := rfl
@[simp] theorem State.asked_ret (s : State) : (s.asked).ret = s.ret := rfl
@[simp] theorem State.asked_env (s : State) : (s.asked).env = s.env.advance 1 := rfl
@[simp] theorem State.asked_cmds (s : State) : (s.asked).cmds = s.cmds := rfl

@[simp] theorem State.sampled_hist (s : State) : (s.sampled).hist = s.hist ++ [.dout s.level] := rfl
@[simp] theorem State.sampled_refused (s : State) : (s.sampled).refused = s.refused := rfl
@[simp] theorem State.sampled_bc (s : State) : (s.sampled).bc = s.bc := rfl
@[simp] theorem State.sampled_sb (s : State) : (s.sampled).sb = s.sb := rfl
@[simp] theorem State.sampled_lcd (s : State) : (s.sampled).lcd = s.lcd := rfl
@[simp] theorem State.sampled_pwm (s : State) : (s.sampled).pwm = s.pwm := rfl
@[simp] theorem State.sampled_lc (s : State) : (s.sampled).lc = s.lc := rfl
@[simp] theorem State.sampled_cfg (s : State) : (s.sampled).cfg = s.cfg := rfl
@[simp] theorem State.sampled_work (s : State) : (s.sampled).work = s.work := rfl
@[simp] theorem State.sampled_ret (s : State) : (s.sampled).ret = s.ret := rfl
@[simp] theorem State.sampled_env (s : State) : (s.sampled).env = s.env.advance 1 := rfl
@[simp] theorem State.sampled_cmds (s : State) : (s.sampled).cmds = s.cmds := rfl

@[simp] theorem State.ready_hist (s : State) : (s.ready).hist = s.hist := rfl
@[simp] theorem State.ready_refused (s : State) : (s.ready).refused = s.refused := rfl
@[simp] theorem State.ready_bc (s : State) : (s.ready).bc = { s.bc with sta := false, ready := true, pending := none } := rfl
@[simp] theorem State.ready_sb (s : State) : (s.ready).sb = s.sb := rfl
@[simp] theorem State.ready_lcd (s : State) : (s.ready).lcd = s.lcd := rfl
@[simp] theorem State.ready_pwm (s : State) : (s.ready).pwm = s.pwm := rfl
@[simp] theorem State.ready_lc (s : State) : (s.ready).lc = s.lc := rfl
@[simp] theorem State.ready_cfg (s : State) : (s.ready).cfg = s.cfg := rfl
@[simp] theorem State.ready_work (s : State) : (s.ready).work = s.work := rfl
@[simp] theorem State.ready_ret (s : State) : (s.ready).ret = s.ret := rfl
@[simp] theorem State.ready_env (s : State) : (s.ready).env = s.env := rfl
@[simp] theorem State.ready_cmds (s : State) : (s.ready).cmds = s.cmds := rfl

@[simp] theorem State.hold_hist (s : State) : (s.hold).hist = s.hist := rfl
@[simp] theorem State.hold_refused (s : State) : (s.hold).refused = s.refused := rfl
@[simp] theorem State.hold_bc (s : State) : (s.hold).bc = s.bc := rfl
@[simp] theorem State.hold_sb (s : State) : (s.hold).sb = { held := true } := rfl
@[simp] theorem State.hold_lcd (s : State) : (s.hold).lcd = s.lcd := rfl
@[simp] theorem State.hold_pwm (s : State) : (s.hold).pwm = s.pwm := rfl
@[simp] theorem State.hold_lc (s : State) : (s.hold).lc = s.lc := rfl
@[simp] theorem State.hold_cfg (s : State) : (s.hold).cfg = s.cfg := rfl
@[simp] theorem State.hold_work (s : State) : (s.hold).work = s.work := rfl
@[simp] theorem State.hold_ret (s : State) : (s.hold).ret = s.ret := rfl
@[simp] theorem State.hold_env (s : State) : (s.hold).env = s.env := rfl
@[simp] theorem State.hold_cmds (s : State) : (s.hold).cmds = s.cmds := rfl

@[simp] theorem State.unhold_hist (s : State) : (s.unhold).hist = s.hist := rfl
@[simp] theorem State.unhold_refused (s : State) : (s.unhold).refused = s.refused := rfl
@[simp] theorem State.unhold_bc (s : State) : (s.unhold).bc = s.bc := rfl
@[simp] theorem State.unhold_sb (s : State) : (s.unhold).sb = { held := false } := rfl
@[simp] theorem State.unhold_lcd (s : State) : (s.unhold).lcd = s.lcd := rfl
@[simp] theorem State.unhold_pwm (s : State) : (s.unhold).pwm = s.pwm := rfl
@[simp] theorem State.unhold_lc (s : State) : (s.unhold).lc = s.lc := rfl
@[simp] theorem State.unhold_cfg (s : State) : (s.unhold).cfg = s.cfg := rfl
@[simp] theorem State.unhold_work (s : State) : (s.unhold).work = s.work := rfl
@[simp] theorem State.unhold_ret (s : State) : (s.unhold).ret = s.ret := rfl
@[simp] theorem State.unhold_env (s : State) : (s.unhold).env = s.env := rfl
@[simp] theorem State.unhold_cmds (s : State) : (s.unhold).cmds = s.cmds := rfl

@[simp] theorem State.finish_hist (r : Result) (s : State) : (s.finish r).hist = s.hist := rfl
@[simp] theorem State.finish_refused (r : Result) (s : State) : (s.finish r).refused = s.refused := rfl
@[simp] theorem State.finish_bc (r : Result) (s : State) : (s.finish r).bc = s.bc := rfl
@[simp] theorem State.finish_sb (r : Result) (s : State) : (s.finish r).sb = s.sb := rfl
@[simp] theorem State.finish_lcd (r : Result) (s : State) : (s.finish r).lcd = s.lcd := rfl
@[simp] theorem State.finish_pwm (r : Result) (s : State) : (s.finish r).pwm = s.pwm := rfl
@[simp] theorem State.finish_lc (r : Result) (s : State) : (s.finish r).lc = s.lc := rfl
@[simp] theorem State.finish_cfg (r : Result) (s : State) : (s.finish r).cfg = s.cfg := rfl
@[simp] theorem State.finish_work (r : Result) (s : State) : (s.finish r).work = .idle := rfl
@[simp] theorem State.finish_ret (r : Result) (s : State) : (s.finish r).ret = r := rfl
@[simp] theorem State.finish_env (r : Result) (s : State) : (s.finish r).env = s.env := rfl
@[simp] theorem State.finish_cmds (r : Result) (s : State) : (s.finish r).cmds = s.cmds := rfl

@[simp] theorem State.raise_hist (e : ErrorKind) (s : State) : (s.raise e).hist = s.hist := rfl
@[simp] theorem State.raise_refused (e : ErrorKind) (s : State) : (s.raise e).refused = s.refused := rfl
@[simp] theorem State.raise_bc (e : ErrorKind) (s : State) : (s.raise e).bc = s.bc := rfl
@[simp] theorem State.raise_sb (e : ErrorKind) (s : State) : (s.raise e).sb = s.sb := rfl
@[simp] theorem State.raise_lcd (e : ErrorKind) (s : State) : (s.raise e).lcd = s.lcd := rfl
@[simp] theorem State.raise_pwm (e : ErrorKind) (s : State) : (s.raise e).pwm = s.pwm := rfl
@[simp] theorem State.raise_lc (e : ErrorKind) (s : State) : (s.raise e).lc = s.lc := rfl
@[simp] theorem State.raise_cfg (e : ErrorKind) (s : State) : (s.raise e).cfg = s.cfg := rfl
@[simp] theorem State.raise_work (e : ErrorKind) (s : State) : (s.raise e).work = .idle := rfl
@[simp] theorem State.raise_ret (e : ErrorKind) (s : State) : (s.raise e).ret = .err e := rfl
@[simp] theorem State.raise_env (e : ErrorKind) (s : State) : (s.raise e).env = s.env := rfl
@[simp] theorem State.raise_cmds (e : ErrorKind) (s : State) : (s.raise e).cmds = s.cmds := rfl

@[simp] theorem State.recordRefusal_hist (s : State) : (s.recordRefusal).hist = s.hist := rfl
@[simp] theorem State.recordRefusal_refused (s : State) : (s.recordRefusal).refused = true := rfl
@[simp] theorem State.recordRefusal_bc (s : State) : (s.recordRefusal).bc = s.bc := rfl
@[simp] theorem State.recordRefusal_sb (s : State) : (s.recordRefusal).sb = s.sb := rfl
@[simp] theorem State.recordRefusal_lcd (s : State) : (s.recordRefusal).lcd = s.lcd := rfl
@[simp] theorem State.recordRefusal_pwm (s : State) : (s.recordRefusal).pwm = s.pwm := rfl
@[simp] theorem State.recordRefusal_lc (s : State) : (s.recordRefusal).lc = s.lc := rfl
@[simp] theorem State.recordRefusal_cfg (s : State) : (s.recordRefusal).cfg = s.cfg := rfl
@[simp] theorem State.recordRefusal_work (s : State) : (s.recordRefusal).work = s.work := rfl
@[simp] theorem State.recordRefusal_ret (s : State) : (s.recordRefusal).ret = s.ret := rfl
@[simp] theorem State.recordRefusal_env (s : State) : (s.recordRefusal).env = s.env := rfl
@[simp] theorem State.recordRefusal_cmds (s : State) : (s.recordRefusal).cmds = s.cmds := rfl

@[simp] theorem State.takeByte_hist (b : Byte) (s : State) : (s.takeByte b).hist = s.hist := rfl
@[simp] theorem State.takeByte_refused (b : Byte) (s : State) : (s.takeByte b).refused = s.refused := rfl
@[simp] theorem State.takeByte_bc (b : Byte) (s : State) : (s.takeByte b).bc = s.bc := rfl
@[simp] theorem State.takeByte_sb (b : Byte) (s : State) : (s.takeByte b).sb = s.sb := rfl
@[simp] theorem State.takeByte_lcd (b : Byte) (s : State) : (s.takeByte b).lcd = s.lcd := rfl
@[simp] theorem State.takeByte_pwm (b : Byte) (s : State) : (s.takeByte b).pwm = s.pwm := rfl
@[simp] theorem State.takeByte_lc (b : Byte) (s : State) : (s.takeByte b).lc = s.lc := rfl
@[simp] theorem State.takeByte_cfg (b : Byte) (s : State) : (s.takeByte b).cfg = s.cfg := rfl
@[simp] theorem State.takeByte_work (b : Byte) (s : State) : (s.takeByte b).work = { s.work with bytes := s.work.bytes ++ [b] } := rfl
@[simp] theorem State.takeByte_ret (b : Byte) (s : State) : (s.takeByte b).ret = s.ret := rfl
@[simp] theorem State.takeByte_env (b : Byte) (s : State) : (s.takeByte b).env = s.env := rfl
@[simp] theorem State.takeByte_cmds (b : Byte) (s : State) : (s.takeByte b).cmds = s.cmds := rfl

@[simp] theorem State.takeFlag_hist (b : Bool) (s : State) : (s.takeFlag b).hist = s.hist := rfl
@[simp] theorem State.takeFlag_refused (b : Bool) (s : State) : (s.takeFlag b).refused = s.refused := rfl
@[simp] theorem State.takeFlag_bc (b : Bool) (s : State) : (s.takeFlag b).bc = s.bc := rfl
@[simp] theorem State.takeFlag_sb (b : Bool) (s : State) : (s.takeFlag b).sb = s.sb := rfl
@[simp] theorem State.takeFlag_lcd (b : Bool) (s : State) : (s.takeFlag b).lcd = s.lcd := rfl
@[simp] theorem State.takeFlag_pwm (b : Bool) (s : State) : (s.takeFlag b).pwm = s.pwm := rfl
@[simp] theorem State.takeFlag_lc (b : Bool) (s : State) : (s.takeFlag b).lc = s.lc := rfl
@[simp] theorem State.takeFlag_cfg (b : Bool) (s : State) : (s.takeFlag b).cfg = s.cfg := rfl
@[simp] theorem State.takeFlag_work (b : Bool) (s : State) : (s.takeFlag b).work = { s.work with flags := s.work.flags ++ [b] } := rfl
@[simp] theorem State.takeFlag_ret (b : Bool) (s : State) : (s.takeFlag b).ret = s.ret := rfl
@[simp] theorem State.takeFlag_env (b : Bool) (s : State) : (s.takeFlag b).env = s.env := rfl
@[simp] theorem State.takeFlag_cmds (b : Bool) (s : State) : (s.takeFlag b).cmds = s.cmds := rfl

@[simp] theorem State.takeBit_hist (b : Bit) (s : State) : (s.takeBit b).hist = s.hist := rfl
@[simp] theorem State.takeBit_refused (b : Bit) (s : State) : (s.takeBit b).refused = s.refused := rfl
@[simp] theorem State.takeBit_bc (b : Bit) (s : State) : (s.takeBit b).bc = s.bc := rfl
@[simp] theorem State.takeBit_sb (b : Bit) (s : State) : (s.takeBit b).sb = s.sb := rfl
@[simp] theorem State.takeBit_lcd (b : Bit) (s : State) : (s.takeBit b).lcd = s.lcd := rfl
@[simp] theorem State.takeBit_pwm (b : Bit) (s : State) : (s.takeBit b).pwm = s.pwm := rfl
@[simp] theorem State.takeBit_lc (b : Bit) (s : State) : (s.takeBit b).lc = s.lc := rfl
@[simp] theorem State.takeBit_cfg (b : Bit) (s : State) : (s.takeBit b).cfg = s.cfg := rfl
@[simp] theorem State.takeBit_work (b : Bit) (s : State) : (s.takeBit b).work = { s.work with bits := s.work.bits ++ [b] } := rfl
@[simp] theorem State.takeBit_ret (b : Bit) (s : State) : (s.takeBit b).ret = s.ret := rfl
@[simp] theorem State.takeBit_env (b : Bit) (s : State) : (s.takeBit b).env = s.env := rfl
@[simp] theorem State.takeBit_cmds (b : Bit) (s : State) : (s.takeBit b).cmds = s.cmds := rfl

@[simp] theorem afterStart_hist (s : State) : (afterStart s).hist = s.hist ++ [startEvent s.bc.phase] := rfl
@[simp] theorem afterStart_refused (s : State) : (afterStart s).refused = s.refused := rfl
@[simp] theorem afterStart_bc (s : State) : (afterStart s).bc = { s.bc with phase := .started, status := startStatus s.bc.phase, ready := true, sta := false, pending := none } := rfl
@[simp] theorem afterStart_sb (s : State) : (afterStart s).sb = s.sb := rfl
@[simp] theorem afterStart_lcd (s : State) : (afterStart s).lcd = s.lcd := rfl
@[simp] theorem afterStart_pwm (s : State) : (afterStart s).pwm = s.pwm := rfl
@[simp] theorem afterStart_lc (s : State) : (afterStart s).lc = s.lc := rfl
@[simp] theorem afterStart_cfg (s : State) : (afterStart s).cfg = s.cfg := rfl
@[simp] theorem afterStart_work (s : State) : (afterStart s).work = s.work := rfl
@[simp] theorem afterStart_ret (s : State) : (afterStart s).ret = s.ret := rfl
@[simp] theorem afterStart_env (s : State) : (afterStart s).env = s.env.advance 1 := rfl
@[simp] theorem afterStart_cmds (s : State) : (afterStart s).cmds = s.cmds := rfl

@[simp] theorem afterTx_hist (b : Byte) (s : State) : (afterTx b s).hist = s.hist ++ [.tx b (s.env.answer 0).ack] := rfl
@[simp] theorem afterTx_refused (b : Byte) (s : State) : (afterTx b s).refused = s.refused := rfl
@[simp] theorem afterTx_bc (b : Byte) (s : State) : (afterTx b s).bc = { s.bc with data := b, status := txStatus s.bc.phase b (s.env.answer 0).ack, ready := true, sta := false, pending := none } := rfl
@[simp] theorem afterTx_sb (b : Byte) (s : State) : (afterTx b s).sb = s.sb := rfl
@[simp] theorem afterTx_lcd (b : Byte) (s : State) : (afterTx b s).lcd = s.lcd := rfl
@[simp] theorem afterTx_pwm (b : Byte) (s : State) : (afterTx b s).pwm = s.pwm := rfl
@[simp] theorem afterTx_lc (b : Byte) (s : State) : (afterTx b s).lc = s.lc := rfl
@[simp] theorem afterTx_cfg (b : Byte) (s : State) : (afterTx b s).cfg = s.cfg := rfl
@[simp] theorem afterTx_work (b : Byte) (s : State) : (afterTx b s).work = s.work := rfl
@[simp] theorem afterTx_ret (b : Byte) (s : State) : (afterTx b s).ret = s.ret := rfl
@[simp] theorem afterTx_env (b : Byte) (s : State) : (afterTx b s).env = s.env.advance 1 := rfl
@[simp] theorem afterTx_cmds (b : Byte) (s : State) : (afterTx b s).cmds = s.cmds := rfl

@[simp] theorem afterRx_hist (m : Bit) (s : State) : (afterRx m s).hist = s.hist ++ [.rx (s.env.answer 0).rx m] := rfl
@[simp] theorem afterRx_refused (m : Bit) (s : State) : (afterRx m s).refused = s.refused := rfl
@[simp] theorem afterRx_bc (m : Bit) (s : State) : (afterRx m s).bc = { s.bc with data := (s.env.answer 0).rx, status := rxStatus m, ea := m, ready := true, sta := false, pending := none } := rfl
@[simp] theorem afterRx_sb (m : Bit) (s : State) : (afterRx m s).sb = s.sb := rfl
@[simp] theorem afterRx_lcd (m : Bit) (s : State) : (afterRx m s).lcd = s.lcd := rfl
@[simp] theorem afterRx_pwm (m : Bit) (s : State) : (afterRx m s).pwm = s.pwm := rfl
@[simp] theorem afterRx_lc (m : Bit) (s : State) : (afterRx m s).lc = s.lc := rfl
@[simp] theorem afterRx_cfg (m : Bit) (s : State) : (afterRx m s).cfg = s.cfg := rfl
@[simp] theorem afterRx_work (m : Bit) (s : State) : (afterRx m s).work = s.work := rfl
@[simp] theorem afterRx_ret (m : Bit) (s : State) : (afterRx m s).ret = s.ret := rfl
@[simp] theorem afterRx_env (m : Bit) (s : State) : (afterRx m s).env = s.env.advance 1 := rfl
@[simp] theorem afterRx_cmds (m : Bit) (s : State) : (afterRx m s).cmds = s.cmds := rfl

@[simp] theorem afterStop_hist (s : State) : (afterStop s).hist = s.hist ++ [.stop] := rfl
@[simp] theorem afterStop_refused (s : State) : (afterStop s).refused = s.refused := rfl
@[simp] theorem afterStop_bc (s : State) : (afterStop s).bc = { s.bc with phase := .idle, sto := false } := rfl
@[simp] theorem afterStop_sb (s : State) : (afterStop s).sb = s.sb := rfl
@[simp] theorem afterStop_lcd (s : State) : (afterStop s).lcd = s.lcd := rfl
@[simp] theorem afterStop_pwm (s : State) : (afterStop s).pwm = s.pwm := rfl
@[simp] theorem afterStop_lc (s : State) : (afterStop s).lc = s.lc := rfl
@[simp] theorem afterStop_cfg (s : State) : (afterStop s).cfg = s.cfg := rfl
@[simp] theorem afterStop_work (s : State) : (afterStop s).work = s.work := rfl
@[simp] theorem afterStop_ret (s : State) : (afterStop s).ret = s.ret := rfl
@[simp] theorem afterStop_env (s : State) : (afterStop s).env = s.env := rfl
@[simp] theorem afterStop_cmds (s : State) : (afterStop s).cmds = s.cmds := rfl

@[simp] theorem State.launch_refused (a : BusAction) (s : State) : (s.launch a).refused = s.refused := by cases a <;> rfl
@[simp] theorem State.launch_sb (a : BusAction) (s : State) : (s.launch a).sb = s.sb := by cases a <;> rfl
@[simp] theorem State.launch_lcd (a : BusAction) (s : State) : (s.launch a).lcd = s.lcd := by cases a <;> rfl
@[simp] theorem State.launch_pwm (a : BusAction) (s : State) : (s.launch a).pwm = s.pwm := by cases a <;> rfl
@[simp] theorem State.launch_lc (a : BusAction) (s : State) : (s.launch a).lc = s.lc := by cases a <;> rfl
@[simp] theorem State.launch_cfg (a : BusAction) (s : State) : (s.launch a).cfg = s.cfg := by cases a <;> rfl
@[simp] theorem State.launch_work (a : BusAction) (s : State) : (s.launch a).work = s.work := by cases a <;> rfl
@[simp] theorem State.launch_ret (a : BusAction) (s : State) : (s.launch a).ret = s.ret := by cases a <;> rfl
@[simp] theorem State.launch_env (a : BusAction) (s : State) : (s.launch a).env = s.env := by cases a <;> rfl
@[simp] theorem State.launch_cmds (a : BusAction) (s : State) : (s.launch a).cmds = s.cmds := by cases a <;> rfl

@[simp] theorem State.complete_refused (a : BusAction) (ans : Answer) (s : State) : (s.complete a ans).refused = s.refused := by cases a <;> rfl
@[simp] theorem State.complete_sb (a : BusAction) (ans : Answer) (s : State) : (s.complete a ans).sb = s.sb := by cases a <;> rfl
@[simp] theorem State.complete_lcd (a : BusAction) (ans : Answer) (s : State) : (s.complete a ans).lcd = s.lcd := by cases a <;> rfl
@[simp] theorem State.complete_pwm (a : BusAction) (ans : Answer) (s : State) : (s.complete a ans).pwm = s.pwm := by cases a <;> rfl
@[simp] theorem State.complete_lc (a : BusAction) (ans : Answer) (s : State) : (s.complete a ans).lc = s.lc := by cases a <;> rfl
@[simp] theorem State.complete_cfg (a : BusAction) (ans : Answer) (s : State) : (s.complete a ans).cfg = s.cfg := by cases a <;> rfl
@[simp] theorem State.complete_work (a : BusAction) (ans : Answer) (s : State) : (s.complete a ans).work = s.work := by cases a <;> rfl
@[simp] theorem State.complete_ret (a : BusAction) (ans : Answer) (s : State) : (s.complete a ans).ret = s.ret := by cases a <;> rfl
@[simp] theorem State.complete_env (a : BusAction) (ans : Answer) (s : State) : (s.complete a ans).env = s.env := by cases a <;> rfl
@[simp] theorem State.complete_cmds (a : BusAction) (ans : Answer) (s : State) : (s.complete a ans).cmds = s.cmds := by cases a <;> rfl

@[simp] theorem State.setShadow_hist (r : Shadow) (v : Byte) (s : State) : (s.setShadow r v).hist = s.hist := by cases r <;> rfl
@[simp] theorem State.setShadow_refused (r : Shadow) (v : Byte) (s : State) : (s.setShadow r v).refused = s.refused := by cases r <;> rfl
@[simp] theorem State.setShadow_bc (r : Shadow) (v : Byte) (s : State) : (s.setShadow r v).bc = s.bc := by cases r <;> rfl
@[simp] theorem State.setShadow_sb (r : Shadow) (v : Byte) (s : State) : (s.setShadow r v).sb = s.sb := by cases r <;> rfl
@[simp] theorem State.setShadow_pwm (r : Shadow) (v : Byte) (s : State) : (s.setShadow r v).pwm = s.pwm := by cases r <;> rfl
@[simp] theorem State.setShadow_lc (r : Shadow) (v : Byte) (s : State) : (s.setShadow r v).lc = s.lc := by cases r <;> rfl
@[simp] theorem State.setShadow_cfg (r : Shadow) (v : Byte) (s : State) : (s.setShadow r v).cfg = s.cfg := by cases r <;> rfl
@[simp] theorem State.setShadow_work (r : Shadow) (v : Byte) (s : State) : (s.setShadow r v).work = s.work := by cases r <;> rfl
@[simp] theorem State.setShadow_ret (r : Shadow) (v : Byte) (s : State) : (s.setShadow r v).ret = s.ret := by cases r <;> rfl
@[simp] theorem State.setShadow_env (r : Shadow) (v : Byte) (s : State) : (s.setShadow r v).env = s.env := by cases r <;> rfl
@[simp] theorem State.setShadow_cmds (r : Shadow) (v : Byte) (s : State) : (s.setShadow r v).cmds = s.cmds := by cases r <;> rfl

@[simp] theorem State.tick_refused (s : State) : s.tick.refused = s.refused := by
  unfold State.tick; split
  · rfl
  · split <;> simp
@[simp] theorem State.tick_sb (s : State) : s.tick.sb = s.sb := by
  unfold State.tick; split
  · rfl
  · split <;> simp
@[simp] theorem State.tick_lcd (s : State) : s.tick.lcd = s.lcd := by
  unfold State.tick; split
  · rfl
  · split <;> simp
@[simp] theorem State.tick_pwm (s : State) : s.tick.pwm = s.pwm := by
  unfold State.tick; split
  · rfl
  · split <;> simp
@[simp] theorem State.tick_lc (s : State) : s.tick.lc = s.lc := by
  unfold State.tick; split
  · rfl
  · split <;> simp
@[simp] theorem State.tick_cfg (s : State) : s.tick.cfg = s.cfg := by
  unfold State.tick; split
  · rfl
  · split <;> simp
@[simp] theorem State.tick_work (s : State) : s.tick.work = s.work := by
  unfold State.tick; split
  · rfl
  · split <;> simp
@[simp] theorem State.tick_ret (s : State) : s.tick.ret = s.ret := by
  unfold State.tick; split
  · rfl
  · split <;> simp
@[simp] theorem State.tick_cmds (s : State) : s.tick.cmds = s.cmds := by
  unfold State.tick; split
  · rfl
  · split <;> simp

end Sys2Proof.Machine
end

