-- ==== Sys2Proof/Laws/Run.lean ====
section
/-! SUPPORT. What the run of an operation does, once for each program of the pseudocode: when every action completes
it comes to the state Completed.lean names, and what follows runs from there. -/

namespace Sys2Proof.Machine

/-! ### The oracle -/

@[simp] theorem Env.advance_zero (e : Env) : e.advance 0 = e := by
  simp [Env.advance]

@[simp] theorem Env.advance_advance (e : Env) (m n : Nat) : (e.advance m).advance n = e.advance (m + n) := by
  simp [Env.advance, Nat.add_assoc]

@[simp] theorem Env.answer_advance (e : Env) (m k : Nat) : (e.advance m).answer k = e.answer (m + k) := by
  simp [Env.answer, Env.advance, Nat.add_assoc]

theorem State.tick_of_idle_bus {s : State} (h : s.bc.pending = none) : s.tick = s := by
  simp [State.tick, h]

/-! ### The run -/

theorem run_go {s t : State} {m : Micro} (rest : List Micro) (h : s.bc.pending = none) (hm : stepMicro m s = .go t) :
    run (m :: rest) s = run rest t := by
  simp [run, State.tick_of_idle_bus h, hm]

theorem run_over {s t : State} {m : Micro} (rest : List Micro) (h : s.bc.pending = none)
    (hm : stepMicro m s = .ended t) : run (m :: rest) s = { t with work.todo := [] } := by
  simp [run, State.tick_of_idle_bus h, hm]

theorem run_hold {s t : State} {m : Micro} (rest : List Micro) (h : s.bc.pending = none)
    (hm : stepMicro m s = .hold t) : run (m :: rest) s = { t with work.todo := m :: rest } := by
  simp [run, State.tick_of_idle_bus h, hm]

/-- The end of an operation: its result is returned and nothing of it is left. -/
theorem run_ret {s : State} (r : Ret) (h : s.bc.pending = none) : run [.ret r] s = s.finish (s.result r) := by
  rw [run_over [] h rfl]; rfl

theorem run_release {s : State} (rest : List Micro) (h : s.bc.pending = none) :
    run (.release :: rest) s = run rest s.unhold := run_go rest h rfl

theorem run_delay {s : State} (ns : Nat) (rest : List Micro) (h : s.bc.pending = none) :
    run (.delay ns :: rest) s = run rest (s.delay ns) := run_go rest h rfl

theorem run_setShadow {s : State} (r : Shadow) (v : Byte) (rest : List Micro) (h : s.bc.pending = none) :
    run (.setShadow r v :: rest) s = run rest (s.setShadow r v) := run_go rest h rfl

theorem run_takeByte {s : State} (rest : List Micro) (h : s.bc.pending = none) :
    run (.takeByte :: rest) s = run rest (s.takeByte s.bc.data) := run_go rest h rfl

/-! ### AnswersReady -/

theorem AnswersReady.mono {m n : Nat} {s : State} (h : AnswersReady n s) (hmn : m ≤ n) : AnswersReady m s :=
  ⟨h.1, fun k hk => h.2 k (by omega)⟩

theorem AnswersReady.pending {n : Nat} {s : State} (h : AnswersReady n s) : s.bc.pending = none := h.1

/-- Questions used up leave the rest ready. -/
theorem AnswersReady.after {s t : State} {N n : Nat} (h : AnswersReady N s) (m : Nat) (hp : t.bc.pending = none)
    (he : t.env = s.env.advance m) (hN : m + n ≤ N) : AnswersReady n t :=
  ⟨hp, fun k hk => by rw [he, Env.answer_advance]; exact h.2 _ (by omega)⟩

/-- An update that leaves the pending action and the oracle alone keeps the answers ready. -/
theorem AnswersReady.congr {s t : State} {n : Nat} (h : AnswersReady n s) (hp : t.bc.pending = s.bc.pending)
    (he : t.env = s.env) : AnswersReady n t :=
  ⟨hp.trans h.1, by rw [he]; exact h.2⟩

/-! ### Bus actions -/

theorem run_start {s : State} (rest : List Micro) (h : AnswersReady 1 s) :
    run (actionProg .start ++ rest) s = run rest (afterStart s) := by
  obtain ⟨hp, hd⟩ := h
  have hd0 := hd 0 (by omega)
  simp [actionProg, run, State.tick, hp, stepMicro, slow, State.launch, hd0, State.complete, State.ready, State.emit,
    State.asked, afterStart]

theorem run_tx {s : State} (b : Byte) (rest : List Micro) (h : AnswersReady 1 s) :
    run (actionProg (.tx b) ++ rest) s = run rest (afterTx b s) := by
  obtain ⟨hp, hd⟩ := h
  have hd0 := hd 0 (by omega)
  simp [actionProg, run, State.tick, hp, stepMicro, slow, State.launch, hd0, State.complete, State.ready, State.emit,
    State.asked, afterTx]

theorem run_rx {s : State} (m : Bit) (rest : List Micro) (h : AnswersReady 1 s) :
    run (actionProg (.rx m) ++ rest) s = run rest (afterRx m s) := by
  obtain ⟨hp, hd⟩ := h
  have hd0 := hd 0 (by omega)
  simp [actionProg, run, State.tick, hp, stepMicro, slow, State.launch, hd0, State.complete, State.ready, State.emit,
    State.asked, afterRx]

theorem run_stop {s : State} (rest : List Micro) (h : s.bc.pending = none) :
    run (.launch .stop :: rest) s = run rest (afterStop s) := run_go rest h rfl

theorem run_receive {s : State} (m : Bit) (rest : List Micro) (h : AnswersReady 1 s) :
    run (receiveProg m ++ rest) s = run rest ((afterRx m s).takeByte (s.env.answer 0).rx) := by
  rw [receiveProg, List.append_assoc, run_rx m _ h]
  exact run_takeByte rest rfl

end Sys2Proof.Machine
end

