-- ==== Sys2Proof/Laws/Programs.lean ====
section
/-! SUPPORT. The composite programs of the pseudocode, each run through once: what state it comes to and which
questions it used up. -/

namespace Sys2Proof.Machine

/-! ### BusController -/

@[simp] theorem afterAddress_env (addr : Addr7) (dir : Dir) (s : State) :
    (afterAddress addr dir s).env = s.env.advance 2 := by simp [afterAddress]

@[simp] theorem afterAddress_pending (addr : Addr7) (dir : Dir) (s : State) :
    (afterAddress addr dir s).bc.pending = none := rfl

@[simp] theorem afterAddress_work (addr : Addr7) (dir : Dir) (s : State) :
    (afterAddress addr dir s).work = s.work := rfl

theorem run_address {s : State} (addr : Addr7) (dir : Dir) (rest : List Micro) (h : AnswersReady 2 s) :
    run (addressProg addr dir ++ rest) s = run rest (afterAddress addr dir s) := by
  rw [addressProg, List.append_assoc, List.append_assoc, run_start _ (h.mono (by omega)),
    run_tx _ _ (h.after 1 rfl rfl (by omega))]
  refine run_go rest rfl ?_
  cases dir <;> rfl

theorem afterBytes_cons (b : Byte) (l : List Byte) (s : State) : afterBytes (b :: l) s = afterBytes l (afterTx b s) := rfl

@[simp] theorem afterBytes_env (l : List Byte) (s : State) : (afterBytes l s).env = s.env.advance l.length := by
  induction l generalizing s with
  | nil => simp [afterBytes]
  | cons b l ih => rw [afterBytes_cons, ih]; simp [Nat.add_comm]

theorem afterBytes_pending (l : List Byte) {s : State} (h : s.bc.pending = none) :
    (afterBytes l s).bc.pending = none := by
  induction l generalizing s with
  | nil => exact h
  | cons b l ih => exact ih rfl

@[simp] theorem afterBytes_work (l : List Byte) (s : State) : (afterBytes l s).work = s.work := by
  induction l generalizing s with
  | nil => rfl
  | cons b l ih => rw [afterBytes_cons, ih]; rfl

theorem run_bytes {s : State} (l : List Byte) (rest : List Micro) (h : AnswersReady l.length s) :
    run (bytesProg l ++ rest) s = run rest (afterBytes l s) := by
  induction l generalizing s with
  | nil => rfl
  | cons b l ih =>
    have hl : (b :: l).length = 1 + l.length := by simp [Nat.add_comm]
    rw [hl] at h
    have he : bytesProg (b :: l) ++ rest = actionProg (.tx b) ++ (bytesProg l ++ rest) := by simp [bytesProg]
    rw [he, run_tx b _ (h.mono (by omega)), ih (h.after 1 rfl rfl (by omega))]
    rfl

@[simp] theorem afterWriteReg_env (addr : Addr7) (l : List Byte) (s : State) :
    (afterWriteReg addr l s).env = s.env.advance (2 + l.length) := by simp [afterWriteReg]

@[simp] theorem afterWriteReg_pending (addr : Addr7) (l : List Byte) (s : State) :
    (afterWriteReg addr l s).bc.pending = none := afterBytes_pending l rfl

@[simp] theorem afterWriteReg_work (addr : Addr7) (l : List Byte) (s : State) :
    (afterWriteReg addr l s).work = s.work := by simp [afterWriteReg]

theorem run_writeReg {s : State} (addr : Addr7) (l : List Byte) (rest : List Micro) (h : AnswersReady (2 + l.length) s) :
    run (writeRegProg addr l ++ rest) s = run rest (afterWriteReg addr l s) := by
  rw [writeRegProg, List.append_assoc, List.append_assoc, run_address _ _ _ (h.mono (by omega)),
    run_bytes _ _ (h.after 2 rfl (by simp) (by omega))]
  exact run_stop rest (afterBytes_pending l rfl)

@[simp] theorem afterPing_env (addr : Addr7) (s : State) : (afterPing addr s).env = s.env.advance 2 := by
  simp [afterPing]

@[simp] theorem afterPing_pending (addr : Addr7) (s : State) : (afterPing addr s).bc.pending = none := rfl

/-- The ping's answer is the acknowledge of its address byte. -/
theorem ping_status (addr : Addr7) (s : State) :
    decide ((afterAddress addr .write s).bc.status = .mtSlaAck) = (s.env.answer 1).ack := by
  have hb : (addressByte addr .write).getLsbD 0 = false := by
    show (addr ++ BitVec.ofBool false : BitVec (7 + 1)).getLsbD 0 = false
    rw [BitVec.getLsbD_append]; rfl
  simp only [afterAddress, afterTx_bc, afterStart_bc, txStatus, addressStatus, afterStart_env, Env.answer_advance,
    hb]
  cases (s.env.answer 1).ack <;> simp

theorem run_ping {s : State} (addr : Addr7) (rest : List Micro) (h : AnswersReady 2 s) :
    run (pingProg addr ++ rest) s = run rest ((afterPing addr s).takeFlag (s.env.answer 1).ack) := by
  rw [pingProg, List.append_assoc, run_address _ _ _ h, ← ping_status addr s]
  show run (.takeAck :: .launch .stop :: rest) _ = _
  rw [run_go _ rfl rfl, run_stop rest rfl]
  rfl

theorem afterReadAcks_succ (k : Nat) (s : State) : afterReadAcks (k + 1) s = afterReadAcks k (afterRx true s) := by
  simp [afterReadAcks]

@[simp] theorem afterReadAcks_env (k : Nat) (s : State) : (afterReadAcks k s).env = s.env.advance k := by
  induction k generalizing s with
  | zero => simp [afterReadAcks]
  | succ k ih => rw [afterReadAcks_succ, ih]; simp [Nat.add_comm]

theorem afterReadAcks_pending (k : Nat) {s : State} (h : s.bc.pending = none) :
    (afterReadAcks k s).bc.pending = none := by
  induction k generalizing s with
  | zero => exact h
  | succ k ih => rw [afterReadAcks_succ]; exact ih rfl

/-- The state with work `w`: the values an operation has taken do not change what it does. -/
def State.withWork (w : Work) (s : State) : State := { s with work := w }

theorem afterReadAcks_withWork (k : Nat) (w : Work) (s : State) :
    afterReadAcks k (s.withWork w) = (afterReadAcks k s).withWork w := by
  induction k generalizing s with
  | zero => rfl
  | succ k ih => rw [afterReadAcks_succ, afterReadAcks_succ]; exact ih (afterRx true s)

theorem run_readAcks {s : State} (k : Nat) (rest : List Micro) (h : AnswersReady k s) :
    run ((List.replicate k (receiveProg true)).flatten ++ rest) s =
      run rest ((afterReadAcks k s).withWork
        { s.work with bytes := s.work.bytes ++ (List.range k).map fun j => (s.env.answer j).rx }) := by
  induction k generalizing s with
  | zero => simp [afterReadAcks, State.withWork]
  | succ k ih =>
    rw [Nat.add_comm] at h
    rw [List.replicate_succ, List.flatten_cons, List.append_assoc, run_receive true _ (h.mono (by omega)),
      ih (h.after 1 rfl rfl (by omega)), afterReadAcks_succ]
    congr 1
    have hw : ((afterRx true s).takeByte (s.env.answer 0).rx) =
        (afterRx true s).withWork { s.work with bytes := s.work.bytes ++ [(s.env.answer 0).rx] } := rfl
    rw [hw, afterReadAcks_withWork]
    simp [State.withWork, List.range_succ_eq_map, Function.comp_def, Nat.add_comm]

theorem run_readReg {s : State} (addr : Addr7) (reg : Byte) (n : Nat) (hn : n ≠ 0) (rest : List Micro)
    (h : AnswersReady (5 + n) s) (hw : s.work = .idle) :
    run (readRegProg addr reg n ++ rest) s =
      run rest ((afterReadReg addr reg n s).withWork { bytes := readRegValue n s }) := by
  obtain ⟨k, rfl⟩ := Nat.exists_eq_succ_of_ne_zero hn
  simp only [readRegProg, List.append_assoc, Nat.succ_eq_add_one, Nat.add_sub_cancel] at h ⊢
  rw [run_address _ _ _ (h.mono (by omega)), run_tx _ _ (h.after 2 rfl (by simp) (by omega)),
    run_address _ _ _ (h.after 3 rfl (by simp) (by omega)),
    run_readAcks _ _ (h.after 5 rfl (by simp) (by omega)),
    run_receive]
  · rw [List.singleton_append, run_stop _ rfl]
    congr 1
    simp only [afterReadReg, readRegValue, State.withWork, State.takeByte, List.range_succ]
    simp [hw, Work.idle, afterRx, afterStop]
  · exact h.after (5 + k) (afterReadAcks_pending _ rfl) (by simp [State.withWork]) (by omega)

/-! ### What the bus programs leave alone -/

/-- Only the history, the controller and the oracle differ. -/
def OnlyBus (s t : State) : Prop := t = { s with hist := t.hist, bc := t.bc, env := t.env }

theorem OnlyBus.refl (s : State) : OnlyBus s s := rfl

theorem OnlyBus.trans {s t u : State} (h : OnlyBus s t) (k : OnlyBus t u) : OnlyBus s u := by
  unfold OnlyBus at *; rw [k, h]

theorem OnlyBus.lcd {s t : State} (h : OnlyBus s t) : t.lcd = s.lcd := by rw [h]
theorem OnlyBus.cfg {s t : State} (h : OnlyBus s t) : t.cfg = s.cfg := by rw [h]
theorem OnlyBus.pwm {s t : State} (h : OnlyBus s t) : t.pwm = s.pwm := by rw [h]
theorem OnlyBus.work {s t : State} (h : OnlyBus s t) : t.work = s.work := by rw [h]

theorem onlyBus_delay (ns : Nat) (s : State) : OnlyBus s (s.delay ns) := rfl
theorem onlyBus_afterStop (s : State) : OnlyBus s (afterStop s) := rfl
theorem onlyBus_afterRx (m : Bit) (s : State) : OnlyBus s (afterRx m s) := rfl
theorem onlyBus_afterTx (b : Byte) (s : State) : OnlyBus s (afterTx b s) := rfl
theorem onlyBus_afterAddress (addr : Addr7) (dir : Dir) (s : State) : OnlyBus s (afterAddress addr dir s) := rfl

theorem onlyBus_afterBytes (l : List Byte) (s : State) : OnlyBus s (afterBytes l s) := by
  induction l generalizing s with
  | nil => rfl
  | cons b l ih => exact (onlyBus_afterTx b s).trans (ih _)

theorem onlyBus_afterWriteReg (addr : Addr7) (l : List Byte) (s : State) : OnlyBus s (afterWriteReg addr l s) :=
  ((onlyBus_afterAddress addr .write s).trans (onlyBus_afterBytes l _)).trans (onlyBus_afterStop _)

theorem onlyBus_afterPing (addr : Addr7) (s : State) : OnlyBus s (afterPing addr s) := rfl

theorem onlyBus_afterExpWrite (b : Byte) (s : State) : OnlyBus s (afterExpWrite b s) :=
  onlyBus_afterWriteReg _ _ _

theorem onlyBus_afterExpRead (s : State) : OnlyBus s (afterExpRead s) := rfl

theorem onlyBus_afterPulse (nib : Nibble) (mode : Mode) (s : State) : OnlyBus s (afterPulse nib mode s) :=
  (((onlyBus_afterExpWrite _ s).trans (onlyBus_delay _ _)).trans (onlyBus_afterExpWrite _ _)).trans (onlyBus_delay _ _)

theorem onlyBus_afterSend (value : Byte) (mode : Mode) (s : State) : OnlyBus s (afterSend value mode s) :=
  (onlyBus_afterPulse _ mode s).trans (onlyBus_afterPulse _ mode _)

theorem onlyBus_afterReadNibble (mode : Mode) (s : State) : OnlyBus s (afterReadNibble mode s) :=
  ((((onlyBus_afterExpWrite _ s).trans (onlyBus_delay _ _)).trans (onlyBus_afterExpRead _)).trans
    (onlyBus_afterExpWrite _ _)).trans (onlyBus_delay _ _)

/-! ### Scan -/

theorem afterScan_succ (k : Nat) (s : State) : afterScan (k + 1) s = afterPing (BitVec.ofNat 7 k) (afterScan k s) := by
  simp [afterScan, List.range_succ]

@[simp] theorem afterScan_env (k : Nat) (s : State) : (afterScan k s).env = s.env.advance (2 * k) := by
  induction k with
  | zero => simp [afterScan]
  | succ k ih => rw [afterScan_succ, afterPing_env, ih]; simp [Nat.mul_succ]

theorem afterScan_pending (k : Nat) {s : State} (h : s.bc.pending = none) : (afterScan k s).bc.pending = none := by
  cases k with
  | zero => exact h
  | succ k => rw [afterScan_succ]; rfl

theorem run_pings {s : State} (k : Nat) (rest : List Micro) (h : AnswersReady (2 * k) s) :
    run (((List.range k).flatMap fun a => pingProg (BitVec.ofNat 7 a)) ++ rest) s =
      run rest ((afterScan k s).withWork
        { s.work with flags := s.work.flags ++ (List.range k).map fun a => (s.env.answer (2 * a + 1)).ack }) := by
  induction k generalizing rest with
  | zero => simp [afterScan, State.withWork]
  | succ k ih =>
    rw [List.range_succ, List.flatMap_append, List.append_assoc, ih _ (h.mono (by omega)), List.flatMap_singleton,
      run_ping]
    · rw [afterScan_succ]
      congr 1
      simp [State.withWork, State.takeFlag, afterPing, afterAddress, afterTx, afterStart, afterStop]
    · exact h.after (2 * k) (afterScan_pending k h.1) (by simp [State.withWork]) (by omega)

/-! ### DisplayDriver -/

@[simp] theorem afterExpWrite_env (b : Byte) (s : State) : (afterExpWrite b s).env = s.env.advance 3 := by
  simp [afterExpWrite]

@[simp] theorem afterExpWrite_pending (b : Byte) (s : State) : (afterExpWrite b s).bc.pending = none := rfl

theorem run_expWrite {s t : State} (b : Byte) (rest : List Micro) (h : AnswersReady 3 t) (hl : t.lcd = s.lcd) :
    run (expWriteProg s b ++ rest) t = run rest (afterExpWrite b t) := by
  rw [expWriteProg, run_writeReg s.lcd.addr [b] rest h, afterExpWrite, hl]

@[simp] theorem afterExpRead_env (s : State) : (afterExpRead s).env = s.env.advance 3 := by simp [afterExpRead]

@[simp] theorem afterExpRead_pending (s : State) : (afterExpRead s).bc.pending = none := rfl

theorem run_expRead {s t : State} (rest : List Micro) (h : AnswersReady 3 t) (hl : t.lcd = s.lcd) :
    run (expReadProg s ++ rest) t = run rest ((afterExpRead t).takeByte (expReadValue t)) := by
  rw [expReadProg, List.append_assoc, List.append_assoc, run_address _ _ _ (h.mono (by omega)),
    run_receive _ _ (h.after 2 rfl (by simp) (by omega)), List.singleton_append, run_stop _ rfl, ← hl]
  congr 1
  simp [afterExpRead, expReadValue, State.takeByte, afterStop, afterRx]

@[simp] theorem afterPulse_env (nib : Nibble) (mode : Mode) (s : State) :
    (afterPulse nib mode s).env = s.env.advance 6 := by simp [afterPulse]

@[simp] theorem afterPulse_pending (nib : Nibble) (mode : Mode) (s : State) :
    (afterPulse nib mode s).bc.pending = none := by
  simp only [afterPulse, State.delay_bc, afterExpWrite_pending]

theorem run_pulse {s t : State} (nib : Nibble) (mode : Mode) (rest : List Micro) (h : AnswersReady 6 t)
    (hl : t.lcd = s.lcd) (hc : t.cfg = s.cfg) :
    run (pulseProg s nib mode ++ rest) t = run rest (afterPulse nib mode t) := by
  simp only [pulseProg, List.append_assoc, List.cons_append, List.nil_append]
  have h2 : AnswersReady 3 ((afterExpWrite (expanderByte s.lcd.bl nib mode false true) t).delay s.cfg.tEnHold) :=
    h.after 3 (by simp) (by simp) (by omega)
  have hl2 := (onlyBus_afterExpWrite (expanderByte s.lcd.bl nib mode false true) t).lcd.trans hl
  rw [run_expWrite _ _ (h.mono (by omega)) hl, run_delay _ _ (by simp), run_expWrite _ _ h2 hl2,
    run_delay _ _ (by simp), afterPulse, hl, hc]

@[simp] theorem afterSend_env (value : Byte) (mode : Mode) (s : State) :
    (afterSend value mode s).env = s.env.advance 12 := by simp [afterSend]

@[simp] theorem afterSend_pending (value : Byte) (mode : Mode) (s : State) :
    (afterSend value mode s).bc.pending = none := afterPulse_pending _ _ _

theorem run_send {s t : State} (value : Byte) (mode : Mode) (rest : List Micro) (h : AnswersReady 12 t)
    (hl : t.lcd = s.lcd) (hc : t.cfg = s.cfg) :
    run (sendProg s value mode ++ rest) t = run rest (afterSend value mode t) := by
  rw [sendProg, List.append_assoc, run_pulse _ _ _ (h.mono (by omega)) hl hc,
    run_pulse _ _ _ (h.after 6 (by simp) (by simp) (by omega)) ((onlyBus_afterPulse _ _ _).lcd.trans hl)
      ((onlyBus_afterPulse _ _ _).cfg.trans hc), afterSend]

theorem afterSendAll_cons (b : Byte) (l : List Byte) (s : State) :
    afterSendAll (b :: l) s = afterSendAll l (afterSend b .data s) := by
  simp only [afterSendAll, List.foldl_cons]

theorem afterSendAll_pending (l : List Byte) {s : State} (h : s.bc.pending = none) :
    (afterSendAll l s).bc.pending = none := by
  induction l generalizing s with
  | nil => exact h
  | cons b l ih => rw [afterSendAll_cons]; exact ih (afterSend_pending _ _ _)

theorem run_sendAll {s t : State} (l : List Byte) (rest : List Micro) (h : AnswersReady (12 * l.length) t)
    (hl : t.lcd = s.lcd) (hc : t.cfg = s.cfg) :
    run (sendAllProg s l ++ rest) t = run rest (afterSendAll l t) := by
  induction l generalizing t with
  | nil => rfl
  | cons b l ih =>
    have he : sendAllProg s (b :: l) ++ rest = sendProg s b .data ++ (sendAllProg s l ++ rest) := by simp [sendAllProg]
    simp only [List.length_cons] at h
    rw [he, run_send _ _ _ (h.mono (by omega)) hl hc,
      ih (h.after 12 (by simp) (by simp) (by omega)) ((onlyBus_afterSend _ _ _).lcd.trans hl)
        ((onlyBus_afterSend _ _ _).cfg.trans hc), afterSendAll_cons]

@[simp] theorem afterReadNibble_env (mode : Mode) (s : State) :
    (afterReadNibble mode s).env = s.env.advance 9 := by simp [afterReadNibble]

@[simp] theorem afterReadNibble_pending (mode : Mode) (s : State) : (afterReadNibble mode s).bc.pending = none := by
  simp only [afterReadNibble, State.delay_bc, afterExpWrite_pending]

theorem run_readNibble {s t : State} (mode : Mode) (rest : List Micro) (h : AnswersReady 9 t)
    (hl : t.lcd = s.lcd) (hc : t.cfg = s.cfg) :
    run (readNibbleProg s mode ++ rest) t = run rest ((afterReadNibble mode t).takeByte (t.env.answer 5).rx) := by
  simp only [readNibbleProg, List.append_assoc, List.cons_append, List.nil_append]
  have hl2 := (onlyBus_afterExpWrite (expanderByte s.lcd.bl 0xF mode true true) t).lcd.trans hl
  have h2 : AnswersReady 6 ((afterExpWrite (expanderByte s.lcd.bl 0xF mode true true) t).delay s.cfg.tEnHold) :=
    h.after 3 (by simp) (by simp) (by omega)
  have h3 : AnswersReady 3 ((afterExpRead ((afterExpWrite (expanderByte s.lcd.bl 0xF mode true true) t).delay
      s.cfg.tEnHold)).takeByte (expReadValue ((afterExpWrite (expanderByte s.lcd.bl 0xF mode true true) t).delay
      s.cfg.tEnHold))) := h2.after 3 (by simp) (by simp) (by omega)
  rw [run_expWrite _ _ (h.mono (by omega)) hl, run_delay _ _ (by simp), run_expRead _ (h2.mono (by omega)) hl2,
    run_expWrite _ _ h3 hl2, run_delay _ _ (by simp)]
  congr 1
  rw [afterReadNibble, hl, hc, expReadValue, State.delay_env, afterExpWrite_env, Env.answer_advance]
  rfl

end Sys2Proof.Machine
end

