-- ==== Sys2Proof/Laws/LoadCell.lean ====
section
/-! SUPPORT. The load-cell programs run through once. -/

namespace Sys2Proof.Machine

/-! ### Only the pins -/

/-- Only the history, the load-cell state and the oracle differ. -/
def OnlyPins (s t : State) : Prop := t = { s with hist := t.hist, lc := t.lc, env := t.env }

theorem OnlyPins.refl (s : State) : OnlyPins s s := rfl

theorem OnlyPins.trans {s t u : State} (h : OnlyPins s t) (k : OnlyPins t u) : OnlyPins s u := by
  unfold OnlyPins at *; rw [k, h]

theorem OnlyPins.bc {s t : State} (h : OnlyPins s t) : t.bc = s.bc := by rw [h]
theorem OnlyPins.cfg {s t : State} (h : OnlyPins s t) : t.cfg = s.cfg := by rw [h]
theorem OnlyPins.work {s t : State} (h : OnlyPins s t) : t.work = s.work := by rw [h]

theorem onlyPins_sampled (s : State) : OnlyPins s s.sampled := rfl
theorem onlyPins_afterLcPulse (s : State) : OnlyPins s (afterLcPulse s) := rfl
theorem onlyPins_afterShiftBit (k : Nat) (s : State) : OnlyPins s (afterShiftBit k s) := rfl

/-! ### Pulses

Programs are run from `t.withWork w`, so that the values an operation has taken stand beside the state of the block. -/

theorem State.withWork_self (t : State) : t.withWork t.work = t := rfl

theorem run_goWith {t u : State} {w v : Work} {m : Micro} (rest : List Micro) (h : t.bc.pending = none)
    (hm : stepMicro m (t.withWork w) = .go (u.withWork v)) :
    run (m :: rest) (t.withWork w) = run rest (u.withWork v) := run_go rest h hm

theorem run_lcPulse {s t : State} (w : Work) (rest : List Micro) (h : t.bc.pending = none) (hc : t.cfg = s.cfg) :
    run (lcPulseProg s ++ rest) (t.withWork w) = run rest ((afterLcPulse t).withWork w) := by
  simp only [lcPulseProg, List.cons_append, List.nil_append, ← hc, afterLcPulse]
  rw [run_goWith (t := t) (u := t.driveClk true) (v := w) _ h rfl,
    run_goWith (t := t.driveClk true) (u := (t.driveClk true).delay t.cfg.tLcHigh) (v := w) _ h rfl,
    run_goWith (t := (t.driveClk true).delay t.cfg.tLcHigh)
      (u := ((t.driveClk true).delay t.cfg.tLcHigh).driveClk false) (v := w) _ h rfl,
    run_goWith (t := ((t.driveClk true).delay t.cfg.tLcHigh).driveClk false)
      (u := (((t.driveClk true).delay t.cfg.tLcHigh).driveClk false).delay t.cfg.tLcLow) (v := w) _ h rfl]

theorem afterGainPulses_succ (n : Nat) (s : State) :
    afterGainPulses (n + 1) s =
      afterLcPulse { afterGainPulses n s with lc.phase := .gainSelect n } := by
  simp [afterGainPulses, List.range_succ]

theorem onlyPins_afterGainPulses (n : Nat) (s : State) : OnlyPins s (afterGainPulses n s) := by
  induction n with
  | zero => rfl
  | succ n ih => rw [afterGainPulses_succ]; exact ih.trans rfl

@[simp] theorem afterGainPulses_env (n : Nat) (s : State) : (afterGainPulses n s).env = s.env := by
  induction n with
  | zero => rfl
  | succ n ih => rw [afterGainPulses_succ, ← ih]; rfl

theorem run_gainPulses {s t : State} (n : Nat) (w : Work) (rest : List Micro) (h : t.bc.pending = none)
    (hc : t.cfg = s.cfg) :
    run (((List.range n).flatMap fun k => .lcPhase (.gainSelect k) :: lcPulseProg s) ++ rest) (t.withWork w) =
      run rest ((afterGainPulses n t).withWork w) := by
  induction n generalizing rest with
  | zero => rfl
  | succ n ih =>
    have hb : (afterGainPulses n t).bc.pending = none := by rw [(onlyPins_afterGainPulses n t).bc]; exact h
    have hcc : (afterGainPulses n t).cfg = s.cfg := (onlyPins_afterGainPulses n t).cfg.trans hc
    rw [List.range_succ, List.flatMap_append, List.append_assoc, ih, List.flatMap_singleton, List.cons_append,
      run_goWith (u := { afterGainPulses n t with lc.phase := .gainSelect n }) (v := w) _ hb rfl,
      run_lcPulse w rest (t := { afterGainPulses n t with lc.phase := .gainSelect n }) hb hcc, afterGainPulses_succ]

/-! ### Shifting in -/

theorem run_shiftBit {s t : State} (k : Nat) (w : Work) (rest : List Micro) (h : t.bc.pending = none)
    (hc : t.cfg = s.cfg) :
    run (shiftBitProg s k ++ rest) (t.withWork w) =
      run rest ((afterShiftBit k t).withWork { w with bits := w.bits ++ [t.level] }) := by
  simp only [shiftBitProg, List.cons_append, List.nil_append, ← hc, afterShiftBit]
  let p : State := { t with lc.phase := .shifting k }
  let v : Work := { w with bits := w.bits ++ [t.level] }
  let p1 : State := p.driveClk true
  let p2 : State := p1.delay t.cfg.tLcHigh
  let p3 : State := p2.sampled
  let p4 : State := p3.driveClk false
  let p5 : State := p4.delay t.cfg.tLcLow
  rw [run_goWith (t := t) (u := p) (v := w) _ h rfl, run_goWith (t := p) (u := p1) (v := w) _ h rfl,
    run_goWith (t := p1) (u := p2) (v := w) _ h rfl, run_goWith (t := p2) (u := p3) (v := v) _ h rfl,
    run_goWith (t := p3) (u := p4) (v := v) _ h rfl, run_goWith (t := p4) (u := p5) (v := v) _ h rfl]

theorem afterShift_succ (base n : Nat) (s : State) :
    afterShift base (n + 1) s = afterShiftBit (base + n) (afterShift base n s) := by
  simp [afterShift, List.range_succ]

theorem afterShift_add (base m n : Nat) (s : State) :
    afterShift base (m + n) s = afterShift (base + m) n (afterShift base m s) := by
  induction n with
  | zero => rfl
  | succ n ih => rw [← Nat.add_assoc, afterShift_succ, ih, afterShift_succ, Nat.add_assoc]

theorem onlyPins_afterShift (base n : Nat) (s : State) : OnlyPins s (afterShift base n s) := by
  induction n with
  | zero => rfl
  | succ n ih => rw [afterShift_succ]; exact ih.trans (onlyPins_afterShiftBit _ _)

@[simp] theorem afterShiftBit_env (k : Nat) (s : State) : (afterShiftBit k s).env = s.env.advance 1 := rfl

@[simp] theorem afterShift_env (base n : Nat) (s : State) : (afterShift base n s).env = s.env.advance n := by
  induction n with
  | zero => simp [afterShift]
  | succ n ih => rw [afterShift_succ, afterShiftBit_env, ih]; simp

theorem afterShift_gain (base n : Nat) (s : State) : (afterShift base n s).lc.gain = s.lc.gain := by
  induction n with
  | zero => rfl
  | succ n ih => rw [afterShift_succ, ← ih]; rfl

theorem levelsAt_succ (e : Env) (k n : Nat) : levelsAt e k (n + 1) = levelsAt e k n ++ [(e.answer (k + n)).level] := by
  simp [levelsAt, List.range_succ]

@[simp] theorem length_levelsAt (e : Env) (k n : Nat) : (levelsAt e k n).length = n := by simp [levelsAt]

theorem levelsAt_advance (e : Env) (m k n : Nat) : levelsAt (e.advance m) k n = levelsAt e (m + k) n := by
  simp [levelsAt, Nat.add_assoc]

theorem levelsAt_append (e : Env) (k m n : Nat) : levelsAt e k (m + n) = levelsAt e k m ++ levelsAt e (k + m) n := by
  induction n with
  | zero => simp [levelsAt]
  | succ n ih => rw [← Nat.add_assoc, levelsAt_succ, ih, levelsAt_succ]; simp [Nat.add_assoc]

theorem run_shiftBits {s t : State} (base n : Nat) (w : Work) (rest : List Micro) (h : t.bc.pending = none)
    (hc : t.cfg = s.cfg) :
    run (((List.range n).flatMap fun j => shiftBitProg s (base + j)) ++ rest) (t.withWork w) =
      run rest ((afterShift base n t).withWork { w with bits := w.bits ++ levelsAt t.env 0 n }) := by
  induction n generalizing rest with
  | zero => simp [afterShift, levelsAt]
  | succ n ih =>
    have hb : (afterShift base n t).bc.pending = none := by rw [(onlyPins_afterShift base n t).bc]; exact h
    have hcc : (afterShift base n t).cfg = s.cfg := (onlyPins_afterShift base n t).cfg.trans hc
    have hl : (afterShift base n t).level = (t.env.answer (0 + n)).level := by simp [State.level]
    rw [List.range_succ, List.flatMap_append, List.append_assoc, ih, List.flatMap_singleton, run_shiftBit _ _ _ hb hcc,
      afterShift_succ, levelsAt_succ, hl]
    simp

theorem run_shift {s t : State} (base : Nat) (w : Work) (rest : List Micro) (h : t.bc.pending = none)
    (hc : t.cfg = s.cfg) (hw : w.bits = []) :
    run (shiftProg s base ++ rest) (t.withWork w) =
      run rest ((afterShift base 8 t).withWork { w with bytes := w.bytes ++ [byteOfBits (levelsAt t.env 0 8)] }) := by
  have hb : (afterShift base 8 t).bc.pending = none := by rw [(onlyPins_afterShift base 8 t).bc]; exact h
  rw [shiftProg, List.append_assoc, run_shiftBits _ _ _ _ h hc, List.singleton_append,
    run_goWith (u := afterShift base 8 t) (v := { w with bytes := w.bytes ++ [byteOfBits (levelsAt t.env 0 8)] }) _ hb]
  simp [stepMicro, State.withWork, State.takeByte, hw]

/-! ### The sample of a read -/

/-- Bits as a number, the first the most significant. -/
def bitsNat (l : List Bit) : Nat := l.foldl (fun n b => 2 * n + b.toNat) 0

theorem bitsNat_foldl (l : List Bit) (n : Nat) :
    l.foldl (fun n b => 2 * n + b.toNat) n = n * 2 ^ l.length + bitsNat l := by
  induction l generalizing n with
  | nil => simp [bitsNat]
  | cons b l ih =>
    rw [List.foldl_cons, ih, show bitsNat (b :: l) = (2 * 0 + b.toNat) * 2 ^ l.length + bitsNat l from ih _,
      List.length_cons, Nat.pow_succ]
    ring

theorem bitsNat_append (a b : List Bit) : bitsNat (a ++ b) = bitsNat a * 2 ^ b.length + bitsNat b := by
  rw [bitsNat, List.foldl_append, bitsNat_foldl]; rfl

theorem bitsNat_lt (l : List Bit) : bitsNat l < 2 ^ l.length := by
  induction l with
  | nil => simp [bitsNat]
  | cons b l ih =>
    rw [← List.singleton_append, bitsNat_append, List.length_append, List.length_singleton, Nat.pow_add]
    have : bitsNat [b] ≤ 1 := by cases b <;> simp [bitsNat]
    nlinarith

theorem shiftBits_toNat {w : Nat} (l : List Bit) (v : BitVec w) :
    (l.foldl (fun (v : BitVec w) b => (v <<< 1) ||| (BitVec.ofBool b).setWidth w) v).toNat =
      (v.toNat * 2 ^ l.length + bitsNat l) % 2 ^ w := by
  induction l generalizing v with
  | nil => simp [bitsNat, Nat.mod_eq_of_lt v.isLt]
  | cons b l ih =>
    have hstep : ((v <<< 1) ||| (BitVec.ofBool b).setWidth w).toNat = (2 * v.toNat + b.toNat) % 2 ^ w := by
      rw [BitVec.toNat_or, BitVec.toNat_shiftLeft, BitVec.toNat_setWidth, BitVec.toNat_ofBool, ← Nat.or_mod_two_pow]
      congr 1
      rw [Nat.shiftLeft_eq, Nat.pow_one, Nat.mul_comm]
      cases b
      · simp
      · simpa using Nat.two_pow_add_eq_or_of_lt (b := 1) (i := 1) (by omega) v.toNat |>.symm
    rw [List.foldl_cons, ih, hstep, ← List.singleton_append, bitsNat_append, List.length_append, List.length_singleton]
    have hb : bitsNat [b] = b.toNat := by cases b <;> rfl
    rw [hb, Nat.add_mod, Nat.mod_mul_mod, ← Nat.add_mod]
    congr 1
    rw [Nat.pow_add]
    ring

theorem byteOfBits_toNat {l : List Bit} (h : l.length = 8) : (byteOfBits l).toNat = bitsNat l := by
  have := bitsNat_lt l
  rw [byteOfBits, shiftBits_toNat]
  simp only [BitVec.ofNat_eq_ofNat, BitVec.toNat_ofNat]
  rw [h] at this
  simpa using this

/-- Three bytes in order are the 24 bits in order (30_encoding.md R114). -/
theorem sampleOf_levels (e : Env) (k : Nat) :
    sampleOf [byteOfBits (levelsAt e (k + 1) 8), byteOfBits (levelsAt e (k + 9) 8), byteOfBits (levelsAt e (k + 17) 8)] =
      readValue e k := by
  unfold sampleOf sampleOfBytes readValue
  congr 1
  apply BitVec.eq_of_toNat_eq
  have hsplit : levelsAt e (k + 1) 24 = levelsAt e (k + 1) 8 ++ (levelsAt e (k + 9) 8 ++ levelsAt e (k + 17) 8) := by
    rw [show levelsAt e (k + 1) 24 = levelsAt e (k + 1) (8 + (8 + 8)) from rfl, levelsAt_append, levelsAt_append]
  rw [shiftBits_toNat, hsplit, bitsNat_append, bitsNat_append]
  have h0 := bitsNat_lt (levelsAt e (k + 1) 8)
  have h1 := bitsNat_lt (levelsAt e (k + 9) 8)
  have h2 := bitsNat_lt (levelsAt e (k + 17) 8)
  simp only [length_levelsAt] at h0 h1 h2
  simp only [List.getD_cons_zero, List.getD_cons_succ]
  rw [BitVec.toNat_append, BitVec.toNat_append, byteOfBits_toNat (by simp), byteOfBits_toNat (by simp),
    byteOfBits_toNat (by simp), ← Nat.shiftLeft_add_eq_or_of_lt (by omega), ← Nat.shiftLeft_add_eq_or_of_lt (by omega)]
  simp only [Nat.shiftLeft_eq, List.length_append, length_levelsAt]
  omega

/-! ### A read -/

theorem onlyPins_afterRead (s : State) : OnlyPins s (afterRead s) :=
  ((onlyPins_sampled s).trans (onlyPins_afterShift 0 24 _)).trans ((onlyPins_afterGainPulses _ _).trans rfl)

@[simp] theorem afterRead_env (s : State) : (afterRead s).env = s.env.advance readQuestions := by
  show (afterGainPulses _ _).env = _
  simp [readQuestions]

theorem afterGainPulses_gain (n : Nat) (s : State) : (afterGainPulses n s).lc.gain = s.lc.gain := by
  induction n with
  | zero => rfl
  | succ n ih => rw [afterGainPulses_succ, ← ih]; rfl

/-- A read does not write the gain code (45_loadcell.md R264). -/
theorem afterRead_gain (s : State) : (afterRead s).lc.gain = s.lc.gain := by
  show (afterGainPulses _ _).lc.gain = _
  rw [afterGainPulses_gain, afterShift_gain]
  rfl

/-- The bits and trailing pulses of a read, after its poll. -/
theorem run_readBits {s t : State} (td : List Micro) (samples : List Word) (rest : List Micro)
    (h : t.bc.pending = none) (hc : t.cfg = s.cfg) (hg : t.lc.gain = s.lc.gain) :
    run (shiftProg s 0 ++ (shiftProg s 8 ++ (shiftProg s 16 ++ (gainProg s ++ .lcPhase .idle :: .endRead :: rest))))
        (t.withWork { todo := td, samples := samples }) =
      run rest (({ afterGainPulses t.lc.gain (afterShift 0 24 t) with lc.phase := .idle } : State).withWork
        { todo := td, samples := samples ++ [sampleOf [byteOfBits (levelsAt t.env 0 8), byteOfBits (levelsAt t.env 8 8),
          byteOfBits (levelsAt t.env 16 8)]] }) := by
  have hb (n : Nat) : (afterShift 0 n t).bc.pending = none := by rw [(onlyPins_afterShift _ _ _).bc]; exact h
  have hcc (n : Nat) : (afterShift 0 n t).cfg = s.cfg := (onlyPins_afterShift _ _ _).cfg.trans hc
  have h8 : afterShift 8 8 (afterShift 0 8 t) = afterShift 0 16 t := (afterShift_add 0 8 8 _).symm
  have h16 : afterShift 16 8 (afterShift 0 16 t) = afterShift 0 24 t := (afterShift_add 0 16 8 _).symm
  have hbg : (afterGainPulses s.lc.gain (afterShift 0 24 t)).bc.pending = none := by
    rw [(onlyPins_afterGainPulses _ _).bc]; exact hb 24
  rw [gainProg, run_shift 0 (t := t) _ _ h hc rfl, run_shift 8 _ _ (hb 8) (hcc 8) rfl, h8,
    run_shift 16 _ _ (hb 16) (hcc 16) rfl, h16, run_gainPulses _ _ _ (hb 24) (hcc 24)]
  simp only [afterShift_env, levelsAt_advance, List.nil_append, List.cons_append]
  let g : State := afterGainPulses s.lc.gain (afterShift 0 24 t)
  let u : State := { g with lc.phase := .idle }
  rw [run_goWith (t := g) (u := u)
      (v := { todo := td, bytes := [byteOfBits (levelsAt t.env 0 8), byteOfBits (levelsAt t.env 8 8),
        byteOfBits (levelsAt t.env 16 8)], samples := samples }) _ hbg rfl,
    run_goWith (t := u) (u := u) _ hbg rfl, hg]
  rfl

theorem run_read {s t : State} (samples : List Word) (rest : List Micro) (h : t.bc.pending = none)
    (hc : t.cfg = s.cfg) (hg : t.lc.gain = s.lc.gain) (hr : t.level = false) :
    run (readProg s ++ rest) (t.withWork { samples := samples }) =
      run rest ((afterRead t).withWork { samples := samples ++ [readValue t.env 0] }) := by
  have hpoll : stepMicro (.pollReady (msToNs s.cfg.tReadyPoll)) (t.withWork { samples := samples }) =
      .go (t.sampled.withWork { samples := samples }) := by
    have : (t.withWork { samples := samples }).level = false := hr
    rw [stepMicro, this]; rfl
  simp only [readProg, List.append_assoc, List.cons_append, List.nil_append]
  rw [run_goWith _ h hpoll, run_readBits (t := t.sampled) [] samples rest h hc hg, afterRead]
  simp only [State.sampled_env, levelsAt_advance, ← sampleOf_levels]
  rfl

/-! ### Consecutive reads -/

theorem afterReads_succ (n : Nat) (s : State) : afterReads (n + 1) s = afterReads n (afterRead s) := rfl

theorem onlyPins_afterReads (n : Nat) (s : State) : OnlyPins s (afterReads n s) := by
  induction n generalizing s with
  | zero => rfl
  | succ n ih => exact (onlyPins_afterRead s).trans (ih _)

/-- Reads do not write the gain code, the offset or the scale (45_loadcell.md R264, R266). -/
theorem afterReads_gain (n : Nat) (s : State) : (afterReads n s).lc.gain = s.lc.gain := by
  induction n generalizing s with
  | zero => rfl
  | succ n ih => rw [afterReads_succ, ih, afterRead_gain]

theorem readValue_advance (e : Env) (m k : Nat) : readValue (e.advance m) k = readValue e (m + k) := by
  simp [readValue, levelsAt_advance, Nat.add_assoc]

theorem readValues_succ (e : Env) (n : Nat) :
    readValues e (n + 1) = readValue e 0 :: readValues (e.advance readQuestions) n := by
  simp [readValues, List.range_succ_eq_map, Function.comp_def, readValue_advance, Nat.mul_succ, Nat.add_comm]

theorem readsReady_succ {e : Env} {n : Nat} (h : readsReady e (n + 1)) :
    (e.answer 0).level = false ∧ readsReady (e.advance readQuestions) n :=
  ⟨h 0 (by omega), fun j hj => by
    rw [Env.answer_advance]
    have := h (j + 1) (by omega)
    rwa [Nat.mul_succ, Nat.add_comm] at this⟩

theorem run_reads {s t : State} (n : Nat) (samples : List Word) (rest : List Micro) (h : t.bc.pending = none)
    (hc : t.cfg = s.cfg) (hg : t.lc.gain = s.lc.gain) (hr : readsReady t.env n) :
    run ((List.replicate n (readProg s)).flatten ++ rest) (t.withWork { samples := samples }) =
      run rest ((afterReads n t).withWork { samples := samples ++ readValues t.env n }) := by
  induction n generalizing t samples with
  | zero => simp [afterReads, readValues]
  | succ n ih =>
    have hb : (afterRead t).bc.pending = none := by rw [(onlyPins_afterRead t).bc]; exact h
    have hcc : (afterRead t).cfg = s.cfg := (onlyPins_afterRead t).cfg.trans hc
    have hgg : (afterRead t).lc.gain = s.lc.gain := (afterRead_gain t).trans hg
    have hl := readsReady_succ hr
    rw [List.replicate_succ, List.flatten_cons, List.append_assoc, run_read _ _ h hc hg hl.1,
      ih _ hb hcc hgg (by rw [afterRead_env]; exact hl.2), afterReads_succ, afterRead_env, readValues_succ]
    simp

/-- The sum of samples is the sum of their signed values (45_loadcell.md R266). -/
theorem sampleSum_eq (l : List Word) : sampleSum l = (l.map BitVec.toInt).sum := by
  have h (l : List Word) (a : Int) : l.foldl (fun sum v => sum + v.toInt) a = a + (l.map BitVec.toInt).sum := by
    induction l generalizing a with
    | nil => simp
    | cons v l ih => rw [List.foldl_cons, ih]; simp [Int.add_assoc]
  rw [sampleSum, h, Int.zero_add]

@[simp] theorem length_readValues (e : Env) (n : Nat) : (readValues e n).length = n := by simp [readValues]

theorem meanOf_readValues (e : Env) (n : Nat) : meanOf (readValues e n) = averageValue e n := by
  simp [meanOf, averageValue, sampleSum_eq]

end Sys2Proof.Machine
end

