-- ==== Sys2Proof/Laws/Display.lean ====
section
/-! SUPPORT. The bodies of the driver operations run through once, and the fact that no state of Completed.lean
depends on the values an operation has taken. -/

namespace Sys2Proof.Machine

/-! ### Only the bus and the shadows -/

theorem afterReceive_pending (mode : Mode) (s : State) : (afterReceive mode s).bc.pending = none :=
  afterReadNibble_pending _ _

theorem run_receiveByte {s t : State} (mode : Mode) (rest : List Micro) (h : AnswersReady 18 t) (hl : t.lcd = s.lcd)
    (hc : t.cfg = s.cfg) :
    run (receiveByteProg s mode ++ rest) t =
      run rest ((afterReadNibble mode ((afterReadNibble mode t).takeByte (t.env.answer 5).rx)).takeByte
        (t.env.answer 14).rx) := by
  have h2 : AnswersReady 9 ((afterReadNibble mode t).takeByte (t.env.answer 5).rx) :=
    h.after 9 (by simp) (by simp) (by omega)
  rw [receiveByteProg, List.append_assoc, run_readNibble _ _ (h.mono (by omega)) hl hc,
    run_readNibble _ _ h2 ((onlyBus_afterReadNibble mode t).lcd.trans hl)
      ((onlyBus_afterReadNibble mode t).cfg.trans hc)]
  simp

theorem run_initPulse {s t : State} (nib : Nibble) (ns : Nat) (rest : List Micro) (h : AnswersReady 6 t)
    (hl : t.lcd = s.lcd) (hc : t.cfg = s.cfg) :
    run (pulseProg s nib .cmd ++ .delay ns :: rest) t = run rest (afterInitPulse nib ns t) := by
  rw [run_pulse _ _ _ h hl hc, run_delay _ _ (afterPulse_pending _ _ _), afterInitPulse]

/-! ### The display fields that a byte on the wire depends on -/

/-- The expander bytes of an operation depend on its address and its backlight flag. -/
def sameWire (s t : State) : Prop := t.lcd.addr = s.lcd.addr ∧ t.lcd.bl = s.lcd.bl ∧ t.cfg = s.cfg

theorem sendProg_congr {s t : State} (h : sameWire s t) (value : Byte) (mode : Mode) :
    sendProg s value mode = sendProg t value mode := by
  simp [sendProg, pulseProg, expWriteProg, h.1, h.2.1, h.2.2]

theorem sameWire_setShadow (r : Shadow) (v : Byte) {s t : State} (h : sameWire s t) :
    sameWire s (t.setShadow r v) := by
  cases r <;> exact h

theorem sameWire_onlyBus {s t u : State} (h : sameWire s t) (k : OnlyBus t u) : sameWire s u := by
  rw [k]; exact h

theorem run_sendWire {s t : State} (value : Byte) (mode : Mode) (rest : List Micro) (h : AnswersReady 12 t)
    (hw : sameWire s t) : run (sendProg s value mode ++ rest) t = run rest (afterSend value mode t) := by
  rw [sendProg_congr hw]; exact run_send _ _ _ h rfl rfl

theorem run_shadowCommand {s t : State} (r : Shadow) (v : Byte) (rest : List Micro) (h : AnswersReady 12 t)
    (hw : sameWire s t) :
    run (shadowCommandProg s r v ++ rest) t = run rest (afterShadowCommand r v t) := by
  rw [shadowCommandProg, List.cons_append, run_setShadow _ _ _ h.1, commandProg,
    run_sendWire _ _ _ (h.congr (by simp) (by simp)) (sameWire_setShadow r v hw), afterShadowCommand]

@[simp] theorem afterShadowCommand_env (r : Shadow) (v : Byte) (s : State) :
    (afterShadowCommand r v s).env = s.env.advance 12 := by simp [afterShadowCommand]

@[simp] theorem afterShadowCommand_pending (r : Shadow) (v : Byte) (s : State) :
    (afterShadowCommand r v s).bc.pending = none := afterSend_pending _ _ _

theorem sameWire_afterShadowCommand {s t : State} (r : Shadow) (v : Byte) (h : sameWire s t) :
    sameWire s (afterShadowCommand r v t) :=
  sameWire_onlyBus (sameWire_setShadow r v h) (onlyBus_afterSend _ _ _)

theorem run_clear {s t : State} (rest : List Micro) (h : AnswersReady 12 t) (hw : sameWire s t) :
    run (clearProg s ++ rest) t = run rest (afterClear t) := by
  rw [clearProg, List.append_assoc, commandProg, run_sendWire _ _ _ h hw, List.singleton_append,
    run_delay _ _ (afterSend_pending _ _ _), afterClear, hw.2.2]

@[simp] theorem afterClear_pending (s : State) : (afterClear s).bc.pending = none := by
  rw [afterClear, State.delay_bc, afterSend_pending]

/-! ### init, custom characters, backlight, PWM -/

theorem onlyBus_afterInitPulse (nib : Nibble) (ns : Nat) (s : State) : OnlyBus s (afterInitPulse nib ns s) :=
  (onlyBus_afterPulse nib .cmd s).trans (onlyBus_delay _ _)

@[simp] theorem afterInitPulse_env (nib : Nibble) (ns : Nat) (s : State) :
    (afterInitPulse nib ns s).env = s.env.advance 6 := by simp [afterInitPulse]

@[simp] theorem afterInitPulse_pending (nib : Nibble) (ns : Nat) (s : State) :
    (afterInitPulse nib ns s).bc.pending = none := by rw [afterInitPulse, State.delay_bc, afterPulse_pending]

theorem run_lcdInit {s : State} (rest : List Micro) (h : AnswersReady 72 s) :
    run (lcdInitProg s ++ rest) s = run rest (afterLcdInit s) := by
  simp only [lcdInitProg, List.append_assoc, List.cons_append, List.nil_append, afterLcdInit]
  generalize hs0 : s.delay s.cfg.tPowerOn = s0
  have a0 : AnswersReady 72 s0 := h.congr (by rw [← hs0]; rfl) (by rw [← hs0]; rfl)
  have o0 : OnlyBus s s0 := hs0 ▸ onlyBus_delay _ _
  rw [run_delay _ _ h.1, hs0, run_initPulse _ _ _ (a0.mono (by omega)) o0.lcd o0.cfg]
  generalize hs1 : afterInitPulse 0x3 s.cfg.tInit1 s0 = s1
  have a1 : AnswersReady 66 s1 := a0.after 6 (by rw [← hs1]; simp) (by rw [← hs1]; simp) (by omega)
  have o1 : OnlyBus s s1 := o0.trans (hs1 ▸ onlyBus_afterInitPulse _ _ _)
  rw [run_initPulse _ _ _ (a1.mono (by omega)) o1.lcd o1.cfg]
  generalize hs2 : afterInitPulse 0x3 s.cfg.tInit2 s1 = s2
  have a2 : AnswersReady 60 s2 := a1.after 6 (by rw [← hs2]; simp) (by rw [← hs2]; simp) (by omega)
  have o2 : OnlyBus s s2 := o1.trans (hs2 ▸ onlyBus_afterInitPulse _ _ _)
  rw [run_initPulse _ _ _ (a2.mono (by omega)) o2.lcd o2.cfg]
  generalize hs3 : afterInitPulse 0x3 s.cfg.tInit3 s2 = s3
  have a3 : AnswersReady 54 s3 := a2.after 6 (by rw [← hs3]; simp) (by rw [← hs3]; simp) (by omega)
  have o3 : OnlyBus s s3 := o2.trans (hs3 ▸ onlyBus_afterInitPulse _ _ _)
  rw [run_initPulse _ _ _ (a3.mono (by omega)) o3.lcd o3.cfg]
  generalize hs4 : afterInitPulse 0x2 s.cfg.tInit4 s3 = s4
  have a4 : AnswersReady 48 s4 := a3.after 6 (by rw [← hs4]; simp) (by rw [← hs4]; simp) (by omega)
  have w4 : sameWire s s4 := sameWire_onlyBus ⟨rfl, rfl, rfl⟩ (o3.trans (hs4 ▸ onlyBus_afterInitPulse _ _ _))
  rw [run_shadowCommand _ _ _ (a4.mono (by omega)) w4]
  generalize hs5 : afterShadowCommand .fn _ s4 = s5
  have a5 : AnswersReady 36 s5 := a4.after 12 (by rw [← hs5]; simp) (by rw [← hs5]; simp) (by omega)
  have w5 : sameWire s s5 := hs5 ▸ sameWire_afterShadowCommand _ _ w4
  rw [run_shadowCommand _ _ _ (a5.mono (by omega)) w5]
  generalize hs6 : afterShadowCommand .entry _ s5 = s6
  have a6 : AnswersReady 24 s6 := a5.after 12 (by rw [← hs6]; simp) (by rw [← hs6]; simp) (by omega)
  have w6 : sameWire s s6 := hs6 ▸ sameWire_afterShadowCommand _ _ w5
  rw [run_shadowCommand _ _ _ (a6.mono (by omega)) w6]
  generalize hs7 : afterShadowCommand .ctrl _ s6 = s7
  have a7 : AnswersReady 12 s7 := a6.after 12 (by rw [← hs7]; simp) (by rw [← hs7]; simp) (by omega)
  have w7 : sameWire s s7 := hs7 ▸ sameWire_afterShadowCommand _ _ w6
  rw [run_clear _ a7 w7]

theorem run_createChar {s : State} (loc : Byte) (map : List Byte) (rest : List Micro)
    (h : AnswersReady (12 * (1 + map.length)) s) :
    run (createCharProg s loc map ++ rest) s = run rest (afterCreateChar loc map s) := by
  rw [createCharProg, List.append_assoc, commandProg, run_send _ _ _ (h.mono (by omega)) rfl rfl,
    run_sendAll _ _ (h.after 12 (afterSend_pending _ _ _) (afterSend_env _ _ _) (by omega))
      (onlyBus_afterSend _ _ s).lcd (onlyBus_afterSend _ _ s).cfg, afterCreateChar]

theorem run_setBacklight {s : State} (v : Bit) (rest : List Micro) (h : AnswersReady 6 s) :
    run (setBacklightProg s v ++ rest) s =
      run rest ((afterSetBacklight v s).takeByte (expReadValue s)) := by
  let u : State := { s with lcd.bl := v }
  have hu : AnswersReady 6 u := h
  have hp : expReadProg s = expReadProg u := rfl
  let t : State := (afterExpRead u).takeByte (expReadValue u)
  have ht : AnswersReady 3 t := hu.after 3 rfl (afterExpRead_env u) (by omega)
  let a : State := afterAddress s.lcd.addr .write t
  have ha : AnswersReady 1 a := ht.after 2 rfl (afterAddress_env _ _ t) (by omega)
  have hlast : a.work.lastByte = expReadValue s := by simp [a, t, Work.lastByte, u, expReadValue]
  have hr : run (.rewritePort v :: .wait :: .launch .stop :: rest) a =
      run (actionProg (.tx (withBacklight (expReadValue s) v)) ++ .launch .stop :: rest) a := by
    have hpend : a.bc.pending = none := ha.1
    simp [actionProg, run, State.tick_of_idle_bus hpend, stepMicro, hpend, hlast, slow]
  simp only [setBacklightProg, List.append_assoc, List.cons_append, List.nil_append]
  rw [run_go (t := u) _ h.1 rfl, hp, run_expRead _ (hu.mono (by omega)) rfl, run_address _ _ _ (ht.mono (by omega)),
    hr, run_tx _ _ ha, run_stop _ rfl]
  rfl

theorem run_pwmSetup {s t : State} (rest : List Micro) (h : AnswersReady 8 t) (hp : t.pwm = s.pwm)
    (hc : t.cfg = s.cfg) :
    run (writeRegProg s.pwm.addr [BitVec.ofNat 8 s.cfg.pwmRegMode1, BitVec.ofNat 8 s.cfg.pwmMode1Value] ++
      (writeRegProg s.pwm.addr [BitVec.ofNat 8 s.cfg.pwmRegPrescale, BitVec.ofNat 8 s.cfg.pwmPrescaleValue] ++ rest)) t =
      run rest (afterPwmSetup t) := by
  rw [run_writeReg _ _ _ (h.mono (by simp)),
    run_writeReg _ _ _ (h.after 4 (afterWriteReg_pending _ _ _) (afterWriteReg_env _ _ _) (by simp)), afterPwmSetup, hp, hc]

end Sys2Proof.Machine
end

