-- ==== Sys2Proof/Laws/Operations.lean ====
section
/-! SUPPORT. Issuing an operation: what the shapes of Ops.lean come to when no bus action is pending, and the fact
that the states of Completed.lean do not depend on the values an earlier operation took. -/

namespace Sys2Proof.Machine

/-! ### Issuing -/

theorem begin_next {s : State} (prog : List Micro) (h : s.bc.pending = none) :
    begin prog s = .next (run prog (s.withWork .idle)) := by
  simp [begin, h, State.withWork]

theorem withToken_next {s : State} (prog : List Micro) (ret : Ret) (hh : s.sb.held = true) (h : s.bc.pending = none) :
    withToken prog ret s = .next (run (prog ++ [.ret ret]) (s.withWork .idle)) := by
  rw [withToken, if_pos hh, begin_next _ h]

theorem inPhase_next {s : State} (phase : BusPhase) (prog : List Micro) (ret : Ret) (hh : s.sb.held = true)
    (hp : s.bc.phase = phase) (h : s.bc.pending = none) :
    inPhase phase prog ret s = .next (run (prog ++ [.ret ret]) (s.withWork .idle)) := by
  rw [inPhase, if_neg (by simp [hh]), if_neg (by simp [hp]), begin_next _ h]

theorem driverOp_next {s : State} (prog : List Micro) (ret : Ret) (hh : s.sb.held = false) (h : s.bc.pending = none) :
    driverOp none prog ret s = .next (run (prog ++ [.release, .ret ret]) (s.hold.withWork .idle)) := by
  rw [driverOp, if_neg (by simp [hh])]
  exact begin_next _ h

theorem pinOp_next {s : State} (prog : List Micro) (ret : Ret) (h : s.bc.pending = none) :
    pinOp prog ret s = .next (run (prog ++ [.ret ret]) (s.withWork .idle)) := by
  rw [pinOp, begin_next _ h]

/-- The end of a driver operation (41_shared_bus.md R173). -/
theorem run_driverEnd {s : State} (r : Ret) (h : s.bc.pending = none) :
    run [.release, .ret r] s = s.unhold.finish (s.result r) := by
  rw [run_release _ h, run_ret (s := s.unhold) _ h]
  cases r <;> rfl

theorem State.finish_withWork (w : Work) (r : Result) (s : State) : (s.withWork w).finish r = s.finish r := rfl

/-! ### The values an operation has taken -/

theorem afterBytes_withWork (l : List Byte) (w : Work) (s : State) :
    afterBytes l (s.withWork w) = (afterBytes l s).withWork w := by
  induction l generalizing s with
  | nil => rfl
  | cons b l ih => rw [afterBytes_cons, afterBytes_cons]; exact ih (afterTx b s)

theorem afterWriteReg_withWork (addr : Addr7) (l : List Byte) (w : Work) (s : State) :
    afterWriteReg addr l (s.withWork w) = (afterWriteReg addr l s).withWork w := by
  rw [afterWriteReg, show afterAddress addr .write (s.withWork w) = (afterAddress addr .write s).withWork w from rfl,
    afterBytes_withWork]
  rfl

theorem afterReadReg_withWork (addr : Addr7) (reg : Byte) (n : Nat) (w : Work) (s : State) :
    afterReadReg addr reg n (s.withWork w) = (afterReadReg addr reg n s).withWork w := by
  rw [afterReadReg, show afterAddress addr .read (afterTx reg (afterAddress addr .write (s.withWork w))) =
    (afterAddress addr .read (afterTx reg (afterAddress addr .write s))).withWork w from rfl, afterReadAcks_withWork]
  rfl

theorem afterPing_withWork (addr : Addr7) (w : Work) (s : State) :
    afterPing addr (s.withWork w) = (afterPing addr s).withWork w := rfl

theorem afterScan_withWork (k : Nat) (w : Work) (s : State) :
    afterScan k (s.withWork w) = (afterScan k s).withWork w := by
  induction k with
  | zero => rfl
  | succ k ih => rw [afterScan_succ, afterScan_succ, ih, afterPing_withWork]

theorem afterExpWrite_withWork (b : Byte) (w : Work) (s : State) :
    afterExpWrite b (s.withWork w) = (afterExpWrite b s).withWork w := rfl

theorem afterExpRead_withWork (w : Work) (s : State) :
    afterExpRead (s.withWork w) = (afterExpRead s).withWork w := rfl

theorem afterPulse_withWork (nib : Nibble) (mode : Mode) (w : Work) (s : State) :
    afterPulse nib mode (s.withWork w) = (afterPulse nib mode s).withWork w := rfl

theorem afterSend_withWork (value : Byte) (mode : Mode) (w : Work) (s : State) :
    afterSend value mode (s.withWork w) = (afterSend value mode s).withWork w := by
  rw [afterSend, afterPulse_withWork, afterPulse_withWork, afterSend]

theorem afterSendAll_withWork (l : List Byte) (w : Work) (s : State) :
    afterSendAll l (s.withWork w) = (afterSendAll l s).withWork w := by
  induction l generalizing s with
  | nil => rfl
  | cons b l ih => rw [afterSendAll_cons, afterSendAll_cons, afterSend_withWork, ih]

theorem afterReadNibble_withWork (mode : Mode) (w : Work) (s : State) :
    afterReadNibble mode (s.withWork w) = (afterReadNibble mode s).withWork w := rfl

theorem afterShadowCommand_withWork (r : Shadow) (v : Byte) (w : Work) (s : State) :
    afterShadowCommand r v (s.withWork w) = (afterShadowCommand r v s).withWork w := by
  rw [afterShadowCommand, show (s.withWork w).setShadow r v = (s.setShadow r v).withWork w by cases r <;> rfl,
    afterSend_withWork, afterShadowCommand]

theorem afterClear_withWork (w : Work) (s : State) : afterClear (s.withWork w) = (afterClear s).withWork w := by
  rw [afterClear, afterSend_withWork]; rfl

theorem afterInitPulse_withWork (nib : Nibble) (ns : Nat) (w : Work) (s : State) :
    afterInitPulse nib ns (s.withWork w) = (afterInitPulse nib ns s).withWork w := rfl

theorem afterLcdInit_withWork (w : Work) (s : State) : afterLcdInit (s.withWork w) = (afterLcdInit s).withWork w := by
  simp only [afterLcdInit]
  rw [show ((s.withWork w).delay (s.withWork w).cfg.tPowerOn) = (s.delay s.cfg.tPowerOn).withWork w from rfl]
  simp only [afterInitPulse_withWork, afterShadowCommand_withWork, afterClear_withWork]
  rfl

theorem afterCreateChar_withWork (loc : Byte) (map : List Byte) (w : Work) (s : State) :
    afterCreateChar loc map (s.withWork w) = (afterCreateChar loc map s).withWork w := by
  rw [afterCreateChar, afterSend_withWork, afterSendAll_withWork, afterCreateChar]

theorem afterSetBacklight_withWork (v : Bit) (w : Work) (s : State) :
    afterSetBacklight v (s.withWork w) = (afterSetBacklight v s).withWork w := rfl

theorem afterPwmSetup_withWork (w : Work) (s : State) :
    afterPwmSetup (s.withWork w) = (afterPwmSetup s).withWork w := rfl

theorem afterGainPulses_withWork (n : Nat) (w : Work) (s : State) :
    afterGainPulses n (s.withWork w) = (afterGainPulses n s).withWork w := by
  induction n with
  | zero => rfl
  | succ n ih => rw [afterGainPulses_succ, afterGainPulses_succ, ih]; rfl

theorem afterShift_withWork (base n : Nat) (w : Work) (s : State) :
    afterShift base n (s.withWork w) = (afterShift base n s).withWork w := by
  induction n with
  | zero => rfl
  | succ n ih => rw [afterShift_succ, afterShift_succ, ih]; rfl

end Sys2Proof.Machine
end

