-- ==== Sys2Proof/Laws/Steps.lean ====
section
/-! SUPPORT. Steps and runs of several steps. -/

namespace Sys2Proof.Machine

/-! ### One step -/

theorem step_held {s : State} {m : Micro} {rest : List Micro} (hr : s.refused = false) (ht : s.work.todo = m :: rest)
    (hm : ∀ r, m ≠ .refuse r) : step s = .next (run (m :: rest) s) := by
  unfold step advance
  rw [if_neg (by simp [hr]), ht]
  cases m <;> simp_all

theorem step_issue {s : State} {i : Instr} {rest : List Byte} (hr : s.refused = false) (ht : s.work.todo = [])
    (hd : decode s.cmds = .ok (i, rest)) : step s = exec i { s.tick with cmds := rest } := by
  unfold step advance fetchAndExec
  rw [if_neg (by simp [hr]), ht]
  simp only [State.tick_cmds]
  cases hc : s.cmds with
  | nil => rw [hc] at hd; cases hd
  | cons b l => rw [hc] at hd; simp [hd]

/-- The three ways a step ends in a next state. -/
theorem step_cases {s t : State} (h : step s = .next t) :
    s.refused = false ∧
      ((s.work.todo = [] ∧ s.cmds = [] ∧ t = s.tick) ∨
       (s.work.todo = [] ∧ ∃ i rest, decode s.cmds = .ok (i, rest) ∧ exec i { s.tick with cmds := rest } = .next t) ∨
       (s.work.todo ≠ [] ∧ t = run s.work.todo s)) := by
  unfold step at h
  split at h
  · cases h
  · rename_i hr
    refine ⟨by simpa using hr, ?_⟩
    unfold advance at h
    split at h
    · rename_i ht
      unfold fetchAndExec at h
      simp only [State.tick_cmds] at h
      split at h
      · rename_i hc
        exact .inl ⟨ht, hc, by injection h with h; exact h.symm⟩
      · split at h
        · rename_i i rest hd
          exact .inr (.inl ⟨ht, i, rest, hd, h⟩)
        · cases h
    · cases h
    · rename_i ht
      injection h with h
      exact .inr (.inr ⟨by simp [ht], by rw [ht]; exact h.symm⟩)

/-! ### Several steps -/

theorem runSteps_succ {n : Nat} {s t : State} (h : step s = .next t) : runSteps (n + 1) s = runSteps n t := by
  rw [runSteps, h]

/-- A step after `n` steps is the last of `n + 1`. -/
theorem runSteps_snoc {n : Nat} {s t : State} (h : runSteps n s = .next t) : runSteps (n + 1) s = step t := by
  induction n generalizing s with
  | zero =>
    cases h
    rw [runSteps]
    cases step t <;> rfl
  | succ n ih =>
    cases hs : step s with
    | next u => rw [runSteps_succ hs] at h ⊢; exact ih h
    | fault r => cases r
    | refused r => rw [runSteps, hs] at h; cases h

/-- It is the host's run of the machine. -/
theorem runSteps_eq_core_run (n : Nat) (s : State) : Host.Core.run core n s = runSteps n s := by
  induction n generalizing s with
  | zero => rfl
  | succ n ih =>
    rw [runSteps]
    cases hs : step s with
    | next u =>
      have hc : core.step s = .next u := hs
      simp only [Host.Core.run, hc]
      exact ih u
    | fault r => cases r
    | refused r =>
      have hc : core.step s = .refused r := hs
      simp only [Host.Core.run, hc]
      rfl

end Sys2Proof.Machine
end

