-- ==== Sys2Proof/Laws/Wire.lean ====
section
/-! SUPPORT. The wire events of the states of Completed.lean, and reading back what the encoder writes. -/

namespace Sys2Proof.Machine

/-! ### Two-wire events -/

theorem startEvent_eq (p : BusPhase) : startEvent p = if p = .idle then .start else .repStart := by cases p <;> rfl

theorem sentBytes_cons (e : Env) (k : Nat) (b : Byte) (l : List Byte) :
    sentBytes e k (b :: l) = .tx b (e.answer k).ack :: sentBytes e (k + 1) l := by
  simp only [sentBytes, List.zipIdx_cons', List.map_cons, List.map_map]
  congr 1
  exact List.map_congr_left fun p _ => by simp [Nat.add_assoc, Nat.add_comm 1]

theorem sentBytes_advance (e : Env) (m k : Nat) (l : List Byte) :
    sentBytes (e.advance m) k l = sentBytes e (m + k) l := by simp [sentBytes, Nat.add_assoc]

theorem afterBytes_hist (l : List Byte) (s : State) : (afterBytes l s).hist = s.hist ++ sentBytes s.env 0 l := by
  have h (k : Nat) (e : Env) (hs : s.env = e.advance k) : (afterBytes l s).hist = s.hist ++ sentBytes e k l := by
    induction l generalizing s k with
    | nil => simp [afterBytes, sentBytes]
    | cons b l ih =>
      rw [afterBytes_cons, ih (k := k + 1) (afterTx b s) (by simp [hs]), sentBytes_cons]
      simp [hs]
  exact h 0 s.env (by simp)

theorem afterAddress_hist (addr : Addr7) (dir : Dir) (s : State) :
    (afterAddress addr dir s).hist =
      s.hist ++ [startEvent s.bc.phase, .tx (addressByte addr dir) (s.env.answer 1).ack] := by simp [afterAddress]

theorem afterWriteReg_hist (addr : Addr7) (l : List Byte) (s : State) :
    (afterWriteReg addr l s).hist = s.hist
      ++ [startEvent s.bc.phase, .tx (addressByte addr .write) (s.env.answer 1).ack] ++ sentBytes s.env 2 l ++ [.stop] := by
  simp [afterWriteReg, afterBytes_hist, afterAddress_hist, sentBytes_advance]

theorem afterPing_hist (addr : Addr7) (s : State) :
    (afterPing addr s).hist =
      s.hist ++ [startEvent s.bc.phase, .tx (addressByte addr .write) (s.env.answer 1).ack, .stop] := by
  simp [afterPing, afterAddress_hist]

/-! ### Pin events -/

theorem afterShift_hist (base n : Nat) (s : State) :
    (afterShift base n s).hist = s.hist ++ (levelsAt s.env 0 n).flatMap (bitGroup s.cfg) := by
  induction n with
  | zero => simp [afterShift, levelsAt]
  | succ n ih =>
    let u : State := { afterShift base n s with lc.phase := .shifting (base + n) }
    have h : (afterShift base (n + 1) s).hist = u.hist ++ bitGroup u.cfg u.level := by
      rw [afterShift_succ]
      show (((((u.driveClk true).delay u.cfg.tLcHigh).sampled).driveClk false).delay u.cfg.tLcLow).hist = _
      simp [bitGroup]
      rfl
    rw [h, levelsAt_succ, show u.hist = (afterShift base n s).hist from rfl, ih,
      show u.cfg = s.cfg from (onlyPins_afterShift base n s).cfg,
      show u.level = ((afterShift base n s).env.answer 0).level from rfl]
    simp

theorem afterGainPulses_hist (n : Nat) (s : State) :
    (afterGainPulses n s).hist = s.hist ++ (List.replicate n (pulseGroup s.cfg)).flatten := by
  induction n with
  | zero => simp [afterGainPulses]
  | succ n ih =>
    let u : State := { afterGainPulses n s with lc.phase := .gainSelect n }
    have h : (afterGainPulses (n + 1) s).hist = u.hist ++ pulseGroup u.cfg := by
      rw [afterGainPulses_succ]
      show ((((u.driveClk true).delay u.cfg.tLcHigh).driveClk false).delay u.cfg.tLcLow).hist = _
      simp [pulseGroup]
    rw [h, List.replicate_succ', show u.hist = (afterGainPulses n s).hist from rfl, ih,
      show u.cfg = s.cfg from (onlyPins_afterGainPulses n s).cfg]
    simp

/-! ### Operand bytes -/

theorem half_join (v : Half) : (v.extractLsb' 8 8 ++ v.extractLsb' 0 8 : BitVec 16) = v := by
  apply BitVec.eq_of_toNat_eq
  simp only [BitVec.toNat_append, BitVec.extractLsb'_toNat]
  rw [← Nat.shiftLeft_add_eq_or_of_lt (by omega), Nat.shiftLeft_eq, Nat.shiftRight_eq_div_pow,
    Nat.shiftRight_eq_div_pow]
  omega

theorem word_join (v : Word) : (v.extractLsb' 16 16 ++ v.extractLsb' 0 16 : BitVec 32) = v := by
  apply BitVec.eq_of_toNat_eq
  simp only [BitVec.toNat_append, BitVec.extractLsb'_toNat]
  rw [← Nat.shiftLeft_add_eq_or_of_lt (by omega), Nat.shiftLeft_eq, Nat.shiftRight_eq_div_pow,
    Nat.shiftRight_eq_div_pow]
  omega

theorem readHalf_halfBytes (v : Half) (rest : List Byte) : readHalf (halfBytes v ++ rest) = .ok (v, rest) := by
  conv_rhs => rw [← half_join v]
  rfl

theorem readWord_wordBytes (v : Word) (rest : List Byte) : readWord (wordBytes v ++ rest) = .ok (v, rest) := by
  simp only [readWord, wordBytes, Reader.andThen, List.append_assoc, readHalf_halfBytes, Reader.done]
  rw [word_join]

theorem readNat_digits (fuel n : Nat) (h : n ≤ fuel) (rest : List Byte) :
    readNat (natDigits fuel n ++ rest) = .ok (n, rest) := by
  induction fuel generalizing n with
  | zero =>
    obtain rfl : n = 0 := by omega
    rfl
  | succ fuel ih =>
    rw [natDigits]
    split
    · rename_i hn
      have : (BitVec.ofNat 8 n).toNat = n := by simp; omega
      simp [readNat, hn, Nat.mod_eq_of_lt (show n < 256 by omega)]
    · rename_i hn
      have h8 : (BitVec.ofNat 8 (128 + n % 128)).toNat = 128 + n % 128 := by simp; omega
      rw [List.cons_append, readNat, h8, if_neg (by omega), ih (n / 128) (by omega)]
      simp only
      rw [if_neg (by omega)]
      congr 2
      omega

theorem readNat_natBytes (n : Nat) (rest : List Byte) : readNat (natBytes n ++ rest) = .ok (n, rest) :=
  readNat_digits n n (Nat.le_refl _) rest

theorem readBytes_append (l rest : List Byte) : readBytes l.length (l ++ rest) = .ok (l, rest) := by
  induction l with
  | nil => rfl
  | cons b l ih => simp [readBytes, Reader.andThen, readByte, ih, Reader.done]

theorem readList_listBytes (l rest : List Byte) : readList (listBytes l ++ rest) = .ok (l, rest) := by
  simp [readList, Reader.andThen, listBytes, readNat_natBytes, readBytes_append]

end Sys2Proof.Machine
end

