-- ==== Sys2Proof/Laws/Decoding.lean ====
section
/-! SUPPORT. The operand readers: each reads back what the encoder writes, and accepts nothing else (log 1). -/

namespace Sys2Proof.Machine

open Sys2Proof

theorem readBit_bitByte (b : Bit) (rest) : readBit (bitByte b :: rest) = .ok (b, rest) := by cases b <;> rfl

theorem readMode_bitByte (b : Mode) (rest) : readMode (bitByte b.bit :: rest) = .ok (b, rest) := by cases b <;> rfl

theorem readDir_bitByte (b : Dir) (rest) : readDir (bitByte b.bit :: rest) = .ok (b, rest) := by cases b <;> rfl

theorem readNibble_byte (n : Nibble) (rest) : readNibble (n.setWidth 8 :: rest) = .ok (n, rest) := by
  have h : ∀ n : Nibble, (n.setWidth 8).toNat < 16 ∧ (n.setWidth 8).setWidth 4 = n := by decide
  show (if (n.setWidth 8).toNat < 16 then Reader.done ((n.setWidth 8).setWidth 4)
    else Reader.fail .operandOutsideType) rest = _
  rw [if_pos (h n).1, (h n).2]
  rfl

theorem readBase_byte (b : ShiftBase) (rest) : readBase (BitVec.ofNat 8 b.toNat :: rest) = .ok (b, rest) := by
  cases b <;> rfl

theorem readAction_actionBytes (a : BusAction) (rest) : readAction (actionBytes a ++ rest) = .ok (a, rest) := by
  cases a <;> try rfl
  rename_i m; cases m <;> rfl

/-- What a reader accepts is the encoding of what it reads, and what follows. -/
def Tight {α} (p : Reader α) (enc : α → List Byte) : Prop :=
  ∀ bs a rest, p bs = .ok (a, rest) → bs = enc a ++ rest

theorem tight_readByte : Tight Sys2Proof.readByte (fun b => [b]) := by
  intro bs a rest h; cases bs <;> cases h; rfl

theorem andThen_ok {α β} {p : Reader α} {f : α → Reader β} {bs b rest} (h : p.andThen f bs = .ok (b, rest)) :
    ∃ a r, p bs = .ok (a, r) ∧ f a r = .ok (b, rest) := by
  unfold Reader.andThen at h
  split at h
  · exact ⟨_, _, by assumption, h⟩
  · cases h

theorem done_ok {α} {a b : α} {bs rest} (h : Reader.done a bs = .ok (b, rest)) : b = a ∧ rest = bs := by
  cases h
  exact ⟨rfl, rfl⟩

theorem tight_readBit : Tight readBit (fun b => [bitByte b]) := by
  intro bs a rest h
  obtain ⟨b, r, h1, h2⟩ := andThen_ok h
  have := tight_readByte _ _ _ h1; subst this
  split at h2
  · obtain ⟨rfl, rfl⟩ := done_ok h2; simp_all [bitByte]
  · split at h2
    · obtain ⟨rfl, rfl⟩ := done_ok h2; simp_all [bitByte]
    · cases h2

theorem tight_readDir : Tight readDir (fun b => [bitByte b.bit]) := by
  intro bs a rest h
  obtain ⟨b, r, h1, h2⟩ := andThen_ok h
  have := tight_readBit _ _ _ h1; subst this
  obtain ⟨rfl, rfl⟩ := done_ok h2; cases b <;> rfl

theorem tight_readMode : Tight readMode (fun b => [bitByte b.bit]) := by
  intro bs a rest h
  obtain ⟨b, r, h1, h2⟩ := andThen_ok h
  have := tight_readBit _ _ _ h1; subst this
  obtain ⟨rfl, rfl⟩ := done_ok h2; cases b <;> rfl

theorem tight_readNibble : Tight readNibble (fun n => [n.setWidth 8]) := by
  intro bs a rest h
  obtain ⟨b, r, h1, h2⟩ := andThen_ok h
  have := tight_readByte _ _ _ h1; subst this
  split at h2
  · obtain ⟨rfl, rfl⟩ := done_ok h2
    rename_i hb
    have : ∀ b : Byte, b.toNat < 16 → (b.setWidth 4).setWidth 8 = b := by decide
    simp [this b hb]
  · cases h2

theorem extract_low {w : Nat} (a b : BitVec w) : (a ++ b : BitVec (w + w)).extractLsb' 0 w = b := by
  apply BitVec.eq_of_getLsbD_eq; intro i hi; rw [BitVec.getLsbD_extractLsb', BitVec.getLsbD_append]; simp [hi]

theorem extract_high {w : Nat} (a b : BitVec w) : (a ++ b : BitVec (w + w)).extractLsb' w w = a := by
  apply BitVec.eq_of_getLsbD_eq; intro i hi; rw [BitVec.getLsbD_extractLsb', BitVec.getLsbD_append]; simp [hi]

theorem tight_readHalf : Tight readHalf halfBytes := by
  intro bs a rest h
  obtain ⟨b, r, h1, h2⟩ := andThen_ok h
  obtain ⟨b', r', h3, h4⟩ := andThen_ok h2
  have := tight_readByte _ _ _ h1; subst this
  have := tight_readByte _ _ _ h3; subst this
  obtain ⟨rfl, rfl⟩ := done_ok h4
  have e1 : (b' ++ b : BitVec 16).extractLsb' 0 8 = b := extract_low b' b
  have e2 : (b' ++ b : BitVec 16).extractLsb' 8 8 = b' := extract_high b' b
  simp only [halfBytes]; erw [e1, e2]; rfl

theorem tight_readWord : Tight readWord wordBytes := by
  intro bs a rest h
  obtain ⟨b, r, h1, h2⟩ := andThen_ok h
  obtain ⟨b', r', h3, h4⟩ := andThen_ok h2
  have := tight_readHalf _ _ _ h1; subst this
  have := tight_readHalf _ _ _ h3; subst this
  obtain ⟨rfl, rfl⟩ := done_ok h4
  have e1 : (b' ++ b : BitVec 32).extractLsb' 0 16 = b := extract_low b' b
  have e2 : (b' ++ b : BitVec 32).extractLsb' 16 16 = b' := extract_high b' b
  simp only [wordBytes]; erw [e1, e2]; simp

theorem natDigits_fuel (f n : Nat) (h : n ≤ f) : natDigits f n = natDigits n n := by
  induction n using Nat.strong_induction_on generalizing f with
  | _ n ih =>
    cases f with
    | zero =>
      obtain rfl : n = 0 := by omega
      rfl
    | succ f =>
      cases n with
      | zero => rfl
      | succ n =>
        rw [natDigits, natDigits]
        split
        · rfl
        · rw [ih ((n+1)/128) (by omega) f (by omega), ih ((n+1)/128) (by omega) n (by omega)]

theorem tight_readNat : Tight readNat natBytes := by
  intro bs
  induction bs with
  | nil => intro a rest h; cases h
  | cons b l ih =>
    intro a rest h
    rw [readNat] at h
    have hb := b.isLt
    split at h
    · rename_i hlt
      cases h
      have : natBytes b.toNat = [b] := by
        unfold natBytes
        cases hn : b.toNat with
        | zero =>
          have : b = 0 := by apply BitVec.eq_of_toNat_eq; simpa using hn
          subst this; rfl
        | succ n => rw [natDigits, if_pos (by omega), ← hn]; simp
      rw [this]; rfl
    · split at h
      · rename_i m r hm
        split at h
        · cases h
        · cases h
          have := ih _ _ hm
          subst this
          have h1 : natBytes (b.toNat - 128 + 128 * m) = b :: natBytes m := by
            unfold natBytes
            obtain ⟨k, hk⟩ : ∃ k, b.toNat - 128 + 128 * m = k + 1 := ⟨b.toNat - 128 + 128 * m - 1, by omega⟩
            rw [hk, natDigits, if_neg (by omega), ← hk,
              show (b.toNat - 128 + 128 * m) / 128 = m by omega, natDigits_fuel k m (by omega)]
            congr 1
            apply BitVec.eq_of_toNat_eq; simp; omega
          rw [h1]; rfl
      · cases h

theorem readBytes_eq (k : Nat) : ∀ bs a rest, readBytes k bs = .ok (a, rest) → bs = a ++ rest ∧ a.length = k := by
  induction k with
  | zero => intro bs a rest h; obtain ⟨rfl, rfl⟩ := done_ok h; simp
  | succ k ih =>
    intro bs a rest h
    obtain ⟨b, r, h1, h2⟩ := andThen_ok h
    obtain ⟨b', r', h3, h4⟩ := andThen_ok h2
    have := tight_readByte _ _ _ h1; subst this
    obtain ⟨rfl, hl⟩ := ih _ _ _ h3
    obtain ⟨rfl, rfl⟩ := done_ok h4
    simp [hl]

theorem tight_readList : Tight readList listBytes := by
  intro bs a rest h
  obtain ⟨b, r, h1, h2⟩ := andThen_ok h
  have := tight_readNat _ _ _ h1; subst this
  obtain ⟨rfl, hl⟩ := readBytes_eq _ _ _ _ h2
  simp [listBytes, hl]

theorem byte_eq {b : Byte} {k : Nat} (hk : k < 256) (h : b.toNat = k) : b = BitVec.ofNat 8 k := by
  apply BitVec.eq_of_toNat_eq
  rw [h, BitVec.toNat_ofNat]
  omega

theorem tight_readAction : Tight readAction actionBytes := by
  intro bs a rest h
  obtain ⟨b, r, h1, h2⟩ := andThen_ok h
  have := tight_readByte _ _ _ h1; subst this
  obtain ⟨g, hg, h2⟩ : ∃ g : Reader _, _ = g ∧ g r = .ok (a, rest) := ⟨_, rfl, h2⟩
  split at hg <;> subst hg
  · rename_i hk
    obtain ⟨rfl, rfl⟩ := done_ok h2
    rw [byte_eq (by omega) hk]
    rfl
  · rename_i hk
    obtain ⟨c, r', h3, h4⟩ := andThen_ok h2
    have := tight_readByte _ _ _ h3
    subst this
    obtain ⟨rfl, rfl⟩ := done_ok h4
    rw [byte_eq (by omega) hk]
    rfl
  · rename_i hk
    obtain ⟨c, r', h3, h4⟩ := andThen_ok h2
    have := tight_readBit _ _ _ h3
    subst this
    obtain ⟨rfl, rfl⟩ := done_ok h4
    rw [byte_eq (by omega) hk]
    rfl
  · rename_i hk
    obtain ⟨rfl, rfl⟩ := done_ok h2
    rw [byte_eq (by omega) hk]
    rfl
  · cases h2

theorem tight_readBase : Tight readBase (fun b => [BitVec.ofNat 8 b.toNat]) := by
  intro bs a rest h
  obtain ⟨b, r, h1, h2⟩ := andThen_ok h
  have := tight_readByte _ _ _ h1; subst this
  obtain ⟨g, hg, h2⟩ : ∃ g : Reader _, _ = g ∧ g r = .ok (a, rest) := ⟨_, rfl, h2⟩
  split at hg <;> subst hg
  · rename_i hk
    obtain ⟨rfl, rfl⟩ := done_ok h2
    rw [byte_eq (by omega) hk]
    rfl
  · rename_i hk
    obtain ⟨rfl, rfl⟩ := done_ok h2
    rw [byte_eq (by omega) hk]
    rfl
  · rename_i hk
    obtain ⟨rfl, rfl⟩ := done_ok h2
    rw [byte_eq (by omega) hk]
    rfl
  · cases h2

end Sys2Proof.Machine
end

