-- ==== Sys2Proof/Laws/Frames.lean ====
section
/-! SUPPORT. What holds along every run of an operation, holds and refusals included: the two inductions over `run`,
and which primitive steps each operation is made of. -/

namespace Sys2Proof.Machine

/-! ### Induction over a run -/

/-- The state a primitive step leads to. -/
def Progress.state : Progress → State
  | .go s => s
  | .hold s => s
  | .ended s => s
  | .refuse _ s => s

/-- A relation that the oracle's chance, each of the operation's primitive steps and a change of the continuation keep
holds between the state an operation starts in and the state it ends or holds in. -/
theorem run_rel {R : State → State → Prop} (trans : ∀ {s t u}, R s t → R t u → R s u)
    (tick : ∀ s, R s s.tick) (setTodo : ∀ s todo, R s { s with work.todo := todo }) (todo : List Micro)
    (micro : ∀ m ∈ todo, ∀ s, R s (stepMicro m s).state) (s : State) : R s (run todo s) := by
  induction todo generalizing s with
  | nil => exact setTodo s []
  | cons m rest ih =>
    have hm := trans (tick s) (micro m (by simp) s.tick)
    simp only [run]
    cases hp : stepMicro m s.tick <;> rw [hp] at hm
    · exact trans hm (ih (fun m' h => micro m' (by simp [h])) _)
    · exact trans hm (setTodo _ _)
    · exact trans hm (setTodo _ _)
    · exact trans hm (setTodo _ _)

/-- A property of a continuation and a state that each primitive step keeps gives the property of the end. -/
theorem run_inv {P : List Micro → State → Prop} {Q : State → Prop} (nil : ∀ s, P [] s → Q { s with work.todo := [] })
    (tick : ∀ todo s, P todo s → P todo s.tick)
    (go : ∀ m rest s t, P (m :: rest) s → stepMicro m s = .go t → P rest t)
    (hold : ∀ m rest s t, P (m :: rest) s → stepMicro m s = .hold t → Q { t with work.todo := m :: rest })
    (ends : ∀ m rest s t, P (m :: rest) s → stepMicro m s = .ended t → Q { t with work.todo := [] })
    (refuse : ∀ m rest s r t, P (m :: rest) s → stepMicro m s = .refuse r t → Q { t with work.todo := [.refuse r] })
    (todo : List Micro) (s : State) (h : P todo s) : Q (run todo s) := by
  induction todo generalizing s with
  | nil => exact nil s h
  | cons m rest ih =>
    have ht := tick _ _ h
    simp only [run]
    cases hp : stepMicro m s.tick with
    | go t => exact ih t (go m rest _ t ht hp)
    | hold t => exact hold m rest _ t ht hp
    | ended t => exact ends m rest _ t ht hp
    | refuse r t => exact refuse m rest _ r t ht hp

theorem begin_eq {prog : List Micro} {s t : State} (h : begin prog s = .next t) :
    t = run prog { s with work := .idle } := by
  unfold begin at h
  split at h
  · cases h
  · injection h with h; exact h.symm

theorem withToken_eq {prog : List Micro} {ret : Ret} {s t : State} (h : withToken prog ret s = .next t) :
    s.sb.held = true ∧ t = run (prog ++ [.ret ret]) { s with work := .idle } := by
  unfold withToken at h
  split at h
  · exact ⟨by assumption, begin_eq h⟩
  · cases h

theorem inPhase_eq {phase : BusPhase} {prog : List Micro} {ret : Ret} {s t : State}
    (h : inPhase phase prog ret s = .next t) :
    s.sb.held = true ∧ s.bc.phase = phase ∧ t = run (prog ++ [.ret ret]) { s with work := .idle } := by
  unfold inPhase at h
  split at h
  · cases h
  · split at h
    · cases h
    · exact ⟨by simp_all, by simp_all, begin_eq h⟩

theorem driverOp_eq {check : Option Refusal} {prog : List Micro} {ret : Ret} {s t : State}
    (h : driverOp check prog ret s = .next t) :
    (s.sb.held = true ∧ t = s.raise .busBusy) ∨
    (s.sb.held = false ∧ check = none ∧ t = run (prog ++ [.release, .ret ret]) { s.hold with work := .idle }) := by
  unfold driverOp at h
  split at h
  · injection h with h; exact .inl ⟨by assumption, h.symm⟩
  · split at h
    · cases h
    · exact .inr ⟨by simp_all, rfl, begin_eq h⟩

theorem pinOp_eq {prog : List Micro} {ret : Ret} {s t : State} (h : pinOp prog ret s = .next t) :
    t = run (prog ++ [.ret ret]) { s with work := .idle } := begin_eq h

/-! ### The primitive steps of the programs -/

/-- A primitive step that operation `i`, issued in `s`, may take: bus steps for every operation on the two-wire bus, pin
steps for the load cell, and the writes the operation is named for. -/
def mayTake (i : Instr) (s : State) (m : Micro) : Prop :=
  match m with
  | .launch _ => partOf i ≠ .loadCell
  | .wait => partOf i ≠ .loadCell
  | .addressed _ _ => partOf i ≠ .loadCell
  | .takeByte => partOf i ≠ .loadCell
  | .takeAck => partOf i ≠ .loadCell
  | .needAck => i = .pwmInit
  | .delay _ => partOf i ≠ .controller
  | .setShadow r v =>
    partOf i = .driver ∧ writesShadow r i = true
      ∧ ((∀ q : Shadow, commandClass (s.shadow q) = q.classBit) → commandClass v = r.classBit)
  | .setBl _ => partOf i = .driver ∧ writesBacklight i = true
  | .rewritePort _ => partOf i = .driver
  | .clk _ => partOf i = .loadCell
  | .lcPhase p => partOf i = .loadCell ∧ (s.lc.gain ≤ 3 → p.legal)
  | .takeBit => partOf i = .loadCell
  | .endByte => partOf i = .loadCell
  | .endRead => partOf i = .loadCell
  | .takeReady => partOf i = .loadCell
  | .pollReady _ => partOf i = .loadCell
  | .pollRetry _ _ => partOf i = .loadCell
  | .storeOffset => ∃ count, i = .tare count
  | .release => False
  | .ret _ => False
  | .refuse _ => False

/-- Every step of a program is one its operation may take. -/
def allTake (i : Instr) (s : State) (prog : List Micro) : Prop := ∀ m ∈ prog, mayTake i s m

@[simp] theorem allTake_nil (i : Instr) (s : State) : allTake i s [] := by simp [allTake]

@[simp] theorem allTake_cons (i : Instr) (s : State) (m : Micro) (l : List Micro) :
    allTake i s (m :: l) ↔ mayTake i s m ∧ allTake i s l := by simp [allTake]

@[simp] theorem allTake_append (i : Instr) (s : State) (l l' : List Micro) :
    allTake i s (l ++ l') ↔ allTake i s l ∧ allTake i s l' := by
  simp only [allTake, List.mem_append]
  exact ⟨fun h => ⟨fun m hm => h m (.inl hm), fun m hm => h m (.inr hm)⟩, fun h m hm => hm.elim (h.1 m) (h.2 m)⟩

theorem allTake_flatMap {α : Type} (i : Instr) (s : State) (l : List α) (f : α → List Micro)
    (h : ∀ a ∈ l, allTake i s (f a)) : allTake i s (l.flatMap f) := by
  intro m hm
  obtain ⟨a, ha, hma⟩ := List.mem_flatMap.1 hm
  exact h a ha m hma

theorem allTake_flatten_replicate (i : Instr) (s : State) (n : Nat) (l : List Micro) (h : allTake i s l) :
    allTake i s (List.replicate n l).flatten := by
  intro m hm
  obtain ⟨a, ha, hma⟩ := List.mem_flatten.1 hm
  rw [(List.mem_replicate.1 ha).2] at hma
  exact h m hma

theorem allTake_address {i : Instr} (s : State) (hi : partOf i ≠ .loadCell) (addr : Addr7) (dir : Dir) :
    allTake i s (addressProg addr dir) := by
  simp [addressProg, actionProg, mayTake, hi]

theorem allTake_writeReg {i : Instr} (s : State) (hi : partOf i ≠ .loadCell) (addr : Addr7) (l : List Byte) :
    allTake i s (writeRegProg addr l) := by
  have := allTake_flatMap i s l (fun b => actionProg (.tx b)) (fun b _ => by simp [actionProg, mayTake, hi])
  simp [writeRegProg, bytesProg, allTake_address s hi, mayTake, hi, this]

theorem allTake_readReg {i : Instr} (s : State) (hi : partOf i ≠ .loadCell) (addr : Addr7) (reg : Byte) (n : Nat) :
    allTake i s (readRegProg addr reg n) := by
  have := allTake_flatten_replicate i s (n - 1) (receiveProg true) (by simp [receiveProg, actionProg, mayTake, hi])
  simp only [readRegProg, allTake_append, allTake_address s hi, this]
  simp [receiveProg, actionProg, mayTake, hi]

theorem allTake_ping {i : Instr} (s : State) (hi : partOf i ≠ .loadCell) (addr : Addr7) :
    allTake i s (pingProg addr) := by
  simp [pingProg, allTake_address s hi, mayTake, hi]

theorem allTake_scan {i : Instr} (s : State) (hi : partOf i ≠ .loadCell) : allTake i s scanProg :=
  allTake_flatMap i s _ _ fun _ _ => allTake_ping s hi _

theorem allTake_expRead {i : Instr} (s u : State) (hi : partOf i ≠ .loadCell) : allTake i s (expReadProg u) := by
  simp [expReadProg, receiveProg, actionProg, allTake_address s hi, mayTake, hi]

theorem allTake_pulse {i : Instr} (s u : State) (hi : partOf i = .driver ∨ partOf i = .internal) (nib : Nibble)
    (mode : Mode) : allTake i s (pulseProg u nib mode) := by
  have h1 : partOf i ≠ .loadCell := by rcases hi with h | h <;> simp [h]
  have h2 : partOf i ≠ .controller := by rcases hi with h | h <;> simp [h]
  simp [pulseProg, expWriteProg, allTake_writeReg s h1, mayTake, h2]

theorem allTake_send {i : Instr} (s u : State) (hi : partOf i = .driver ∨ partOf i = .internal) (v : Byte)
    (mode : Mode) : allTake i s (sendProg u v mode) := by
  simp [sendProg, allTake_pulse s u hi]

theorem allTake_sendAll {i : Instr} (s u : State) (hi : partOf i = .driver ∨ partOf i = .internal) (l : List Byte) :
    allTake i s (sendAllProg u l) := allTake_flatMap i s _ _ fun _ _ => allTake_send s u hi _ _

theorem allTake_readNibble {i : Instr} (s u : State) (hi : partOf i = .driver ∨ partOf i = .internal) (mode : Mode) :
    allTake i s (readNibbleProg u mode) := by
  have h1 : partOf i ≠ .loadCell := by rcases hi with h | h <;> simp [h]
  have h2 : partOf i ≠ .controller := by rcases hi with h | h <;> simp [h]
  simp [readNibbleProg, expWriteProg, allTake_writeReg s h1, allTake_expRead s u h1, mayTake, h2]

theorem allTake_setBacklight {i : Instr} (s u : State) (hi : partOf i = .driver) (hb : writesBacklight i = true)
    (v : Bit) : allTake i s (setBacklightProg u v) := by
  have h1 : partOf i ≠ .loadCell := by simp [hi]
  simp [setBacklightProg, allTake_expRead s u h1, allTake_address s h1, mayTake, hi, hb]

theorem allTake_lcPulse {i : Instr} (s u : State) (hi : partOf i = .loadCell) : allTake i s (lcPulseProg u) := by
  simp [lcPulseProg, mayTake, hi]

theorem allTake_shift {i : Instr} (s u : State) (hi : partOf i = .loadCell) (base : Nat) (hb : base ≤ 16) :
    allTake i s (shiftProg u base) := by
  have := allTake_flatMap i s (List.range 8) (fun j => shiftBitProg u (base + j)) (fun j hj => by
    have : j < 8 := by simpa using hj
    simp [shiftBitProg, mayTake, hi, LcPhase.legal]
    omega)
  simp [shiftProg, this, mayTake, hi]

theorem allTake_read {i : Instr} (s : State) (hi : partOf i = .loadCell) : allTake i s (readProg s) := by
  have := allTake_flatMap i s (List.range s.lc.gain) (fun k => .lcPhase (.gainSelect k) :: lcPulseProg s)
    (fun k hk => by
      have : k < s.lc.gain := by simpa using hk
      simp [allTake_lcPulse s s hi, mayTake, hi, LcPhase.legal]
      omega)
  simp [readProg, gainProg, this, allTake_shift s s hi, mayTake, hi, LcPhase.legal]

theorem allTake_reads {i : Instr} (s : State) (hi : partOf i = .loadCell) (count : Byte) :
    allTake i s (readsProg s count) := allTake_flatten_replicate i s _ _ (allTake_read s hi)

/-! ### What an issued operation runs -/

/-- What operation `i`, issued in `s` and ending or holding in `t`, ran: nothing but its result, or a program of steps
it may take, from `s` or from `s` with the handle taken. -/
inductive Issued (i : Instr) (s t : State) : Prop where
  /-- A driver operation on a held handle. -/
  | busy (part : partOf i = .driver) (held : s.sb.held = true) (eq : t = s.raise .busBusy)
  /-- A driver operation, inside its acquisition. -/
  | driver (part : partOf i = .driver) (free : s.sb.held = false) (prog : List Micro) (ret : Ret)
      (steps : allTake i s prog) (eq : t = run (prog ++ [.release, .ret ret]) { s.hold with work := .idle })
  /-- An operation inside its caller's acquisition. -/
  | inner (part : partOf i = .controller ∨ partOf i = .internal) (held : s.sb.held = true) (prog : List Micro) (ret : Ret)
      (steps : allTake i s prog) (eq : t = run (prog ++ [.ret ret]) { s with work := .idle })
  /-- An operation of the load cell. -/
  | pins (part : partOf i = .loadCell) (prog : List Micro) (ret : Ret) (steps : allTake i s prog)
      (eq : t = run (prog ++ [.ret ret]) { s with work := .idle })

theorem issued_withToken {i : Instr} {prog : List Micro} {ret : Ret} {s t : State}
    (part : partOf i = .controller ∨ partOf i = .internal) (hp : allTake i s prog) (h : withToken prog ret s = .next t) :
    Issued i s t :=
  .inner part (withToken_eq h).1 prog ret hp (withToken_eq h).2

theorem issued_inPhase {i : Instr} {phase : BusPhase} {prog : List Micro} {ret : Ret} {s t : State}
    (part : partOf i = .controller ∨ partOf i = .internal) (hp : allTake i s prog)
    (h : inPhase phase prog ret s = .next t) : Issued i s t :=
  .inner part (inPhase_eq h).1 prog ret hp (inPhase_eq h).2.2

theorem issued_driverOp {i : Instr} {check : Option Refusal} {prog : List Micro} {ret : Ret} {s t : State}
    (part : partOf i = .driver) (hp : allTake i s prog) (h : driverOp check prog ret s = .next t) : Issued i s t := by
  obtain ⟨hh, he⟩ | ⟨hf, -, he⟩ := driverOp_eq h
  · exact .busy part hh he
  · exact .driver part hf prog ret hp he

theorem issued_pinOp {i : Instr} {prog : List Micro} {ret : Ret} {s t : State} (part : partOf i = .loadCell)
    (hp : allTake i s prog) (h : pinOp prog ret s = .next t) : Issued i s t := .pins part prog ret hp (pinOp_eq h)

theorem issued_averagingOp {i : Instr} {count : Byte} {last : List Micro} {ret : Ret} {s t : State}
    (part : partOf i = .loadCell) (hp : allTake i s last) (h : averagingOp count last ret s = .next t) :
    Issued i s t := by
  unfold averagingOp at h
  split at h
  · cases h
  · split at h
    · cases h
    · exact issued_pinOp part (by simp [allTake_reads s part, hp]) h

/-- The flag bits of the display shadow registers (30_encoding.md R105, R106). -/
def flagBits : Shadow → List Byte
  | .fn => []
  | .entry => [incrementBit, shiftBit]
  | .ctrl => [displayBit, cursorBit, blinkBit]

theorem commandClass_flag : ∀ r : Shadow, ∀ bits ∈ flagBits r, ∀ v : Byte, commandClass v = r.classBit →
    commandClass (withBits v bits) = r.classBit ∧ commandClass (withoutBits v bits) = r.classBit := by
  intro r
  cases r <;> decide +kernel

theorem commandClass_withBits (r : Shadow) (v bits : Byte) (hb : bits ∈ flagBits r) (hv : commandClass v = r.classBit) :
    commandClass (withBits v bits) = r.classBit := (commandClass_flag r bits hb v hv).1

theorem commandClass_withoutBits (r : Shadow) (v bits : Byte) (hb : bits ∈ flagBits r)
    (hv : commandClass v = r.classBit) : commandClass (withoutBits v bits) = r.classBit :=
  (commandClass_flag r bits hb v hv).2

/-- An operation of the display that writes a shadow register and sends its byte. -/
theorem allTake_shadowCommand {i : Instr} (s u : State) (r : Shadow) (v : Byte) (hi : partOf i = .driver)
    (hw : writesShadow r i = true)
    (hv : (∀ q : Shadow, commandClass (s.shadow q) = q.classBit) → commandClass v = r.classBit) :
    allTake i s (shadowCommandProg u r v) := by
  simp only [shadowCommandProg, commandProg, allTake_cons, allTake_send s u (.inl hi), and_true]
  exact ⟨hi, hw, hv⟩

theorem issued_shadowCommand {i : Instr} {r : Shadow} {v : Byte} {s t : State} (part : partOf i = .driver)
    (hw : writesShadow r i = true) (hv : commandClass (s.shadow r) = r.classBit → commandClass v = r.classBit)
    (h : driverOp none (shadowCommandProg s r v) .unit s = .next t) : Issued i s t :=
  issued_driverOp part (allTake_shadowCommand s s r v part hw fun hc => hv (hc r)) h

theorem commandClass_functionSetByte (lines : Nat) (font : Bool) : commandClass (functionSetByte lines font) = 0x20 := by
  unfold functionSetByte
  split <;> split <;> decide

theorem commandShadow_class {cmd : Byte} {r : Shadow} (h : commandShadow cmd = some r) :
    commandClass cmd = r.classBit := by
  unfold commandShadow at h
  split at h
  · cases h; assumption
  · split at h
    · cases h; assumption
    · split at h
      · cases h; assumption
      · cases h

theorem allTake_lcdInit (s : State) : allTake .lcdInit s (lcdInitProg s) := by
  have hp := fun nib => allTake_pulse (i := .lcdInit) s s (.inl rfl) nib .cmd
  have h1 := allTake_shadowCommand (i := .lcdInit) s s .fn (functionSetByte s.lcd.lines s.lcd.font) rfl rfl
    (fun _ => commandClass_functionSetByte _ _)
  have h2 := allTake_shadowCommand (i := .lcdInit) s s .entry 0x06 rfl rfl (fun _ => by decide)
  have h3 := allTake_shadowCommand (i := .lcdInit) s s .ctrl 0x0C rfl rfl (fun _ => by decide)
  simp only [lcdInitProg, clearProg, commandProg, allTake_append, allTake_cons, allTake_nil, hp, h1, h2, h3,
    allTake_send s s (i := .lcdInit) (.inl rfl), true_and, and_true]
  simp [mayTake, partOf]

/-- Every operation but those that run no primitive step runs a program of steps it may take. -/
theorem exec_issued {i : Instr} {s t : State} (hi : partOf i ≠ .handle) (hg : ∀ gain, i ≠ .setGain gain)
    (h : exec i s = .next t) : Issued i s t := by
  cases i <;> simp only [exec] at h
  case startTransaction addr dir =>
    unfold execStartTransaction at h
    split at h
    · exact issued_withToken (.inl rfl) (allTake_address s (by simp [partOf]) _ _) h
    · cases h
  case writeByte b => exact issued_inPhase (.inl rfl) (by simp [actionProg, mayTake, partOf]) h
  case readAck => exact issued_inPhase (.inl rfl) (by simp [receiveProg, actionProg, mayTake, partOf]) h
  case readNack => exact issued_inPhase (.inl rfl) (by simp [receiveProg, actionProg, mayTake, partOf]) h
  case stop => exact issued_withToken (.inl rfl) (by simp [mayTake, partOf]) h
  case writeReg addr bytes =>
    unfold execWriteReg at h
    split at h
    · exact issued_withToken (.inl rfl) (allTake_writeReg s (by simp [partOf]) _ _) h
    · cases h
  case readReg addr reg n =>
    unfold execReadReg at h
    split at h
    · cases h
    · split at h
      · exact issued_withToken (.inl rfl) (allTake_readReg s (by simp [partOf]) _ _ _) h
      · cases h
  case pingDevice addr =>
    unfold execPingDevice at h
    split at h
    · exact issued_withToken (.inl rfl) (allTake_ping s (by simp [partOf]) _) h
    · cases h
  case scanBus => exact issued_withToken (.inl rfl) (allTake_scan s (by simp [partOf])) h
  case wait => exact issued_withToken (.inl rfl) (by simp [mayTake, partOf]) h
  case launch a => exact issued_withToken (.inl rfl) (by simp [mayTake, partOf]) h
  case acquire => exact absurd rfl hi
  case release t => exact absurd rfl hi
  case lcdInit => exact issued_driverOp rfl (allTake_lcdInit s) h
  case writeChar c => exact issued_driverOp rfl (allTake_send s s (.inl rfl) _ _) h
  case writeStr l => exact issued_driverOp rfl (allTake_sendAll s s (.inl rfl) _) h
  case commandWrite cmd =>
    refine issued_driverOp rfl ?_ h
    unfold commandWriteProg
    split
    · rename_i r hr
      exact allTake_shadowCommand s s r cmd rfl (by simp [writesShadow, hr]) (fun _ => commandShadow_class hr)
    · exact allTake_send s s (.inl rfl) _ _
  case commandRead =>
    exact issued_driverOp rfl (by simp [receiveByteProg, allTake_readNibble s s (i := .commandRead) (.inl rfl)]) h
  case setCursor col row => exact issued_driverOp rfl (allTake_send s s (.inl rfl) _ _) h
  case displayOn =>
    exact issued_shadowCommand rfl rfl (commandClass_withBits _ _ _ (by decide)) h
  case displayOff =>
    exact issued_shadowCommand rfl rfl (commandClass_withoutBits _ _ _ (by decide)) h
  case cursorOn =>
    exact issued_shadowCommand rfl rfl (commandClass_withBits _ _ _ (by decide)) h
  case cursorOff =>
    exact issued_shadowCommand rfl rfl (commandClass_withoutBits _ _ _ (by decide)) h
  case blinkOn =>
    exact issued_shadowCommand rfl rfl (commandClass_withBits _ _ _ (by decide)) h
  case blinkOff =>
    exact issued_shadowCommand rfl rfl (commandClass_withoutBits _ _ _ (by decide)) h
  case scrollLeft => exact issued_driverOp rfl (allTake_send s s (.inl rfl) _ _) h
  case scrollRight => exact issued_driverOp rfl (allTake_send s s (.inl rfl) _ _) h
  case leftToRight =>
    exact issued_shadowCommand rfl rfl (commandClass_withBits _ _ _ (by decide)) h
  case rightToLeft =>
    exact issued_shadowCommand rfl rfl (commandClass_withoutBits _ _ _ (by decide)) h
  case autoscroll =>
    exact issued_shadowCommand rfl rfl (commandClass_withBits _ _ _ (by decide)) h
  case noAutoscroll =>
    exact issued_shadowCommand rfl rfl (commandClass_withoutBits _ _ _ (by decide)) h
  case createChar loc map =>
    exact issued_driverOp rfl (by simp [createCharProg, commandProg, allTake_send s s (i := .createChar loc map) (.inl rfl),
      allTake_sendAll s s (i := .createChar loc map) (.inl rfl)]) h
  case backlight => exact issued_driverOp rfl (allTake_setBacklight s s rfl rfl _) h
  case noBacklight => exact issued_driverOp rfl (allTake_setBacklight s s rfl rfl _) h
  case send v m => exact issued_driverOp rfl (allTake_send s s (.inl rfl) _ _) h
  case receive m =>
    exact issued_driverOp rfl (by simp [receiveByteProg, allTake_readNibble s s (i := .receive m) (.inl rfl)]) h
  case clear =>
    exact issued_driverOp rfl (by simp [clearProg, commandProg, allTake_send s s (i := .clear) (.inl rfl), mayTake, partOf]) h
  case expWrite b => exact issued_withToken (.inr rfl) (allTake_writeReg s (by simp [partOf]) _ _) h
  case expRead => exact issued_withToken (.inr rfl) (allTake_expRead s s (by simp [partOf])) h
  case pulseNibble nib m => exact issued_withToken (.inr rfl) (allTake_pulse s s (.inr rfl) _ _) h
  case readNibble m => exact issued_withToken (.inr rfl) (allTake_readNibble s s (.inr rfl) _) h
  case setBacklight v => exact issued_driverOp rfl (allTake_setBacklight s s rfl rfl _) h
  case pwmInit =>
    exact issued_driverOp rfl (by simp [pwmInitProg, allTake_ping s (i := .pwmInit) (by simp [partOf]),
      allTake_writeReg s (i := .pwmInit) (by simp [partOf]), mayTake]) h
  case setChannel c on off => exact issued_driverOp rfl (allTake_writeReg s (by simp [partOf]) _ _) h
  case isReady => exact issued_pinOp rfl (by simp [mayTake, partOf]) h
  case waitReady d => exact issued_pinOp rfl (by simp [mayTake, partOf]) h
  case waitReadyRetry r d => exact issued_pinOp rfl (by simp [mayTake, partOf]) h
  case read =>
    unfold execRead at h
    split at h
    · cases h
    · exact issued_pinOp rfl (allTake_read s rfl) h
  case readAverage count => exact issued_averagingOp rfl (by simp) h
  case tare count => exact issued_averagingOp rfl (by simp [mayTake]) h
  case getValue count => exact issued_averagingOp rfl (by simp) h
  case getUnits count => exact issued_averagingOp rfl (by simp) h
  case powerDown => exact issued_pinOp rfl (by simp [mayTake, partOf, LcPhase.legal]) h
  case powerUp => exact issued_pinOp rfl (by simp [mayTake, partOf, LcPhase.legal]) h
  case setGain gain => exact absurd rfl (hg gain)
  case shiftInByte base => exact issued_pinOp rfl (allTake_shift s s rfl _ (by cases base <;> decide)) h
  case lcPulse => exact issued_pinOp rfl (allTake_lcPulse s s rfl) h
  case clk l => exact issued_pinOp rfl (by simp [mayTake, partOf]) h

/-! ### Relations an operation and a step keep -/

/-- A relation that the oracle's chance, the model's own fields and each step operation `i` may take keep holds from the
state it is issued in to the state it ends or holds in. -/
theorem issued_rel {R : State → State → Prop} (trans : ∀ {s t u}, R s t → R t u → R s u) (tick : ∀ s, R s s.tick)
    (work : ∀ s w, R s { s with work := w }) (ret : ∀ s r, R s { s with ret := r }) {i : Instr} {s t : State}
    (held : partOf i = .driver → ∀ s b, R s { s with sb.held := b })
    (micro : ∀ m, mayTake i s m → ∀ s, R s (stepMicro m s).state) (h : Issued i s t) : R s t := by
  have hf : ∀ s r, R s (s.finish r) := fun s r => trans (work s .idle) (ret { s with work := .idle } r)
  have hrun : ∀ l, (∀ m ∈ l, ∀ s, R s (stepMicro m s).state) → ∀ s, R s (run l s) :=
    fun l hl s => run_rel (R := R) trans tick (fun _ _ => work _ _) l hl s
  cases h with
  | busy _ _ e => subst e; exact hf _ _
  | driver hp _ prog r hs e =>
    subst e
    refine trans (held hp s true) (trans (work s.hold .idle) (hrun _ ?_ _))
    intro m hm
    simp only [List.mem_append, List.mem_cons, List.not_mem_nil, or_false] at hm
    rcases hm with hm | rfl | rfl
    · exact micro m (hs m hm)
    · exact fun s => held hp s false
    · exact fun s => hf s _
  | inner _ _ prog r hs e =>
    subst e
    refine trans (work s .idle) (hrun _ ?_ _)
    intro m hm
    simp only [List.mem_append, List.mem_singleton] at hm
    rcases hm with hm | rfl
    · exact micro m (hs m hm)
    · exact fun s => hf s _
  | pins _ prog r hs e =>
    subst e
    refine trans (work s .idle) (hrun _ ?_ _)
    intro m hm
    simp only [List.mem_append, List.mem_singleton] at hm
    rcases hm with hm | rfl
    · exact micro m (hs m hm)
    · exact fun s => hf s _

/-! ### An operation in progress -/

/-- What a run leaves to do was there to do, or is the refusal it ended in. -/
theorem run_todo (todo : List Micro) (s : State) :
    ∀ m ∈ (run todo s).work.todo, m ∈ todo ∨ ∃ r, m = .refuse r := by
  induction todo generalizing s with
  | nil => simp [run]
  | cons m rest ih =>
    intro m' h
    simp only [run] at h
    split at h
    · exact (ih _ m' h).imp_left (List.mem_cons_of_mem m)
    · exact .inl h
    · simp at h
    · exact .inr ⟨_, by simpa using h⟩

theorem goOn_idle {s : State} (h : s.work.todo = []) (k : Nat) : goOn k s = s := by
  cases k with
  | zero => rfl
  | succ k => simp only [goOn, h]

/-- A property that each step of an operation in progress keeps holds however far it goes on. -/
theorem goOn_inv {P : State → Prop}
    (step : ∀ s, P s → s.work.todo ≠ [] → (∀ r rest, s.work.todo ≠ .refuse r :: rest) → P (run s.work.todo s))
    (k : Nat) (s : State) (h : P s) : P (goOn k s) := by
  induction k generalizing s with
  | zero => exact h
  | succ k ih =>
    simp only [goOn]
    split
    · exact h
    · rename_i m rest ht
      split
      · rename_i t hs
        refine ih t ?_
        have hr : ∀ r rest, s.work.todo ≠ .refuse r :: rest := by
          intro r rest hc
          simp only [Machine.step, advance, hc] at hs
          split at hs <;> cases hs
        obtain ⟨-, ⟨hn, -⟩ | ⟨hn, -⟩ | ⟨hn, e⟩⟩ := step_cases hs
        · simp [ht] at hn
        · simp [ht] at hn
        · exact e ▸ step s h hn hr
      · exact h
      · exact h

/-- A relation that the oracle's chance, a change of the continuation and each of the remaining primitive steps keep holds
however far an operation in progress goes on. -/
theorem goOn_rel {R : State → State → Prop} (trans : ∀ {s t u}, R s t → R t u → R s u) (tick : ∀ s, R s s.tick)
    (work : ∀ s w, R s { s with work := w }) {P : Micro → Prop} (micro : ∀ m, P m → ∀ s, R s (stepMicro m s).state)
    (k : Nat) (s : State) (h : ∀ m ∈ s.work.todo, P m ∨ ∃ r, m = .refuse r) : R s (goOn k s) := by
  refine (goOn_inv (P := fun t => R s t ∧ ∀ m ∈ t.work.todo, P m ∨ ∃ r, m = .refuse r) ?_ k s ⟨work s s.work, h⟩).1
  intro t ⟨ht, hP⟩ _ _
  refine ⟨trans ht (run_rel (R := R) trans tick (fun _ _ => work _ _) _ ?_ _), ?_⟩
  · intro m hm u
    obtain hm | ⟨r, rfl⟩ := hP m hm
    · exact micro m hm u
    · exact work u u.work
  · intro m hm
    obtain hm | hm := run_todo _ _ m hm
    · exact hP m hm
    · exact .inr hm

/-- What a held operation has left to do: steps it may take, the release of a driver operation, and its end. -/
theorem issued_todo {i : Instr} {s t : State} (h : Issued i s t) : ∀ m ∈ t.work.todo,
    (mayTake i s m ∨ (partOf i = .driver ∧ m = .release) ∨ ∃ r, m = .ret r) ∨ ∃ r, m = .refuse r := by
  cases h with
  | busy _ _ e => subst e; simp [State.raise, State.finish, Work.idle]
  | driver hp _ prog r hs e =>
    subst e
    intro m hm
    refine (run_todo _ _ m hm).imp_left fun hm => ?_
    simp only [List.mem_append, List.mem_cons, List.not_mem_nil, or_false] at hm
    exact hm.imp (hs m) (Or.imp (⟨hp, ·⟩) (⟨r, ·⟩))
  | inner _ _ prog r hs e =>
    subst e
    intro m hm
    refine (run_todo _ _ m hm).imp_left fun hm => ?_
    simp only [List.mem_append, List.mem_singleton] at hm
    exact hm.imp (hs m) fun e => .inr ⟨r, e⟩
  | pins _ prog r hs e =>
    subst e
    intro m hm
    refine (run_todo _ _ m hm).imp_left fun hm => ?_
    simp only [List.mem_append, List.mem_singleton] at hm
    exact hm.imp (hs m) fun e => .inr ⟨r, e⟩

/-- The relation of `issued_rel` holds too up to wherever the operation goes on to. -/
theorem issued_goOn_rel {R : State → State → Prop} (trans : ∀ {s t u}, R s t → R t u → R s u) (tick : ∀ s, R s s.tick)
    (work : ∀ s w, R s { s with work := w }) (ret : ∀ s r, R s { s with ret := r }) {i : Instr} {s t : State}
    (held : partOf i = .driver → ∀ s b, R s { s with sb.held := b })
    (micro : ∀ m, mayTake i s m → ∀ s, R s (stepMicro m s).state) (h : Issued i s t) (k : Nat) : R s (goOn k t) := by
  refine trans (issued_rel (R := R) trans tick work ret held micro h)
    (goOn_rel (R := R) trans tick work ?_ k t (issued_todo h))
  intro m hm u
  obtain hm | ⟨hd, rfl⟩ | ⟨r, rfl⟩ := hm
  · exact micro m hm u
  · exact held hd u false
  · exact trans (work u .idle) (ret { u with work := .idle } _)

/-- A relation that every primitive step and every write of a handle operation or of `set_gain` keeps holds from the
state an operation is issued in to the state it ends or holds in. -/
theorem exec_rel {R : State → State → Prop} (trans : ∀ {s t u}, R s t → R t u → R s u) (tick : ∀ s, R s s.tick)
    (micro : ∀ m s, R s (stepMicro m s).state) (work : ∀ s w, R s { s with work := w })
    (ret : ∀ s r, R s { s with ret := r }) (held : ∀ s b, R s { s with sb.held := b })
    (gain : ∀ s g, R s { s with lc.gain := g }) {i : Instr} {s t : State} (h : exec i s = .next t) : R s t := by
  have hf : ∀ s r, R s (s.finish r) := fun s r => trans (work s .idle) (ret { s with work := .idle } r)
  by_cases hg : ∃ g, i = .setGain g
  · obtain ⟨g, rfl⟩ := hg
    injection h with h
    subst h
    exact trans (gain s (gainCode g s.lc.gain)) (hf _ _)
  by_cases hh : partOf i = .handle
  · cases i <;> simp only [partOf, reduceCtorEq] at hh
    · simp only [exec, execAcquire] at h
      split at h <;> (injection h with h; subst h)
      · exact hf _ _
      · exact trans (held s true) (hf _ _)
    · rename_i tok
      cases tok
      simp only [exec, execRelease] at h
      split at h
      · injection h with h
        subst h
        exact trans (held s false) (hf _ _)
      · cases h
  exact issued_rel (R := R) trans tick work ret (fun _ => held) (fun m _ => micro m)
    (exec_issued hh (fun g hi => hg ⟨g, hi⟩) h)

/-- The same from the state before a step to the state after it. -/
theorem step_rel {R : State → State → Prop} (trans : ∀ {s t u}, R s t → R t u → R s u) (tick : ∀ s, R s s.tick)
    (micro : ∀ m s, R s (stepMicro m s).state) (work : ∀ s w, R s { s with work := w })
    (ret : ∀ s r, R s { s with ret := r }) (held : ∀ s b, R s { s with sb.held := b })
    (gain : ∀ s g, R s { s with lc.gain := g }) (cmds : ∀ s c, R s { s with cmds := c }) {s t : State}
    (h : step s = .next t) : R s t := by
  obtain ⟨-, ⟨-, -, e⟩ | ⟨-, i, rest, -, e⟩ | ⟨-, e⟩⟩ := step_cases h
  · subst e; exact tick s
  · exact trans (tick s) (trans (cmds s.tick rest) (exec_rel (R := R) trans tick micro work ret held gain e))
  · subst e; exact run_rel (R := R) trans tick (fun _ _ => work _ _) _ (fun m _ s => micro m s) s

/-! ### Events -/

/-- The history grows by events with property `f`. -/
def Emits (f : Event → Prop) (s t : State) : Prop := ∃ events : List Event, t.hist = s.hist ++ events ∧ ∀ e ∈ events, f e

theorem Emits.nil {f : Event → Prop} {s t : State} (h : t.hist = s.hist) : Emits f s t := ⟨[], by simp [h], by simp⟩

theorem Emits.one {f : Event → Prop} {s t : State} (e : Event) (he : f e) (h : t.hist = s.hist ++ [e]) : Emits f s t :=
  ⟨[e], h, by simp [he]⟩

theorem Emits.trans {f : Event → Prop} {s t u : State} (h : Emits f s t) (k : Emits f t u) : Emits f s u := by
  obtain ⟨a, ha, h1⟩ := h
  obtain ⟨b, hb, h2⟩ := k
  exact ⟨a ++ b, by rw [hb, ha, List.append_assoc], fun e he => (List.mem_append.1 he).elim (h1 e) (h2 e)⟩

/-- The oracle's chance emits two-wire events only (40_bus_controller.md R133). -/
theorem emits_tick {f : Event → Prop} (h : ∀ e : Event, e.ofBus = true → (∀ ns, e ≠ .delay ns) → f e) (s : State) :
    Emits f s s.tick := by
  unfold State.tick
  split
  · exact .nil rfl
  · split
    · rename_i a _ _
      cases a
      · exact .one (startEvent s.bc.phase)
          (h _ (by cases s.bc.phase <;> rfl) (by cases s.bc.phase <;> simp [startEvent])) rfl
      · exact .one _ (h _ rfl (by simp)) rfl
      · exact .one _ (h _ rfl (by simp)) rfl
      · exact .nil rfl
    · exact .nil rfl

end Sys2Proof.Machine
end

