-- ==== Sys2Proof/Laws/Held.lean ====
section
/-! SUPPORT. Where an operation that is held in a bus wait stands: which of its primitive steps are done, what they wrote
to the display's registers, and how many wire events are still to come. -/

namespace Sys2Proof.Machine

/-! ### The display's registers -/

/-- What a primitive step writes to the display's registers and flag. -/
def Micro.display (m : Micro) (d : Display) : Display :=
  match m with
  | .setShadow .fn v => { d with fn := v }
  | .setShadow .entry v => { d with entry := v }
  | .setShadow .ctrl v => { d with ctrl := v }
  | .setBl v => { d with bl := v }
  | _ => d

theorem pollRetry_lcd (n ns : Nat) (s : State) : (pollRetry n ns s).lcd = s.lcd := by
  induction n generalizing s with
  | zero => rfl
  | succ n ih =>
    unfold pollRetry
    split
    · rw [ih, State.tick_lcd]; rfl
    · rfl

theorem stepMicro_lcd (m : Micro) (s : State) : (stepMicro m s).state.lcd = m.display s.lcd := by
  cases m <;> simp only [stepMicro]
  case pollRetry => exact pollRetry_lcd _ _ _
  case launch a =>
    split
    · rfl
    · cases a <;> rfl
  case setShadow r v => cases r <;> rfl
  all_goals first | rfl | (split <;> rfl)

/-- The display's registers after these primitive steps. -/
def displayAfter (done : List Micro) (d : Display) : Display := done.foldl (fun d m => m.display d) d

theorem displayAfter_append (l l' : List Micro) (d : Display) :
    displayAfter (l ++ l') d = displayAfter l' (displayAfter l d) := by simp [displayAfter]

/-- Steps that write no register of the display leave its registers alone, however far the operation goes on. -/
theorem goOn_lcd (todo : List Micro) (h : ∀ m ∈ todo, ∀ d, m.display d = d) (s : State) (k : Nat) :
    (goOn k (run todo s)).lcd = s.lcd := by
  have trans : ∀ {s t u : State}, t.lcd = s.lcd → u.lcd = t.lcd → u.lcd = s.lcd := fun h k => k.trans h
  have micro : ∀ m : Micro, (∀ d, m.display d = d) → ∀ s, (stepMicro m s).state.lcd = s.lcd :=
    fun m hm s => (stepMicro_lcd m s).trans (hm _)
  exact trans
    (run_rel (R := fun s t => t.lcd = s.lcd) trans (fun s => by simp) (fun _ _ => rfl) todo (fun m hm => micro m (h m hm)) s)
    (goOn_rel (R := fun s t => t.lcd = s.lcd) trans (fun s => by simp) (fun _ _ => rfl) micro k _
      fun m hm => (run_todo _ _ m hm).imp_left (h m))

/-! ### Operations made of bus actions -/

/-- The wire events the remaining primitive steps of an operation on the bus will emit: a STOP and a delay one each, an
awaited action one at its wait. -/
def eventsLeft : List Micro → Nat
  | [] => 0
  | .launch .stop :: rest => eventsLeft rest + 1
  | .delay _ :: rest => eventsLeft rest + 1
  | .wait :: rest => eventsLeft rest + 1
  | _ :: rest => eventsLeft rest

@[simp] theorem eventsLeft_append (l l' : List Micro) : eventsLeft (l ++ l') = eventsLeft l + eventsLeft l' := by
  induction l with
  | nil => simp [eventsLeft]
  | cons m l ih =>
    cases m
    case launch a => cases a <;> (simp [eventsLeft, ih]; try omega)
    all_goals (simp [eventsLeft, ih]; try omega)

/-- The next step is a wait. -/
def atWait : List Micro → Bool
  | .wait :: _ => true
  | _ => false

/-- A program that waits for each START, TX and RX right after its launch and nowhere else, and returns at its end. -/
def paired : List Micro → Bool
  | [] => false
  | [.ret _] => true
  | .launch a :: rest => (slow a == atWait rest) && paired rest
  | .wait :: rest => !atWait rest && paired rest
  | .release :: rest => !atWait rest && paired rest
  | .delay _ :: rest => !atWait rest && paired rest
  | .addressed _ _ :: rest => !atWait rest && paired rest
  | .setShadow _ _ :: rest => !atWait rest && paired rest
  | _ => false

/-- Where a program stands that has `todo` left: what is done, and the pending action with its event. -/
structure Stands (prog : List Micro) (s : State) (todo : List Micro) (u : State) : Prop where
  paired : paired todo = true
  display : ∃ done, prog = done ++ todo ∧ u.lcd = displayAfter done s.lcd
  bus :
    (atWait todo = false ∧ u.bc.pending = none ∧ u.hist.length + eventsLeft todo = s.hist.length + eventsLeft prog) ∨
    (atWait todo = true ∧ u.bc.ready = false ∧ (∃ a, u.bc.pending = some a ∧ a ≠ .stop)
      ∧ u.hist.length + eventsLeft todo = s.hist.length + eventsLeft prog) ∨
    (atWait todo = true ∧ u.bc.ready = true ∧ u.bc.pending = none
      ∧ u.hist.length + eventsLeft todo = s.hist.length + eventsLeft prog + 1)

/-- Such a program has ended, with all its events, or is held in a wait, with the events of the steps done. -/
inductive EndedOrWaits (prog : List Micro) (s u : State) : Prop where
  | ended (todo : u.work.todo = []) (events : u.hist.length = s.hist.length + eventsLeft prog)
      (display : u.lcd = displayAfter prog s.lcd)
  | waits (done rest : List Micro) (split : prog = done ++ .wait :: rest) (todo : u.work.todo = .wait :: rest)
      (events : u.hist.length + eventsLeft (.wait :: rest) = s.hist.length + eventsLeft prog)
      (display : u.lcd = displayAfter done s.lcd) (stands : Stands prog s (.wait :: rest) u)

theorem Stands.tick {prog todo : List Micro} {s u : State} (h : Stands prog s todo u) : Stands prog s todo u.tick := by
  refine ⟨h.paired, by rw [State.tick_lcd]; exact h.display, ?_⟩
  rcases h.bus with ⟨h1, h2, h3⟩ | ⟨h1, h2, ⟨a, ha, hs⟩, h3⟩ | ⟨h1, h2, h3, h4⟩
  · rw [State.tick_of_idle_bus h2]; exact .inl ⟨h1, h2, h3⟩
  · by_cases hd : (u.env.answer 0).done = true
    · rw [show u.tick = u.asked.complete a (u.env.answer 0) by simp [State.tick, ha, hd]]
      refine .inr (.inr ⟨h1, ?_⟩)
      cases a <;> simp [State.complete, State.ready, State.emit, State.asked] at hs ⊢ <;> omega
    · rw [show u.tick = u.asked by simp [State.tick, ha, hd]]
      exact .inr (.inl ⟨h1, h2, ⟨a, ha, hs⟩, h3⟩)
  · rw [State.tick_of_idle_bus h3]; exact .inr (.inr ⟨h1, h2, h3, h4⟩)

theorem Stands.done {prog rest : List Micro} {m : Micro} {s u t : State} (h : Stands prog s (m :: rest) u)
    (ht : stepMicro m u = .go t) : ∃ done, prog = done ++ rest ∧ t.lcd = displayAfter done s.lcd := by
  obtain ⟨done, hp, hd⟩ := h.display
  refine ⟨done ++ [m], by simp [hp], ?_⟩
  have := stepMicro_lcd m u
  rw [ht] at this
  simp only [Progress.state, hd] at this
  simp [displayAfter, this]

/-- A primitive step that is no wait, with nothing pending before it and after it. -/
theorem Stands.plain {prog rest : List Micro} {m : Micro} {s u t : State} (h : Stands prog s (m :: rest) u)
    (ht : stepMicro m u = .go t) (hw : atWait (m :: rest) = false) (hr : Machine.paired rest = true ∧ atWait rest = false)
    (hp : u.bc.pending = none → t.bc.pending = none)
    (he : t.hist.length + eventsLeft rest = u.hist.length + eventsLeft (m :: rest)) : Stands prog s rest t := by
  refine ⟨hr.1, h.done ht, .inl ⟨hr.2, ?_⟩⟩
  have hb := h.bus
  simp only [hw, Bool.false_eq_true, false_and, or_false, true_and] at hb
  exact ⟨hp hb.1, he.trans hb.2⟩

theorem Stands.go {prog rest : List Micro} {m : Micro} {s u t : State} (h : Stands prog s (m :: rest) u)
    (ht : stepMicro m u = .go t) : Stands prog s rest t := by
  have hp := h.paired
  cases m
  case launch a =>
    simp only [Machine.paired, Bool.and_eq_true, beq_iff_eq] at hp
    obtain ⟨h0, he⟩ : u.bc.pending = none ∧ _ := by simpa [atWait] using h.bus
    have ht' := ht
    simp only [stepMicro, h0, Option.isSome_none, Bool.and_false, Bool.false_eq_true, if_false, Progress.go.injEq] at ht
    subst ht
    cases a
    case stop => exact h.plain ht' rfl ⟨hp.2, hp.1.symm⟩ id (by simp [State.launch, State.emit, eventsLeft]; omega)
    all_goals exact ⟨hp.2, h.done ht', .inr (.inl ⟨hp.1.symm, rfl, ⟨_, rfl, by simp⟩, he⟩)⟩
  case wait =>
    simp only [Machine.paired, Bool.and_eq_true, Bool.not_eq_true'] at hp
    have ht' := ht
    simp only [stepMicro] at ht
    split at ht
    · rename_i hr
      injection ht with ht
      subst ht
      obtain ⟨h0, he⟩ : u.bc.pending = none ∧ _ := by simpa [atWait, hr] using h.bus
      exact ⟨hp.2, h.done ht', .inl ⟨hp.1, h0, by simp only [eventsLeft] at he; omega⟩⟩
    · cases ht
  case ret r => simp [stepMicro] at ht
  case setShadow r v =>
    simp only [Machine.paired, Bool.and_eq_true, Bool.not_eq_true'] at hp
    have ht' := ht
    simp only [stepMicro, Progress.go.injEq] at ht
    subst ht
    exact h.plain ht' rfl hp.symm (by cases r <;> exact id) (by cases r <;> rfl)
  case delay ns =>
    simp only [Machine.paired, Bool.and_eq_true, Bool.not_eq_true'] at hp
    have ht' := ht
    simp only [stepMicro, Progress.go.injEq] at ht
    subst ht
    exact h.plain ht' rfl hp.symm id (by simp [State.delay, State.emit, eventsLeft]; omega)
  all_goals first
    | (simp [Machine.paired] at hp; done)
    | (simp only [Machine.paired, Bool.and_eq_true, Bool.not_eq_true'] at hp
       have ht' := ht
       simp only [stepMicro, Progress.go.injEq] at ht
       subst ht
       exact h.plain ht' rfl hp.symm id rfl)

theorem Stands.ret {prog rest : List Micro} {r : Ret} {s u : State} (h : Stands prog s (.ret r :: rest) u) :
    rest = [] := by
  have hp := h.paired
  cases rest with
  | nil => rfl
  | cons m l => simp [Machine.paired] at hp

/-- A program of bus actions ends or waits: it is never refused and holds nowhere else. -/
theorem Stands.run {prog todo : List Micro} {s u : State} (h : Stands prog s todo u) :
    EndedOrWaits prog s (run todo u) := by
  refine run_inv (P := Stands prog s) (Q := EndedOrWaits prog s) ?_ (fun _ _ => Stands.tick) (fun _ _ _ _ => Stands.go)
    ?_ ?_ ?_ todo u h
  · intro u h
    have := h.paired
    simp [Machine.paired] at this
  · intro m rest u t h ht
    have hp := h.paired
    cases m <;> simp only [stepMicro] at ht
    case wait =>
      split at ht
      · cases ht
      · rename_i hr
        injection ht with ht
        subst ht
        obtain ⟨done, hd⟩ := h.display
        refine .waits done rest hd.1 rfl ?_ hd.2 ⟨hp, h.display, h.bus⟩
        rcases h.bus with ⟨h1, -⟩ | ⟨-, -, -, he⟩ | ⟨-, h1, -⟩
        · simp [atWait] at h1
        · exact he
        · exact absurd h1 hr
    all_goals first
      | (simp [Machine.paired] at hp; done)
      | cases ht
      | (split at ht <;> cases ht)
  · intro m rest u t h ht
    have hp := h.paired
    cases m <;> simp only [stepMicro] at ht
    case ret r =>
      injection ht with ht
      subst ht
      obtain rfl := h.ret
      obtain ⟨done, hd⟩ := h.display
      obtain ⟨-, he⟩ : u.bc.pending = none ∧ u.hist.length = _ := by simpa [atWait, eventsLeft] using h.bus
      exact .ended rfl he (by simpa [hd.1, displayAfter, Micro.display] using hd.2)
    all_goals first
      | (simp [Machine.paired] at hp; done)
      | cases ht
      | (split at ht <;> cases ht)
  · intro m rest u r t h ht
    have hp := h.paired
    cases m <;> simp only [stepMicro] at ht
    case launch a =>
      obtain ⟨h0, -⟩ : u.bc.pending = none ∧ _ := by simpa [atWait] using h.bus
      simp [h0] at ht
    all_goals first
      | (simp [Machine.paired] at hp; done)
      | cases ht
      | (split at ht <;> cases ht)

/-- The same however far the operation goes on. -/
theorem goOn_paired {prog : List Micro} {s : State} (hp : paired prog = true) (hw : atWait prog = false)
    (hb : s.bc.pending = none) (k : Nat) : EndedOrWaits prog s (goOn k (run prog s)) := by
  refine goOn_inv (P := EndedOrWaits prog s) ?_ k _ (Stands.run ⟨hp, ⟨[], rfl, rfl⟩, .inl ⟨hw, hb, rfl⟩⟩)
  intro u h hn _
  cases h with
  | ended ht _ _ => exact absurd ht hn
  | waits done rest _ ht _ _ hs => rw [ht]; exact hs.run

end Sys2Proof.Machine
end

