-- ==== Sys2Proof/Laws/PerInstr.lean ====
section
/-! SUPPORT. Statements about every operation as syntax, one lemma per constructor. -/

namespace Sys2Proof.Laws.OpCodeFirst

/-- The first command byte of an operation is its op code (spec/30_encoding.md R92). -/
def Statement (i : Instr) : Prop := (encode i).head? = some i.opCode

theorem startTransaction (addr : Byte) (dir : Dir) : Statement (.startTransaction addr dir) := rfl

theorem writeByte (b : Byte) : Statement (.writeByte b) := rfl

theorem readAck : Statement (.readAck) := rfl

theorem readNack : Statement (.readNack) := rfl

theorem stop : Statement (.stop) := rfl

theorem writeReg (addr : Byte) (bytes : List Byte) : Statement (.writeReg addr bytes) := rfl

theorem readReg (addr : Byte) (reg : Byte) (n : Nat) : Statement (.readReg addr reg n) := rfl

theorem pingDevice (addr : Byte) : Statement (.pingDevice addr) := rfl

theorem scanBus : Statement (.scanBus) := rfl

theorem wait : Statement (.wait) := rfl

theorem launch (action : BusAction) : Statement (.launch action) := rfl

theorem acquire : Statement (.acquire) := rfl

theorem release (t : Token) : Statement (.release t) := rfl

theorem lcdInit : Statement (.lcdInit) := rfl

theorem writeChar (c : Byte) : Statement (.writeChar c) := rfl

theorem writeStr (str : List Byte) : Statement (.writeStr str) := rfl

theorem commandWrite (cmd : Byte) : Statement (.commandWrite cmd) := rfl

theorem commandRead : Statement (.commandRead) := rfl

theorem setCursor (col : Byte) (row : Byte) : Statement (.setCursor col row) := rfl

theorem displayOn : Statement (.displayOn) := rfl

theorem displayOff : Statement (.displayOff) := rfl

theorem cursorOn : Statement (.cursorOn) := rfl

theorem cursorOff : Statement (.cursorOff) := rfl

theorem blinkOn : Statement (.blinkOn) := rfl

theorem blinkOff : Statement (.blinkOff) := rfl

theorem scrollLeft : Statement (.scrollLeft) := rfl

theorem scrollRight : Statement (.scrollRight) := rfl

theorem leftToRight : Statement (.leftToRight) := rfl

theorem rightToLeft : Statement (.rightToLeft) := rfl

theorem autoscroll : Statement (.autoscroll) := rfl

theorem noAutoscroll : Statement (.noAutoscroll) := rfl

theorem createChar (loc : Byte) (map : List Byte) : Statement (.createChar loc map) := rfl

theorem backlight : Statement (.backlight) := rfl

theorem noBacklight : Statement (.noBacklight) := rfl

theorem send (value : Byte) (mode : Mode) : Statement (.send value mode) := rfl

theorem receive (mode : Mode) : Statement (.receive mode) := rfl

theorem clear : Statement (.clear) := rfl

theorem expWrite (b : Byte) : Statement (.expWrite b) := rfl

theorem expRead : Statement (.expRead) := rfl

theorem pulseNibble (nib : Nibble) (mode : Mode) : Statement (.pulseNibble nib mode) := rfl

theorem readNibble (mode : Mode) : Statement (.readNibble mode) := rfl

theorem setBacklight (v : Bit) : Statement (.setBacklight v) := rfl

theorem pwmInit : Statement (.pwmInit) := rfl

theorem setChannel (channel : Byte) (on : Half) (off : Half) : Statement (.setChannel channel on off) := rfl

theorem isReady : Statement (.isReady) := rfl

theorem waitReady (delayMs : Word) : Statement (.waitReady delayMs) := rfl

theorem waitReadyRetry (retries : Word) (delayMs : Word) : Statement (.waitReadyRetry retries delayMs) := rfl

theorem read : Statement (.read) := rfl

theorem readAverage (count : Byte) : Statement (.readAverage count) := rfl

theorem tare (count : Byte) : Statement (.tare count) := rfl

theorem getValue (count : Byte) : Statement (.getValue count) := rfl

theorem getUnits (count : Byte) : Statement (.getUnits count) := rfl

theorem powerDown : Statement (.powerDown) := rfl

theorem powerUp : Statement (.powerUp) := rfl

theorem setGain (gain : Byte) : Statement (.setGain gain) := rfl

theorem shiftInByte (base : ShiftBase) : Statement (.shiftInByte base) := rfl

theorem lcPulse : Statement (.lcPulse) := rfl

theorem clk (l : Bit) : Statement (.clk l) := rfl

end Sys2Proof.Laws.OpCodeFirst
end

