-- ==== Sys2Proof/Laws/Samples.lean ====
section
/-! SUPPORT. The range of samples and of their mean, and what reads leave of the load cell's registers. -/

namespace Sys2Proof.Machine

/-- A sample lies in −2^23 .. 2^23−1 (45_loadcell.md R264). -/
theorem sampleRange_sampleOf (l : List Byte) : sampleRange (sampleOf l) := by
  unfold sampleOf sampleOfBytes sampleRange
  generalize ((l.getD 0 0 ++ l.getD 1 0 ++ l.getD 2 0 : BitVec 24)) = r
  rw [BitVec.toInt_signExtend_of_le (by omega), BitVec.toInt_eq_toNat_cond]
  have := r.isLt
  split <;> omega

theorem sampleSum_bounds (l : List Word) (h : ∀ v ∈ l, sampleRange v) :
    -8388608 * l.length ≤ (l.map BitVec.toInt).sum ∧ (l.map BitVec.toInt).sum ≤ 8388607 * l.length := by
  induction l with
  | nil => simp
  | cons a l ih =>
    have h1 := ih (fun v hv => h v (by simp [hv]))
    have h2 := h a (by simp)
    unfold sampleRange at h2
    simp only [List.map_cons, List.sum_cons, List.length_cons]
    push_cast
    omega

/-- So does the mean of samples (45_loadcell.md R266). -/
theorem meanOf_bounds (l : List Word) (h : ∀ v ∈ l, sampleRange v) : -8388608 ≤ meanOf l ∧ meanOf l ≤ 8388607 := by
  unfold meanOf
  rw [sampleSum_eq]
  have hb := sampleSum_bounds l h
  generalize (l.map BitVec.toInt).sum = x at *
  generalize l.length = n at *
  rcases Nat.eq_zero_or_pos n with rfl | hn
  · simp
  · have hn' : (0 : Int) < n := by exact_mod_cast hn
    rcases Int.le_total 0 x with hx | hx
    · rw [Int.tdiv_eq_ediv_of_nonneg hx]
      constructor
      · have := Int.ediv_nonneg hx (by omega : (0:Int) ≤ n); omega
      · exact Int.ediv_le_of_le_mul hn' (by omega)
    · have : x.tdiv n = - ((-x) / n) := by
        rw [← Int.tdiv_eq_ediv_of_nonneg (by omega), Int.neg_tdiv, neg_neg]
      rw [this]
      have h1 : (-x) / (n:Int) ≤ 8388608 := Int.ediv_le_of_le_mul hn' (by omega)
      have h2 := Int.ediv_nonneg (by omega : 0 ≤ -x) (by omega : (0:Int) ≤ n)
      omega

theorem ofInt_meanOf_toInt (l : List Word) (h : ∀ v ∈ l, sampleRange v) :
    (BitVec.ofInt 32 (meanOf l)).toInt = meanOf l := by
  have := meanOf_bounds l h
  rw [BitVec.toInt_ofInt]
  unfold Int.bmod; norm_num; split <;> omega

theorem sampleRange_readValues (e : Env) (n : Nat) : ∀ v ∈ readValues e n, sampleRange v := by
  intro v hv
  simp only [readValues, List.mem_map] at hv
  obtain ⟨j, _, rfl⟩ := hv
  rw [← sampleOf_levels]
  exact sampleRange_sampleOf _

theorem afterShift_offset (base n : Nat) (s : State) :
    (afterShift base n s).lc.offset = s.lc.offset ∧ (afterShift base n s).lc.scale = s.lc.scale := by
  induction n with
  | zero => exact ⟨rfl, rfl⟩
  | succ n ih => rw [afterShift_succ]; exact ih

theorem afterGainPulses_offset (n : Nat) (s : State) :
    (afterGainPulses n s).lc.offset = s.lc.offset ∧ (afterGainPulses n s).lc.scale = s.lc.scale := by
  induction n with
  | zero => exact ⟨rfl, rfl⟩
  | succ n ih => rw [afterGainPulses_succ]; exact ih

/-- Reads write neither the offset nor the scale (45_loadcell.md R264, R266). -/
theorem afterReads_offset (n : Nat) (s : State) :
    (afterReads n s).lc.offset = s.lc.offset ∧ (afterReads n s).lc.scale = s.lc.scale := by
  have one (s : State) : (afterRead s).lc.offset = s.lc.offset ∧ (afterRead s).lc.scale = s.lc.scale :=
    ⟨(afterGainPulses_offset _ _).1.trans (afterShift_offset _ _ _).1,
      (afterGainPulses_offset _ _).2.trans (afterShift_offset _ _ _).2⟩
  induction n generalizing s with
  | zero => exact ⟨rfl, rfl⟩
  | succ n ih => rw [afterReads_succ]; exact ⟨(ih _).1.trans (one s).1, (ih _).2.trans (one s).2⟩

end Sys2Proof.Machine
end

