-- ==== Sys2Proof/Tests/Slice0.lean ====
section
/-! SUPPORT. Tests. Expected values are the vectors of spec/95_test_vectors.md, by their names there, or are worked out
from the rules named. -/

namespace Sys2Proof.Tests

-- One test after the other: side by side they would each hold a thread.
set_option Elab.async false

open Sys2Proof Sys2Proof.Machine

/-! ### The states tested -/

/-- A block as 95_test_vectors.md constructs it, whose oracle gives the answers of `script`. -/
def block (script : List Answer) : State :=
  { State.constructed { busDivisor := 72, params := { tLcHigh := 5, tLcLow := 7 } } with env := { script := script } }

/-- The oracle completes every action and acknowledges every byte. -/
def ready : State := block (List.replicate 256 { done := true })

/-- The same block, its handle held by the caller. -/
def held : State := { ready with sb.held := true }

/-- The same in the middle of a transaction. -/
def heldIn (phase : BusPhase) : State := { held with bc.phase := phase }

/-- A block whose oracle completes nothing. -/
def stuck : State := block (List.replicate 8 { done := false })

/-- Answers of the data line. -/
def levels (l : List Bit) : List Answer := l.map fun b => { done := true, level := b }

/-- A block whose data line shows these levels. -/
def pinned (l : List Bit) : State := block (levels l)

/-- The 24 bits of a raw sample, most significant first. -/
def bits24 (v : BitVec 24) : List Bit := (List.range 24).map fun i => v.getLsbD (23 - i)

/-- The levels of one read: ready at once, then the raw sample. -/
def reading (v : BitVec 24) : List Bit := false :: bits24 v

/-- The next state of an outcome. -/
def stateOf (o : Host.Outcome State Fault Refusal) : Option State :=
  match o with
  | .next t => some t
  | .fault _ => none
  | .refused _ => none

/-- The refusal of an outcome. -/
def refusalIn (o : Host.Outcome State Fault Refusal) : Option Refusal :=
  match o with
  | .next _ => none
  | .fault _ => none
  | .refused r => some r

/-- What an operation returns. -/
def returns (i : Instr) (s : State) : Option Result := (stateOf (exec i s)).map (·.ret)

/-- The events an operation adds to an empty history. -/
def events (i : Instr) (s : State) : Option (List Event) := (stateOf (exec i s)).map (·.hist)

/-- The bytes an operation sends to the expander: every `Tx` that is no address byte. -/
def expanderBytes (i : Instr) (s : State) : Option (List Byte) :=
  (events i s).map fun l => l.filterMap fun e =>
    match e with
    | .tx b _ => if b = 0x4E then none else some b
    | _ => none

/-- `W(b)` of 95_test_vectors.md. -/
def expanderWrite (b : Byte) : List Event := [.start, .tx 0x4E true, .tx b true, .stop]

/-- `P(x, y)` of 95_test_vectors.md. -/
def strobeOf (x y : Byte) : List Event := expanderWrite x ++ [.delay 450] ++ expanderWrite y ++ [.delay 37000]

/-! ### WellFormed -/

theorem test_wf_start_transaction : (Instr.startTransaction 128 .write).wellFormed = false := by decide
theorem test_wf_write_reg : (Instr.writeReg 128 []).wellFormed = false := by decide
theorem test_wf_read_reg_addr : (Instr.readReg 128 0 1).wellFormed = false := by decide
theorem test_wf_read_reg_count : (Instr.readReg 127 0 0).wellFormed = false := by decide
theorem test_wf_ping_device : (Instr.pingDevice 255).wellFormed = false := by decide
theorem test_wf_create_char : (Instr.createChar 0 [1, 2, 3, 4, 5, 6, 7]).wellFormed = false := by decide
theorem test_wf_set_channel_channel : (Instr.setChannel 16 0 0).wellFormed = false := by decide
theorem test_wf_set_channel_on : (Instr.setChannel 15 0x1000 0).wellFormed = false := by decide
theorem test_wf_set_channel_off : (Instr.setChannel 15 0 0xFFFF).wellFormed = false := by decide
theorem test_wf_read_average : (Instr.readAverage 0).wellFormed = false := by decide
theorem test_wf_tare : (Instr.tare 0).wellFormed = false := by decide
theorem test_wf_get_value : (Instr.getValue 0).wellFormed = false := by decide
theorem test_wf_get_units : (Instr.getUnits 0).wellFormed = false := by decide
theorem test_wf_boundaries : (Instr.setChannel 15 0xFFF 0xFFF).wellFormed = true
    ∧ (Instr.startTransaction 127 .read).wellFormed = true ∧ (Instr.tare 255).wellFormed = true := by decide

/-! ### Decoding of written-out commands -/

/-- A command byte string decodes to this operation and leaves nothing. -/
def decodes (p : List Byte × Instr) : Bool :=
  match decode p.1 with
  | .ok (i, rest) => decide (i = p.2 ∧ rest = [])
  | .error _ => false

/-- Why a command byte string is refused. -/
def decodeError (l : List Byte) : Option DecodeError :=
  match decode l with
  | .ok _ => none
  | .error e => some e

def controllerCommands : List (List Byte × Instr) :=
  [([0x01, 0x27, 0x00], .startTransaction 0x27 .write), ([0x01, 0x27, 0x01], .startTransaction 0x27 .read),
    ([0x02, 0xFF], .writeByte 0xFF), ([0x03], .readAck), ([0x04], .readNack), ([0x05], .stop),
    ([0x06, 0x40, 0x02, 0x00, 0xA0], .writeReg 0x40 [0x00, 0xA0]), ([0x07, 0x40, 0x06, 0x81, 0x01], .readReg 0x40 6 129),
    ([0x08, 0x41], .pingDevice 0x41), ([0x09], .scanBus), ([0x0A], .wait), ([0x0B, 0x00], .launch .start),
    ([0x0B, 0x01, 0x4E], .launch (.tx 0x4E)), ([0x0B, 0x02, 0x01], .launch (.rx true)), ([0x0B, 0x03], .launch .stop),
    ([0x10], .acquire), ([0x11], .release .token)]

def displayCommandsLow : List (List Byte × Instr) :=
  [([0x20], .lcdInit), ([0x21, 0x21], .writeChar 0x21), ([0x22, 0x02, 0x48, 0x69], .writeStr [0x48, 0x69]),
    ([0x23, 0x0F], .commandWrite 0x0F), ([0x24], .commandRead), ([0x25, 0x05, 0x01], .setCursor 5 1),
    ([0x26], .displayOn), ([0x27], .displayOff), ([0x28], .cursorOn), ([0x29], .cursorOff), ([0x2A], .blinkOn),
    ([0x2B], .blinkOff), ([0x2C], .scrollLeft), ([0x2D], .scrollRight), ([0x2E], .leftToRight), ([0x2F], .rightToLeft)]

def displayCommandsHigh : List (List Byte × Instr) :=
  [([0x30], .autoscroll), ([0x31], .noAutoscroll),
    ([0x32, 0x01, 0x08, 0, 0x0A, 0, 0x11, 0x0E, 0, 0, 0], .createChar 1 [0, 0x0A, 0, 0x11, 0x0E, 0, 0, 0]),
    ([0x33], .backlight), ([0x34], .noBacklight), ([0x35, 0x41, 0x01], .send 0x41 .data), ([0x36, 0x00], .receive .cmd),
    ([0x37], .clear), ([0x38, 0x4D], .expWrite 0x4D), ([0x39], .expRead), ([0x3A, 0x04, 0x01], .pulseNibble 4 .data),
    ([0x3B, 0x00], .readNibble .cmd), ([0x3C, 0x01], .setBacklight true)]

def pwmAndLoadCellCommands : List (List Byte × Instr) :=
  [([0x40], .pwmInit), ([0x41, 0x03, 0x23, 0x01, 0xBC, 0x0A], .setChannel 3 0x123 0xABC), ([0x50], .isReady),
    ([0x51, 0x04, 0x03, 0x02, 0x01], .waitReady 0x01020304), ([0x52, 3, 0, 0, 0, 1, 0, 0, 0], .waitReadyRetry 3 1),
    ([0x53], .read), ([0x54, 0x02], .readAverage 2), ([0x55, 0x02], .tare 2), ([0x56, 0x02], .getValue 2),
    ([0x57, 0x02], .getUnits 2), ([0x58], .powerDown), ([0x59], .powerUp), ([0x5A, 0x40], .setGain 64),
    ([0x5B, 0x10], .shiftInByte .b16), ([0x5B, 0x08], .shiftInByte .b8), ([0x5C], .lcPulse), ([0x5D, 0x01], .clk true)]

theorem test_decode_controller : controllerCommands.all decodes = true := by decide +kernel
theorem test_decode_display : displayCommandsLow.all decodes = true ∧ displayCommandsHigh.all decodes = true := by
  decide +kernel
theorem test_decode_pwm_and_load_cell : pwmAndLoadCellCommands.all decodes = true := by decide +kernel

/-- ENC-1 to ENC-6. -/
theorem test_decode_reserved :
    ([[0x00], [0x0C], [0x12], [0x3D], [0x42], [0x5E], [0xFF]].all fun l => decodeError l = some .reservedOp) = true := by
  decide +kernel

/-- Log 13: a bit byte of 2, a nibble byte of 16, a base of 1, a missing operand byte. -/
theorem test_decode_refuses : decodeError [0x5D, 2] = some .operandOutsideType
    ∧ decodeError [0x3A, 16, 0] = some .operandOutsideType ∧ decodeError [0x5B, 1] = some .operandOutsideType
    ∧ decodeError [0x41, 3, 0] = some .truncated := by decide +kernel

theorem test_table_word : decodeTableWord 48 0x080000000341 = some (.setChannel 3 0 0x800)
    ∧ decodeTableWord 8 0x12 = none := by decide +kernel

/-- A table word is the first operation after construction. -/
theorem test_first_step : (stateOf (step (State.withFetchWord State.reset 8 0x10))).map (·.ret) =
    some (.token .token) := by rfl

/-! ### BusController -/

/-- ENC-7, ENC-8. -/
theorem test_address_byte : addressByte 0x27 .read = 0x4F ∧ addressByte 0x7F .write = 0xFE := by decide
/-- BC-2. -/
theorem test_start_transaction : (stateOf (exec (.startTransaction 0x27 .read)
      { held with env.script := [{ done := true }, { done := true, ack := false }] })).map
      (fun t => (t.hist, t.bc.phase, t.bc.status)) = some ([.start, .tx 0x4F false], .activeR, .mrSlaNack) := by decide +kernel
/-- BC-3. -/
theorem test_repeated_start : events (.startTransaction 0x40 .read) (heldIn .activeW) = some [.repStart, .tx 0x81 true] := by
  decide +kernel
/-- BC-6. -/
theorem test_write_byte : (stateOf (exec (.writeByte 0x12) { heldIn .activeW with
      env.script := [{ done := true, ack := false }] })).map (fun t => (t.hist, t.bc.status)) =
    some ([.tx 0x12 false], .mtDataNack) := by decide +kernel
/-- BC-10. -/
theorem test_read_ack : (stateOf (exec .readAck { heldIn .activeR with
      env.script := [{ done := true, rx := 0x5A }] })).map (fun t => (t.hist, t.ret)) =
    some ([.rx 0x5A true], .byte 0x5A) := by decide +kernel
/-- BC-11. -/
theorem test_read_nack : (stateOf (exec .readNack { heldIn .activeR with
      env.script := [{ done := true, rx := 0x07 }] })).map (fun t => (t.hist, t.bc.status)) =
    some ([.rx 0x07 false], .mrDataNack) := by decide +kernel
/-- BC-14. -/
theorem test_stop : (stateOf (exec .stop (heldIn .activeW))).map (fun t => (t.hist, t.bc.phase, t.bc.status)) =
    some ([.stop], .idle, .noInfo) := by decide +kernel
/-- BC-17. -/
theorem test_write_reg : events (.writeReg 0x40 [0x00, 0xA0]) { held with env.script :=
      [{ done := true }, { done := true }, { done := true, ack := false }, { done := true }] } =
    some [.start, .tx 0x80 true, .tx 0x00 false, .tx 0xA0 true, .stop] := by decide +kernel
/-- BC-21: an absent device. -/
theorem test_read_reg : events (.readReg 0x41 0x06 1)
      { held with env.script := List.replicate 6 { done := true, ack := false, rx := 0xFF } } =
    some [.start, .tx 0x82 false, .tx 0x06 false, .repStart, .tx 0x83 false, .rx 0xFF false, .stop] := by decide +kernel
/-- BC-19. -/
theorem test_read_reg_bytes : returns (.readReg 0x40 0x06 3) { held with env.script :=
      ([1, 1, 1, 1, 1, 1, 2, 3].map fun b => { done := true, rx := b }) } = some (.bytes [1, 2, 3]) := by decide +kernel
/-- BC-23. -/
theorem test_ping_device : returns (.pingDevice 0x41)
    { held with env.script := [{ done := true }, { done := true, ack := false }] } = some (.bool false) := by decide +kernel
/-- Vector 1.1, with devices at 0x27 and 0x40. -/
theorem test_scan_bus : returns .scanBus { held with env.script :=
      ((List.range 127).flatMap fun a => [{ done := true }, { done := true, ack := decide (a = 0x27 ∨ a = 0x40) }]) } =
    some (.presence ((List.range 127).map fun a => decide (a = 0x27 ∨ a = 0x40))) := by decide +kernel
/-- H-1. -/
theorem test_hang : (stateOf (exec (.pingDevice 0x40) { held with env.script := stuck.env.script })).map
      (fun t => (t.hist, t.bc.ready, t.bc.sta, t.bc.phase)) = some ([], false, true, .idle) := by decide +kernel
/-- The register-level vector: `launch` clears the ready flag and writes the data register. -/
theorem test_launch : (stateOf (exec (.launch (.tx 0x4E)) { heldIn .started with env := stuck.env })).map
      (fun t => (t.hist, t.bc.ready, t.bc.data)) = some ([], false, 0x4E) := by decide +kernel
/-- The same: when the action completes, `wait` returns. -/
theorem test_wait : (stateOf (exec .wait { heldIn .started with
      bc.ready := false, bc.data := 0x4E, bc.pending := some (.tx 0x4E) })).map
      (fun t => (t.hist, t.bc.ready, t.bc.status, t.work.todo)) = some ([.tx 0x4E true], true, .mtSlaAck, []) := by
  decide +kernel

/-! ### SharedBusHandle -/

/-- SB-1, SB-2. -/
theorem test_acquire : returns .acquire ready = some (.token .token) ∧ returns .acquire held = some (.err .busBusy) := by
  decide +kernel
/-- SB-8. -/
theorem test_release : (stateOf (exec (.release .token) (heldIn .activeW))).map (fun t => (t.sb.held, t.bc.phase)) =
    some (false, .activeW) := by decide +kernel
/-- SB-6, PRI-1: busy comes before the operand check. -/
theorem test_busy_first : returns (.setChannel 16 0 0) held = some (.err .busBusy) := by decide +kernel

/-! ### DisplayDriver -/

/-- ENC-9. -/
theorem test_expander_byte : expanderByte true 0xA .data false true = 0xAD := by decide
/-- ENC-10. -/
theorem test_expander_byte_read : expanderByte false 0xA .cmd true false = 0xA2 := by decide
/-- LCD-I1, its first twelve events and its length. -/
theorem test_lcd_init : (events .lcdInit ready).map (fun l => (l.take 12, l.length)) =
    some ([.delay 50000000] ++ strobeOf 0x3C 0x38 ++ [.delay 4500000], 126) := by decide +kernel
/-- R199, with the function-set byte of LCD-I4: held in the first wait of its second command, `lcd_init` has written
function set and entry mode, and not yet display control. -/
theorem test_lcd_init_held : (stateOf (exec .lcdInit { ready with
      lcd.lines := 4, lcd.font := true, lcd.fn := 0x20, lcd.entry := 0x04, lcd.ctrl := 0x08
      env.script := List.replicate 36 { done := true } ++ [{ done := false }] })).map
      (fun t => (t.hist.length, t.lcd.fn, t.lcd.entry, t.lcd.ctrl)) = some (65, 0x2C, 0x06, 0x08) := by decide +kernel
/-- LCD-12. -/
theorem test_write_char : events (.writeChar 0x41) ready = some (strobeOf 0x4D 0x49 ++ strobeOf 0x1D 0x19) := by decide +kernel
/-- LCD-13. -/
theorem test_write_str : expanderBytes (.writeStr [0x48, 0x69]) ready =
    some [0x4D, 0x49, 0x8D, 0x89, 0x6D, 0x69, 0x9D, 0x99] := by decide +kernel
/-- LCD-16. -/
theorem test_command_write : (stateOf (exec (.commandWrite 0x0F) ready)).map (fun t => (t.lcd.ctrl, t.lcd.fn)) =
    some (0x0F, 0x28) := by decide +kernel
/-- LCD-21. -/
theorem test_command_write_unshadowed : (stateOf (exec (.commandWrite 0x13) ready)).map (·.lcd) = some ready.lcd := by
  decide +kernel
/-- LCD-11. -/
theorem test_command_read : returns .commandRead { ready with env.script := (List.replicate 9 { done := true, rx := 0x0E }
      ++ List.replicate 9 { done := true, rx := 0x5E }) } = some (.byte 0x05) := by decide +kernel
/-- Vector 1.6, third row. -/
theorem test_set_cursor : expanderBytes (.setCursor 0 255) ready = some [0xCC, 0xC8, 0x0C, 0x08] := by decide +kernel
/-- LCD-24. -/
theorem test_set_cursor_range : refusalIn (exec (.setCursor 0x2C 3) { ready with lcd.lines := 4 }) = some .ddramRange := by
  decide +kernel
/-- LCD-26. -/
theorem test_display_on : expanderBytes .displayOn { ready with lcd.ctrl := 0x08 } = some [0x0C, 0x08, 0xCC, 0xC8] := by
  decide +kernel
/-- LCD-27. -/
theorem test_display_off : (stateOf (exec .displayOff { ready with lcd.ctrl := 0x0F })).map (·.lcd.ctrl) = some 0x0B := by
  decide +kernel
/-- LCD-28. -/
theorem test_cursor_on : (stateOf (exec .cursorOn ready)).map (·.lcd.ctrl) = some 0x0E := by decide +kernel
/-- LCD-29. -/
theorem test_cursor_off : expanderBytes .cursorOff { ready with lcd.ctrl := 0x0E } = some [0x0C, 0x08, 0xCC, 0xC8] := by
  decide +kernel
/-- LCD-30. -/
theorem test_blink_on : (stateOf (exec .blinkOn ready)).map (·.lcd.ctrl) = some 0x0D := by decide +kernel
/-- LCD-31. -/
theorem test_blink_off : (stateOf (exec .blinkOff { ready with lcd.ctrl := 0x0D })).map (·.lcd.ctrl) = some 0x0C := by
  decide +kernel
/-- LCD-33. -/
theorem test_scroll_left : expanderBytes .scrollLeft ready = some [0x1C, 0x18, 0x8C, 0x88] := by decide +kernel
/-- LCD-34. -/
theorem test_scroll_right : expanderBytes .scrollRight ready = some [0x1C, 0x18, 0xCC, 0xC8] := by decide +kernel
/-- LCD-39. -/
theorem test_left_to_right : (stateOf (exec .leftToRight { ready with lcd.entry := 0x05 })).map (·.lcd.entry) =
    some 0x07 := by decide +kernel
/-- LCD-36. -/
theorem test_right_to_left : expanderBytes .rightToLeft ready = some [0x0C, 0x08, 0x4C, 0x48] := by decide +kernel
/-- LCD-37. -/
theorem test_autoscroll : (stateOf (exec .autoscroll ready)).map (·.lcd.entry) = some 0x07 := by decide +kernel
/-- LCD-38. -/
theorem test_no_autoscroll : expanderBytes .noAutoscroll { ready with lcd.entry := 0x07 } =
    some [0x0C, 0x08, 0x6C, 0x68] := by decide +kernel
/-- LCD-44 and LCD-45: the first command and the number of events. -/
theorem test_create_char : (events (.createChar 9 [0, 0x0A, 0, 0x11, 0x0E, 0, 0, 0]) ready).map
      (fun l => (l.take 10, l.length)) = some (strobeOf 0x4C 0x48, 180) := by decide +kernel
/-- LCD-47. -/
theorem test_create_char_length : refusalIn (exec (.createChar 0 [1, 2, 3, 4, 5, 6, 7]) ready) = some .mapLength := by
  decide +kernel
/-- LCD-43: the enable bit the expander reports is written back. -/
theorem test_backlight : events .backlight { ready with
      lcd.bl := false, env.script := List.replicate 6 { done := true, rx := 0x04 } } =
    some ([.start, .tx 0x4F true, .rx 0x04 false, .stop] ++ expanderWrite 0x0C) := by decide +kernel
/-- LCD-42. -/
theorem test_no_backlight : expanderBytes .noBacklight
    { ready with env.script := List.replicate 6 { done := true, rx := 0xFF } } = some [0x4F, 0xF7] := by decide +kernel
/-- LCD-40, by the operation the two are written with. -/
theorem test_set_backlight : (stateOf (exec (.setBacklight false) ready)).map (fun t => (t.lcd.bl, t.sb.held)) =
    some (false, false) := by decide +kernel
/-- LCD-8. -/
theorem test_send : expanderBytes (.send 0x41 .data) { ready with lcd.bl := false } = some [0x45, 0x41, 0x15, 0x11] := by
  decide +kernel
/-- LCD-10. -/
theorem test_receive : returns (.receive .data) { ready with env.script := (List.replicate 9 { done := true, rx := 0x3E }
      ++ List.replicate 9 { done := true, rx := 0x9E }) } = some (.byte 0x39) := by decide +kernel
/-- LCD-48. -/
theorem test_clear : (events .clear ready).map (fun l => (l.length, l.getLast?)) = some (21, some (.delay 2000000)) := by
  decide +kernel
/-- LCD-1. -/
theorem test_exp_write : events (.expWrite 0x4D) held = some (expanderWrite 0x4D) := by decide +kernel
/-- LCD-2. -/
theorem test_exp_read : (stateOf (exec .expRead { held with
      env.script := List.replicate 3 { done := true, rx := 0x48 } })).map (fun t => (t.hist, t.ret)) =
    some ([.start, .tx 0x4F true, .rx 0x48 false, .stop], .byte 0x48) := by decide +kernel
/-- LCD-3. -/
theorem test_pulse_nibble : events (.pulseNibble 4 .data) held = some (strobeOf 0x4D 0x49) := by decide +kernel
/-- LCD-9. -/
theorem test_read_nibble : events (.readNibble .cmd)
      { held with env.script := List.replicate 9 { done := true, rx := 0x3E } } =
    some (expanderWrite 0xFE ++ [.delay 450, .start, .tx 0x4F true, .rx 0x3E false, .stop] ++ expanderWrite 0xFA
      ++ [.delay 37000]) := by decide +kernel
/-- LCD-9, its result. -/
theorem test_read_nibble_result : returns (.readNibble .cmd)
    { held with env.script := List.replicate 9 { done := true, rx := 0x3E } } = some (.nibble 0x3) := by decide +kernel
/-- H-3: held inside the second expander write. -/
theorem test_display_hang : (stateOf (exec .displayOn { ready with env.script :=
      (List.replicate 4 { done := true } ++ List.replicate 2 { done := false }) })).map
      (fun t => (t.hist, t.sb.held, t.bc.ready, t.bc.phase)) =
    some (expanderWrite 0x0C ++ [.delay 450, .start], true, false, .started) := by decide +kernel

/-! ### PwmDriver -/

/-- PWM-1. -/
theorem test_pwm_init : events .pwmInit ready = some [.start, .tx 0x80 true, .stop, .start, .tx 0x80 true, .tx 0x00 true,
    .tx 0xA0 true, .stop, .start, .tx 0x80 true, .tx 0xFE true, .tx 0x03 true, .stop] := by decide +kernel
/-- Vector 1.8. -/
theorem test_pwm_init_absent : (stateOf (exec .pwmInit { ready with
      env.script := List.replicate 2 { done := true, ack := false } })).map
      (fun t => (t.hist, t.ret, t.sb.held, t.bc.status)) =
    some ([.start, .tx 0x80 false, .stop], .err .noConnection, false, .mtSlaNack) := by decide +kernel
/-- PWM-6. -/
theorem test_set_channel : events (.setChannel 15 0xFFF 0) ready =
    some [.start, .tx 0x80 true, .tx 0x42 true, .tx 0xFF true, .tx 0x0F true, .tx 0x00 true, .tx 0x00 true, .stop] := by
  decide +kernel
/-- PRI-4. -/
theorem test_set_channel_order : refusalIn (exec (.setChannel 16 0x1000 0) ready) = some .channelRange := by decide +kernel

/-! ### LoadCellDriver -/

/-- LC-1. -/
theorem test_clk : (stateOf (exec (.clk true) ready)).map (fun t => (t.hist, t.lc.clk)) = some ([.clk true], true) := by
  decide +kernel
/-- LC-5. -/
theorem test_is_ready : returns .isReady { pinned [true] with lc.phase := .poweredDown } = some (.bool false) := by
  decide +kernel
/-- LC-8. -/
theorem test_wait_ready : events (.waitReady 5) (pinned [false]) = some [.dout false] := by decide +kernel
/-- LC-6, its first poll: the operation holds. -/
theorem test_wait_ready_holds : (stateOf (exec (.waitReady 1) (pinned [true, true, false]))).map
      (fun t => (t.hist, t.work.todo)) =
    some ([.dout true, .delay 1000000], [.pollReady 1000000, .ret .unit]) := by decide +kernel
/-- LC-12. -/
theorem test_wait_ready_retry : (stateOf (exec (.waitReadyRetry 3 5) (pinned [true, false]))).map
      (fun t => (t.hist, t.ret)) = some ([.dout true, .delay 5000000, .dout false], .bool true) := by decide +kernel
/-- LC-11. -/
theorem test_wait_ready_retry_gives_up : returns (.waitReadyRetry 2 5) (pinned [true, true]) = some (.bool false) := by
  decide +kernel
/-- LC-15. -/
theorem test_shift_in_byte : (stateOf (exec (.shiftInByte .b16)
      (pinned [true, false, true, false, false, true, false, true]))).map (fun t => (t.ret, t.lc.phase)) =
    some (.byte 0xA5, .shifting 23) := by decide +kernel
/-- Vector 1.3 A. -/
theorem test_read_minimum : returns .read (pinned (reading 0x800000)) = some (.i32 0xFF800000) := by decide +kernel
/-- LC-22: three trailing pulses, 133 events. -/
theorem test_read_gain : (stateOf (exec .read { pinned (reading 0x000100) with lc.gain := 3 })).map
      (fun t => (t.hist.length, t.ret, t.lc.phase)) = some (133, .i32 256, .idle) := by decide +kernel
/-- LC-26: toward zero. -/
theorem test_read_average : returns (.readAverage 2) (pinned (reading 0xFFFFFD ++ reading 0xFFFFFC)) =
    some (.i32 (BitVec.ofInt 32 (-3))) := by decide +kernel
/-- LC-31. -/
theorem test_tare : (stateOf (exec (.tare 2) (pinned (reading 500 ++ reading 502)))).map (·.lc.offset) = some 501 := by
  decide +kernel
/-- LC-34. -/
theorem test_get_value : returns (.getValue 1) { pinned (reading 0x7FFFFF) with lc.offset := BitVec.ofInt 32 (-8388608) } =
    some (.i32 16777215) := by decide +kernel
/-- LC-36. -/
theorem test_get_units : returns (.getUnits 2) { pinned (reading 601 ++ reading 601) with lc.offset := 501, lc.scale := 3 } =
    some (.rational (100 / 3)) := by decide +kernel
/-- LC-37. -/
theorem test_get_units_negative : returns (.getUnits 1) { pinned (reading 100) with lc.scale := -2 } =
    some (.rational (-50)) := by decide +kernel
/-- LC-30, LC-32, LC-43. -/
theorem test_zero_count : refusalIn (exec (.tare 0) { ready with lc.phase := .poweredDown }) = some .zeroCount := by
  decide +kernel
/-- LC-38. -/
theorem test_power_down : (stateOf (exec .powerDown ready)).map (fun t => (t.hist, t.lc.phase, t.lc.clk)) =
    some ([.clk true], .poweredDown, true) := by decide +kernel
/-- LC-40. -/
theorem test_power_up : (stateOf (exec .powerUp { ready with lc.phase := .poweredDown, lc.clk := true, lc.gain := 2 })).map
      (fun t => (t.hist, t.lc.phase, t.lc.clk, t.lc.gain)) = some ([.clk false], .idle, false, 2) := by decide +kernel
/-- Vector 1.5. -/
theorem test_set_gain : ([(128, 1, 1), (64, 1, 3), (32, 1, 2), (100, 3, 3), (1, 2, 2), (0, 2, 2), (255, 3, 3)].all
    fun p : Byte × Nat × Nat =>
      (stateOf (exec (.setGain p.1) { ready with lc.gain := p.2.1 })).map (·.lc.gain) = some p.2.2) = true := by
  decide +kernel
/-- LC-42. -/
theorem test_lc_pulse : events .lcPulse ready = some [.clk true, .delay 5, .clk false, .delay 7] := by decide +kernel

/-! ### Construction -/

/-- PWM_LED0_BASE = 0xC0 is admitted, 0xC1 and PWM_ADDR = 0x80 are not. -/
theorem test_construct_pwm : (stateOf (construct { params := { pwmLed0Base := 0xC0 } })).isSome = true
    ∧ refusalIn (construct { params := { pwmLed0Base := 0xC1 } }) = some .badParameter
    ∧ refusalIn (construct { pwmAddr := 0x80 }) = some .badParameter := by decide +kernel
/-- LC_GAIN_INIT = 0 and 4, LC_SCALE = 0. -/
theorem test_construct_load_cell : refusalIn (construct { lcGainInit := 0 }) = some .badParameter
    ∧ refusalIn (construct { lcGainInit := 4 }) = some .badParameter
    ∧ refusalIn (construct { lcScale := 0 }) = some .badParameter := by decide +kernel

/-! ### Witnesses

For each statement with hypotheses a state and operands that meet them together, at the boundaries of their ranges. -/

theorem ready_answers : AnswersReady 254 ready := by unfold AnswersReady; decide +kernel
theorem held_answers : AnswersReady 254 held := by unfold AnswersReady; decide +kernel

/-- A block whose caller has issued one command. -/
def issued (bytes : List Byte) : State := { ready with cmds := bytes }

theorem ready_invariant : BlockInv ready where
  lines := by decide
  gain := by decide
  lcPhase := trivial
  scale := by decide +kernel
  offset := by unfold sampleRange; decide
  samples := by intro v hv; cases hv
  shadows := by intro r; cases r <;> decide
  status := by decide
  ready := by decide
  sta := by decide
  stopNotPending := by decide
  enabled := rfl
  todo := .inl rfl
  idle := fun _ => rfl

theorem witness_DecodeAcceptsOnlyEncodings : decode [0x07, 0x40, 0x06, 0x80, 0x01, 0x05] = .ok (.readReg 0x40 6 128, [0x05]) := by
  rfl

theorem witness_ReservedOpCodeIsRefused : ∀ op ∈ ([0x00, 0x0C, 0x0F, 0x12, 0x1F, 0x3D, 0x42, 0x4F, 0x5E, 0xFF] : List Byte),
    (issued [op, 1]).refused = false ∧ (issued [op, 1]).work.todo = [] ∧ (issued [op, 1]).cmds = [op, 1]
      ∧ op.toNat ∉ opCodeMap := by
  decide +kernel

theorem witness_StepRunsTheDecodedOperation : (issued [0x05, 0x03]).refused = false ∧ (issued [0x05, 0x03]).work.todo = []
    ∧ decode (issued [0x05, 0x03]).cmds = .ok (.stop, [0x03]) ∧ ready.refused = false ∧ ready.work.todo = []
    ∧ ready.cmds = [] := ⟨rfl, rfl, rfl, rfl, rfl, rfl⟩

theorem witness_EveryStepKeepsTheInvariant : BlockInv ready ∧ ∃ t, step ready = .next t := ⟨ready_invariant, _, rfl⟩

theorem witness_ConstructionMeetsTheInvariant : ∃ t, construct { numLines := 4, lcGainInit := 3 } = .next t :=
  ⟨.constructed { numLines := 4, lcGainInit := 3 }, if_pos (by decide +kernel)⟩

theorem witness_HistoryOnlyGrows : ∃ t, step (issued [0x26]) = .next t := ⟨_, rfl⟩

theorem witness_ConstructionFieldsNeverChange : ∃ t, step (issued [0x58]) = .next t := ⟨_, rfl⟩

theorem witness_ConstructedStateIsTheTable : ({} : ConstructArgs).inRange = true
    ∧ ({ lcdAddr := 127, numLines := 4, font5x10 := true, pwmAddr := 127, lcGainInit := 3, lcScale := -1,
          params := { pwmLed0Base := 0xC0, pwmRegMode1 := 0xFF } } : ConstructArgs).inRange = true
    ∧ ({ lcdAddr := 0, numLines := 1, pwmAddr := 0, lcGainInit := 1 } : ConstructArgs).inRange = true := by decide +kernel

theorem witness_ARefusalEndsTheRun : step (issued [0x11]) = .refused .noHolder ∧ ∃ t, step (issued [0x10]) = .next t :=
  ⟨rfl, _, rfl⟩

/-- A block with an action pending, in a phase. -/
def awaiting (a : BusAction) (phase : BusPhase) (done : Bool) : State :=
  { heldIn phase with bc.pending := some a, bc.ready := false, env.script := List.replicate 4 { done := done } }

/-- What a STOP on a pending action asks for, at its first and its last moment. -/
def stopOnPending (s : State) (a : BusAction) : Bool :=
  s.sb.held && decide (s.bc.pending = some a) && !(s.env.answer 0).done && !(s.env.answer 1).done

theorem witness_LaunchCompletes : held.sb.held = true ∧ held.bc.pending = none ∧ (held.env.answer 0).done = true
    ∧ (({ held with env := stuck.env } : State).env.answer 0).done = false
    ∧ stopOnPending (awaiting (.rx true) .activeR false) (.rx true) = true := by decide +kernel

theorem witness_PendingActionCompletes : ∀ a ∈ [BusAction.start, .tx 0x4E, .rx true],
    ∀ phase ∈ [BusPhase.idle, .started, .activeW, .activeR],
      (awaiting a phase true).bc.pending = some a ∧ ((awaiting a phase true).env.answer 0).done = true
        ∧ (awaiting a phase false).bc.pending = some a ∧ ((awaiting a phase false).env.answer 0).done = false := by
  decide +kernel

theorem witness_WaitReturnsWhenReady : ({ held with bc.ready := true } : State).sb.held = true
    ∧ ({ held with bc.ready := true } : State).bc.pending = none ∧ (awaiting .start .idle true).sb.held = true
    ∧ ((awaiting .start .idle true).env.answer 0).done = true ∧ (awaiting .start .idle false).bc.ready = false
    ∧ ((awaiting .start .idle false).env.answer 0).done = false ∧ held.sb.held = true ∧ held.bc.pending = none
    ∧ held.bc.ready = false := by decide +kernel

/-- A `wait` that holds; the oracle completes its action at the fourth question. -/
def waiting : State := { awaiting (.tx 0x4E) .started false with
  work.todo := [.wait, .ret .unit],
  env.script := [{ done := false }, { done := false }, { done := false }, { done := true }] }

theorem witness_AWaitNeverTimesOut : waiting.refused = false ∧ waiting.work.todo = .wait :: [.ret .unit]
    ∧ waiting.bc.ready = false ∧ waiting.bc.pending ≠ none ∧ (∀ k, k < 3 → (waiting.env.answer k).done = false)
    ∧ (let s : State := { held with work.todo := [.wait, .ret .unit] }
      s.refused = false ∧ s.work.todo = .wait :: [.ret .unit] ∧ s.bc.ready = false ∧ s.bc.pending = none) := by
  decide +kernel

theorem witness_AWaitEndsAtCompletion : waiting.refused = false ∧ waiting.work.todo = .wait :: [.ret .unit]
    ∧ waiting.bc.pending = some (.tx 0x4E) ∧ waiting.bc.ready = false
    ∧ (∀ k, k < 3 → (waiting.env.answer k).done = false) ∧ (waiting.env.answer 3).done = true := by decide +kernel

theorem witness_StartTransactionCompletes : held.sb.held = true ∧ AnswersReady 2 held ∧ (0 : Byte).toNat < 128
    ∧ (127 : Byte).toNat < 128 := ⟨rfl, held_answers.mono (by decide), by decide, by decide⟩

theorem witness_ByteTransfersComplete : (heldIn .activeW).sb.held = true ∧ AnswersReady 1 (heldIn .activeW)
    ∧ (heldIn .activeW).bc.phase = .activeW ∧ AnswersReady 1 (heldIn .activeR) ∧ (heldIn .activeR).bc.phase = .activeR :=
  ⟨rfl, (held_answers.congr rfl rfl).mono (by decide), rfl, (held_answers.congr rfl rfl).mono (by decide), rfl⟩

theorem witness_StopCompletes : (heldIn .activeR).sb.held = true ∧ (heldIn .activeR).bc.pending = none
    ∧ stopOnPending (awaiting (.tx 0x4E) .started false) (.tx 0x4E) = true := by decide +kernel

/-- A STOP on a pending TX leaves it pending; one that completes before the STOP has its event first (log 23). -/
theorem test_stop_on_pending :
    (stateOf (exec .stop (awaiting (.tx 0x4E) .started false))).map (fun t => (t.hist, t.bc.phase, t.bc.pending)) =
      some ([.stop], .idle, some (.tx 0x4E))
    ∧ (stateOf (exec .stop (awaiting (.tx 0x4E) .started true))).map (fun t => (t.hist, t.bc.pending)) =
      some ([.tx 0x4E true, .stop], none) := by decide +kernel

theorem witness_WriteRegCompletes : held.sb.held = true ∧ (127 : Byte).toNat < 128
    ∧ AnswersReady (2 + ([] : List Byte).length) held ∧ AnswersReady (2 + ([0, 0xA0] : List Byte).length) held
    ∧ held.bc.phase = .idle := ⟨rfl, by decide, held_answers.mono (by decide), held_answers.mono (by decide), rfl⟩

theorem witness_ReadRegCompletes : held.sb.held = true ∧ (127 : Byte).toNat < 128 ∧ AnswersReady (6 + 0) held
    ∧ AnswersReady (6 + 2) held ∧ held.bc.phase = .idle :=
  ⟨rfl, by decide, held_answers.mono (by decide), held_answers.mono (by decide), rfl⟩

theorem witness_PingDeviceCompletes : held.sb.held = true ∧ (0 : Byte).toNat < 128 ∧ AnswersReady 2 held :=
  ⟨rfl, by decide, held_answers.mono (by decide)⟩

theorem witness_ScanBusFindsTheDevices : held.sb.held = true ∧ AnswersReady 254 held ∧ held.bc.phase = .idle
    ∧ ∀ a, a < 127 → (held.env.answer (2 * a + 1)).ack = true := ⟨rfl, held_answers, rfl, by decide +kernel⟩

theorem witness_NoTokenIsRefused : ready.sb.held = false ∧ (Instr.pingDevice 127).wellFormed = true
    ∧ partOf (.pingDevice 127) = .controller ∧ Instr.expRead.wellFormed = true ∧ partOf .expRead = .internal :=
  ⟨rfl, rfl, rfl, rfl, rfl⟩

theorem witness_PhaseErrorIsRefused : held.sb.held = true ∧ held.bc.phase ≠ .activeW ∧ held.bc.phase ≠ .activeR
    ∧ (awaiting .start .activeW false).sb.held = true ∧ (awaiting .start .activeW false).bc.pending ≠ none
    ∧ BusAction.start ≠ .stop ∧ (127 : Byte).toNat < 128
    ∧ (let s : State := { awaiting .start .idle false with sb.held := false, lcd.lines := 4 }
      s.sb.held = false ∧ s.bc.pending ≠ none ∧ ddramAddress s.cfg.rowOffset s.lcd.lines 0x2B 255 ≤ 0x7F
        ∧ (s.env.answer 0).done = false ∧ (s.env.answer 1).done = false)
    ∧ ([0, 1, 2, 3, 4, 5, 6, 7] : List Byte).length = 8 ∧ (15 : Byte).toNat ≤ 15 ∧ (0xFFF : Half).toNat ≤ 0xFFF
    ∧ (let s : State := { ready with work.todo := [.refuse .phaseError] }
      s.refused = false ∧ s.work.todo = .refuse .phaseError :: []) := by decide +kernel

theorem witness_AddressOutOfRangeIsRefused : 128 ≤ (128 : Byte).toNat ∧ 128 ≤ (255 : Byte).toNat := by decide

/-- Whether an operation answers a next state in which it is held. -/
def holds (i : Instr) (s : State) : Bool := (stateOf (exec i s)).any fun t : State => !t.work.todo.isEmpty

theorem witness_ControllerOperationsFrame : partOf .stop = .controller ∧ (∃ t, exec .stop held = .next t)
    ∧ partOf .scanBus = .controller ∧ holds .scanBus { held with env := stuck.env } = true :=
  ⟨rfl, ⟨_, rfl⟩, rfl, by decide +kernel⟩

theorem witness_HandleOperationsComplete : ready.sb.held = false ∧ held.sb.held = true := ⟨rfl, rfl⟩

theorem witness_DriverOperationWhileHeldRaisesBusBusy : held.sb.held = true ∧ partOf (.setChannel 16 0 0) = .driver :=
  ⟨rfl, rfl⟩

theorem witness_AHeldDriverOperationKeepsTheHandle : stuck.sb.held = false ∧ stuck.bc.pending = none
    ∧ partOf .clear = .driver ∧ holds .clear stuck = true
    ∧ (stateOf (exec .clear stuck)).any (fun u : State => !(goOn 3 u).work.todo.isEmpty) = true := by
  decide +kernel

theorem witness_ExpanderOperationsComplete : held.sb.held = true ∧ AnswersReady 3 held ∧ AnswersReady 6 held
    ∧ AnswersReady 9 held ∧ held.bc.phase = .idle :=
  ⟨rfl, held_answers.mono (by decide), held_answers.mono (by decide), held_answers.mono (by decide), rfl⟩

theorem witness_SendCompletes : ready.sb.held = false ∧ AnswersReady 12 ready ∧ ready.bc.phase = .idle :=
  ⟨rfl, ready_answers.mono (by decide), rfl⟩

theorem witness_WriteStrCompletes : ready.sb.held = false ∧ AnswersReady (12 * ([] : List Byte).length) ready
    ∧ AnswersReady (12 * ([0x48, 0x69] : List Byte).length) ready :=
  ⟨rfl, ready_answers.mono (by decide), ready_answers.mono (by decide)⟩

theorem witness_ReceiveCompletes : ready.sb.held = false ∧ AnswersReady 18 ready := ⟨rfl, ready_answers.mono (by decide)⟩

theorem witness_CommandWriteCompletes : ready.sb.held = false ∧ AnswersReady 12 ready ∧ stuck.sb.held = false
    ∧ stuck.bc.pending = none
    ∧ (∀ c ∈ ([0x20, 0x3F] : List Byte), 0x20 ≤ c.toNat ∧ c.toNat < 0x40)
    ∧ (∀ c ∈ ([0x08, 0x0F] : List Byte), 0x08 ≤ c.toNat ∧ c.toNat < 0x10)
    ∧ (∀ c ∈ ([0x04, 0x07] : List Byte), 0x04 ≤ c.toNat ∧ c.toNat < 0x08)
    ∧ (∀ c ∈ ([0x00, 0x03, 0x10, 0x1F, 0x40, 0xFF] : List Byte),
      c.toNat < 0x04 ∨ (0x10 ≤ c.toNat ∧ c.toNat < 0x20) ∨ 0x40 ≤ c.toNat) :=
  ⟨rfl, ready_answers.mono (by decide), rfl, rfl, by decide, by decide, by decide, by decide⟩

/-- A display of four lines. -/
def fourLines : State := { ready with lcd.lines := 4 }

theorem witness_SetCursorCompletes : fourLines.sb.held = false ∧ 1 ≤ fourLines.lcd.lines ∧ fourLines.lcd.lines ≤ 4
    ∧ [fourLines.cfg.rowOffset.row0, fourLines.cfg.rowOffset.row1, fourLines.cfg.rowOffset.row2,
        fourLines.cfg.rowOffset.row3][min (255 : Byte).toNat (fourLines.lcd.lines - 1)]? = some 0x54
    ∧ (0x2B : Byte).toNat + (0x54 : Byte).toNat ≤ 0x7F ∧ AnswersReady 12 fourLines
    ∧ 0x7F < (0x2C : Byte).toNat + (0x54 : Byte).toNat :=
  ⟨rfl, by decide, by decide, rfl, by decide, (ready_answers.congr rfl rfl).mono (by decide), by decide⟩

theorem witness_DisplayControlOperationsComplete : held.sb.held = true
    ∧ Instr.blinkOff ∈ [Instr.displayOn, .displayOff, .cursorOn, .cursorOff, .blinkOn, .blinkOff]
    ∧ ready.sb.held = false ∧ AnswersReady 12 ready ∧ stuck.sb.held = false ∧ stuck.bc.pending = none
    ∧ holds .displayOff stuck = true := ⟨rfl, by decide, rfl, ready_answers.mono (by decide), rfl, rfl, by decide +kernel⟩

theorem witness_EntryModeOperationsComplete : held.sb.held = true
    ∧ Instr.noAutoscroll ∈ [Instr.leftToRight, .rightToLeft, .autoscroll, .noAutoscroll]
    ∧ fourLines.sb.held = false ∧ AnswersReady 12 fourLines ∧ stuck.sb.held = false ∧ stuck.bc.pending = none
    ∧ holds .autoscroll stuck = true :=
  ⟨rfl, by decide, rfl, (ready_answers.congr rfl rfl).mono (by decide), rfl, rfl, by decide +kernel⟩

theorem witness_ScrollAndClearComplete : ready.sb.held = false ∧ AnswersReady 12 ready :=
  ⟨rfl, ready_answers.mono (by decide)⟩

theorem witness_LcdInitCompletes : ready.sb.held = false ∧ AnswersReady 72 ready ∧ stuck.sb.held = false
    ∧ stuck.bc.pending = none := ⟨rfl, ready_answers.mono (by decide), rfl, rfl⟩

theorem witness_CreateCharCompletes : ready.sb.held = false ∧ ([0, 1, 2, 3, 4, 5, 6, 7] : List Byte).length = 8
    ∧ AnswersReady 108 ready ∧ ([1, 2, 3, 4, 5, 6, 7] : List Byte).length ≠ 8 :=
  ⟨rfl, rfl, ready_answers.mono (by decide), by decide⟩

theorem witness_BacklightOperationsComplete : ready.sb.held = false ∧ AnswersReady 6 ready ∧ stuck.sb.held = false
    ∧ stuck.bc.pending = none := ⟨rfl, ready_answers.mono (by decide), rfl, rfl⟩

theorem witness_DriverOperationsFrame : partOf .displayOn = .driver ∧ (∃ t, exec .displayOn ready = .next t)
    ∧ writesBacklight .displayOn = false ∧ partOf .expRead = .internal ∧ (∃ t, exec .expRead held = .next t)
    ∧ holds .displayOn stuck = true := ⟨rfl, ⟨_, rfl⟩, rfl, rfl, ⟨_, rfl⟩, by decide +kernel⟩

theorem witness_OnlyNamedOperationsWriteAShadow : writesShadow .ctrl .autoscroll = false
    ∧ (∃ t, exec .autoscroll ready = .next t) ∧ writesShadow .entry (.commandWrite 0x08) = false
    ∧ (∃ t, exec (.commandWrite 0x08) ready = .next t) ∧ holds .autoscroll stuck = true :=
  ⟨rfl, ⟨_, rfl⟩, rfl, ⟨_, rfl⟩, by decide +kernel⟩

/-- A block whose PWM device does not answer. -/
def absentPwm : State := block (List.replicate 2 { done := true, ack := false })

theorem witness_PwmInitCompletes : ready.sb.held = false ∧ (ready.env.answer 1).ack = true ∧ AnswersReady 10 ready
    ∧ ready.bc.phase = .idle ∧ absentPwm.sb.held = false ∧ (absentPwm.env.answer 1).ack = false
    ∧ AnswersReady 2 absentPwm :=
  ⟨rfl, rfl, ready_answers.mono (by decide), rfl, rfl, rfl, by unfold AnswersReady; decide +kernel⟩

theorem witness_SetChannelCompletes : ready.sb.held = false ∧ (15 : Byte).toNat ≤ 15 ∧ (0xFFF : Half).toNat ≤ 0xFFF
    ∧ (0 : Half).toNat ≤ 0xFFF ∧ AnswersReady 7 ready ∧ ready.bc.phase = .idle :=
  ⟨rfl, by decide, by decide, by decide, ready_answers.mono (by decide), rfl⟩

theorem witness_SetChannelRefusals : ready.sb.held = false ∧ 15 < (16 : Byte).toNat ∧ (15 : Byte).toNat ≤ 15
    ∧ 0xFFF < (0x1000 : Half).toNat := ⟨rfl, by decide, by decide, by decide⟩

theorem witness_PinOperationsComplete : ({ ready with lc.phase := .poweredDown } : State).bc.pending = none := rfl

theorem witness_WaitReadyPollsUntilReady : (pinned [false]).bc.pending = none
    ∧ ((pinned [false]).env.answer 0).level = false
    ∧ (let s : State := { pinned [true, true, false] with cmds := 0x51 :: wordBytes 1 }
      s.refused = false ∧ s.bc.pending = none ∧ s.work = .idle ∧ s.cmds = 0x51 :: wordBytes 1
        ∧ (∀ j, j < 2 → (s.env.answer j).level = true) ∧ (s.env.answer 2).level = false) := by decide +kernel

theorem witness_WaitReadyRetryCompletes : (pinned [true, true, false]).bc.pending = none ∧ 2 < (3 : Word).toNat
    ∧ (∀ j, j < 2 → ((pinned [true, true, false]).env.answer j).level = true)
    ∧ ((pinned [true, true, false]).env.answer 2).level = false
    ∧ (∀ j, j < (2 : Word).toNat → ((pinned [true, true, false]).env.answer j).level = true)
    ∧ ∀ j, j < (0 : Word).toNat → (ready.env.answer j).level = true := by decide +kernel

theorem witness_ShiftInByteCompletes : ready.bc.pending = none := rfl

theorem witness_ReadCompletes : ready.lc.phase ≠ .poweredDown ∧ ready.bc.pending = none
    ∧ (ready.env.answer 0).level = false := by decide +kernel

theorem witness_ReadPollsUntilReady :
    let s : State := { pinned (true :: true :: reading 0x800000) with cmds := [0x53] }
    s.refused = false ∧ s.lc.phase ≠ .poweredDown ∧ s.bc.pending = none ∧ s.work = .idle ∧ s.cmds = [0x53]
      ∧ (∀ j, j < 2 → (s.env.answer j).level = true) ∧ (s.env.answer 2).level = false := by decide +kernel

/-- A data line that is always low. -/
def lowLine : State := block (List.replicate 6400 { done := true })

theorem witness_AveragingOperationsComplete : (1 : Byte).toNat ≠ 0 ∧ (255 : Byte).toNat ≠ 0
    ∧ lowLine.lc.phase ≠ .poweredDown ∧ lowLine.bc.pending = none ∧ readsReady lowLine.env (255 : Byte).toNat
    ∧ sampleRange lowLine.lc.offset ∧ sampleRange (BitVec.ofInt 32 (-8388608)) := by
  refine ⟨by decide, by decide, by decide, rfl, fun j hj => ?_, by unfold sampleRange; decide, by unfold sampleRange; decide⟩
  have : readQuestions * j < 6400 := by
    have : (255 : Byte).toNat = 255 := rfl
    unfold readQuestions
    omega
  have answer : lowLine.env.script[readQuestions * j]? = some { done := true } := by
    show (List.replicate 6400 _)[_]? = _
    rw [List.getElem?_replicate, if_pos this]
  rw [Env.answer, answer]
  rfl

/-- Two reads of 500 and 502, then the same again (vector 1.4). -/
def twoReadings : State := pinned (reading 500 ++ reading 502 ++ reading 500 ++ reading 502)

theorem witness_TareThenGetValueIsZero : twoReadings.bc.pending = none ∧ readsReady twoReadings.env (2 : Byte).toNat
    ∧ (stateOf (exec (.tare 2) twoReadings)).any (fun t : State =>
      (List.range 2).all (fun j => !(t.env.answer (readQuestions * j)).level)
        && decide (readValues t.env 2 = readValues twoReadings.env 2) && (stateOf (exec (.getValue 2) t)).isSome) = true := by
  refine ⟨rfl, ?_, by decide +kernel⟩
  unfold readsReady
  decide +kernel

theorem witness_LoadCellRefusals : ({ ready with lc.phase := .poweredDown } : State).lc.phase = .poweredDown
    ∧ (1 : Byte) ≠ 0 := by decide +kernel

theorem witness_LoadCellOperationsFrame : partOf (.tare 2) = .loadCell ∧ (∃ t, exec (.tare 2) twoReadings = .next t)
    ∧ (∀ gain, Instr.tare 2 ≠ .setGain gain) ∧ partOf (.setGain 64) = .loadCell
    ∧ (∃ t, exec (.setGain 64) ready = .next t) ∧ (∀ count, Instr.setGain 64 ≠ .tare count)
    ∧ holds (.tare 2) (pinned [true]) = true :=
  ⟨rfl, ⟨_, rfl⟩, by simp, rfl, ⟨_, rfl⟩, by simp, by decide +kernel⟩

end Sys2Proof.Tests
end

section
/-! PROOFS. Scope (spec/00_scope.md): a step between operations, and what a refusal records. -/

namespace Sys2Proof.Machine

/-! ### The refused flag -/

theorem pollRetry_refused (n ns : Nat) (s : State) : (pollRetry n ns s).refused = s.refused := by
  induction n generalizing s with
  | zero => rfl
  | succ n ih =>
    unfold pollRetry
    split
    · rw [ih]; simp
    · simp

/-- No primitive step writes the refused flag: a refusal is an outcome, and what records it is `stepRecorded` (log 9). -/
theorem stepMicro_refused (m : Micro) (s : State) : (stepMicro m s).state.refused = s.refused := by
  cases m <;> simp only [stepMicro]
  case pollRetry retries ns => exact pollRetry_refused retries ns s
  case launch | wait | needAck | rewritePort | pollReady => split <;> simp [Progress.state]
  all_goals simp [Progress.state]

/-- A step that answers a next state leaves the refused flag as it was: no write along the way touches it. -/
theorem step_next_refused {s t : State} (h : step s = .next t) : t.refused = s.refused :=
  step_rel (R := fun s t => t.refused = s.refused) (trans := fun hst htu => htu.trans hst)
    (tick := State.tick_refused) (micro := stepMicro_refused) (work := fun _ _ => rfl) (ret := fun _ _ => rfl)
    (held := fun _ _ => rfl) (gain := fun _ _ => rfl) (cmds := fun _ _ => rfl) h

/-! ### Steps -/

theorem step_of_refused {s : State} (h : s.refused = true) : step s = .refused .runRefused := if_pos h

theorem stepRecorded_of_step_refused {s : State} {r : Refusal} (h : step s = .refused r) :
    stepRecorded s = s.recordRefusal := by
  rw [stepRecorded, h]

/-- With nothing in progress and no command issued, a step is the oracle's chance alone (40_bus_controller.md R132). -/
theorem step_of_no_command {s : State} (hr : s.refused = false) (ht : s.work.todo = []) (hc : s.cmds = []) :
    step s = .next s.tick := by
  have hcmds : s.tick.cmds = [] := by rw [State.tick_cmds, hc]
  have hstep : step s = advance s := if_neg (by simp [hr])
  rw [hstep, advance, ht]
  simp only [fetchAndExec, hcmds]

/-! ### The obligations -/

/-- Settles O5: with a command it is `step_issue`, without one it is `step_of_no_command`. -/
theorem stepRunsTheDecodedOperation : Obligations.StepRunsTheDecodedOperation :=
  ⟨fun _ _ _ hr ht hd => step_issue hr ht hd, fun _ hr ht hc => step_of_no_command hr ht hc⟩

/-- Settles O12: the recorded state is `recordRefusal`, from which every step is refused; and a step that answers a next
state starts with the flag clear and never writes it. -/
theorem aRefusalEndsTheRun : Obligations.ARefusalEndsTheRun := by
  refine ⟨fun s r h => ?_, fun s t h => ?_⟩
  · have hrec : stepRecorded s = s.recordRefusal := stepRecorded_of_step_refused h
    refine ⟨hrec, ?_⟩
    rw [hrec]
    exact step_of_refused s.recordRefusal_refused
  · obtain ⟨hclear, -⟩ := step_cases h
    rw [step_next_refused h, hclear]

end Sys2Proof.Machine
end

section
/-! PROOFS. The architectural state (spec/10_state.md), one primitive step at a time: what a step of the pseudocode leaves
alone and what it appends to the history. -/

namespace Sys2Proof.Machine

/-! ### The polls of `wait_ready_retry` -/

/-- A relation that a sample, a delay, the oracle's chance and a taken flag keep is kept by the polls
(45_loadcell.md R263). -/
theorem pollRetry_rel {R : State → State → Prop} (trans : ∀ {s t u}, R s t → R t u → R s u) (tick : ∀ s, R s s.tick)
    (sampled : ∀ s, R s s.sampled) (delay : ∀ s ns, R s (s.delay ns)) (flag : ∀ s b, R s (s.takeFlag b))
    (n ns : Nat) (s : State) : R s (pollRetry n ns s) := by
  induction n generalizing s with
  | zero => exact flag s false
  | succ n ih =>
    unfold pollRetry
    split
    · exact trans (sampled s) (trans (delay _ ns) (trans (tick _) (ih _)))
    · exact trans (sampled s) (flag _ true)

/-! ### Fields that construction alone writes (10_state.md R29, R30, R34, R39, R40, R46) -/

theorem sameConstruction.refl (s : State) : sameConstruction s s := ⟨rfl, rfl, rfl, rfl, rfl, rfl, rfl, rfl⟩

theorem sameConstruction.trans {s t u : State} (h : sameConstruction s t) (k : sameConstruction t u) :
    sameConstruction s u := by
  unfold sameConstruction at *
  simp [k, h]

theorem sameConstruction_launch (a : BusAction) (s : State) : sameConstruction s (s.launch a) := by
  cases a <;> exact sameConstruction.refl s

theorem sameConstruction_complete (a : BusAction) (ans : Answer) (s : State) : sameConstruction s (s.complete a ans) := by
  cases a <;> exact sameConstruction.refl s

theorem sameConstruction_tick (s : State) : sameConstruction s s.tick := by
  unfold State.tick
  split
  · exact .refl s
  · split
    · exact sameConstruction_complete _ _ s.asked
    · exact sameConstruction.refl s

/-- No primitive step writes such a field. -/
theorem stepMicro_sameConstruction (m : Micro) (s : State) : sameConstruction s (stepMicro m s).state := by
  have same : sameConstruction s s := .refl s
  cases m <;> simp only [stepMicro]
  case launch a =>
    split
    · exact same
    · exact sameConstruction_launch a s
  case rewritePort v =>
    split
    · exact same
    · exact sameConstruction_launch (.tx (withBacklight s.work.lastByte v)) s
  case wait | needAck | pollReady => split <;> exact same
  case setShadow r v => cases r <;> exact same
  case pollRetry retries ns =>
    exact pollRetry_rel (R := sameConstruction) sameConstruction.trans sameConstruction_tick
      (fun s => .refl s) (fun s _ => .refl s) (fun s _ => .refl s) retries ns s
  all_goals exact same

/-- Settles O9: neither the oracle's chance nor a primitive step nor a write of the model's own touches such a field. -/
theorem constructionFieldsNeverChange : Obligations.ConstructionFieldsNeverChange := fun _ _ h =>
  step_rel (R := sameConstruction) sameConstruction.trans sameConstruction_tick stepMicro_sameConstruction
    (work := fun s _ => .refl s) (ret := fun s _ => .refl s) (held := fun s _ => .refl s) (gain := fun s _ => .refl s)
    (cmds := fun s _ => .refl s) h

/-! ### The history (10_state.md R20, 20_memory.md R66) -/

/-- A primitive step on the load cell's pins (45_loadcell.md R260). -/
def Micro.onPins : Micro → Bool
  | .clk _ | .takeBit | .takeReady | .pollReady _ | .pollRetry _ _ => true
  | _ => false

theorem Emits.mono {f g : Event → Prop} {s t : State} (h : Emits f s t) (hfg : ∀ e, f e → g e) : Emits g s t := by
  obtain ⟨events, heq, hf⟩ := h
  exact ⟨events, heq, fun e he => hfg e (hf e he)⟩

/-- Launching emits at most the event of a STOP (40_bus_controller.md R130). -/
theorem emits_launch (a : BusAction) (s : State) : Emits (·.ofBus = true) s (s.launch a) := by
  cases a
  case stop => exact .one .stop rfl rfl
  all_goals exact .nil rfl

/-- A primitive step appends to the history, and off the pins it appends two-wire events and delays. -/
theorem stepMicro_emits (m : Micro) (s : State) :
    Emits (fun e => m.onPins = false → e.ofBus = true) s (stepMicro m s).state := by
  cases m <;> simp only [stepMicro]
  case launch a =>
    split
    · exact .nil rfl
    · exact (emits_launch a s).mono fun _ he _ => he
  case rewritePort v =>
    split
    · exact .nil rfl
    · exact (emits_launch (.tx (withBacklight s.work.lastByte v)) s).mono fun _ he _ => he
  case wait | needAck => split <;> exact .nil rfl
  case setShadow r v => cases r <;> exact .nil rfl
  case delay ns => exact .one (.delay ns) (fun _ => rfl) rfl
  case clk l => exact .one (.clk l) nofun rfl
  case takeBit => exact .one (.dout s.level) nofun rfl
  case takeReady => exact .one (.dout s.level) nofun rfl
  case pollReady ns =>
    have sample : Emits (fun e => (Micro.pollReady ns).onPins = false → e.ofBus = true) s s.sampled :=
      .one (.dout s.level) nofun rfl
    split
    · exact sample.trans (.one (.delay ns) nofun rfl)
    · exact sample
  case pollRetry retries ns =>
    exact pollRetry_rel (R := Emits fun e => (Micro.pollRetry retries ns).onPins = false → e.ofBus = true) Emits.trans
      (emits_tick fun _ he _ _ => he) (fun s => .one (.dout s.level) nofun rfl) (fun _ _ => .one (.delay _) nofun rfl)
      (fun _ _ => .nil rfl) retries ns s
  all_goals exact .nil rfl

/-- Settles O8: every write along a step either leaves the history alone or appends to it. -/
theorem historyOnlyGrows : Obligations.HistoryOnlyGrows := by
  intro s t h
  have grows : Emits (fun _ => True) s t :=
    step_rel (R := Emits fun _ => True) Emits.trans (emits_tick fun _ _ _ => trivial)
      (fun m s => (stepMicro_emits m s).mono fun _ _ => trivial) (work := fun _ _ => .nil rfl) (ret := fun _ _ => .nil rfl)
      (held := fun _ _ => .nil rfl) (gain := fun _ _ => .nil rfl) (cmds := fun _ _ => .nil rfl) h
  obtain ⟨events, heq, -⟩ := grows
  exact ⟨events, heq⟩

end Sys2Proof.Machine
end

section
/-! PROOFS. What the operations of the display and PWM drivers leave alone (10_state.md R34 to R40, 20_memory.md R66), in
the step that issues them and in every step that goes on with them. -/

namespace Sys2Proof.Machine

/-! ### The load cell and the command port -/

/-- Off the pins, only a write of the phase and one of the offset reach the load cell's registers. -/
theorem stepMicro_lc {m : Micro} (hpins : m.onPins = false) (hphase : ∀ p, m ≠ .lcPhase p) (hoffset : m ≠ .storeOffset)
    (s : State) : (stepMicro m s).state.lc = s.lc := by
  cases m <;> simp only [stepMicro]
  case lcPhase p => exact absurd rfl (hphase p)
  case storeOffset => exact absurd rfl hoffset
  case clk | takeBit | takeReady | pollReady | pollRetry => nomatch hpins
  case launch | wait | needAck | rewritePort => split <;> simp [Progress.state]
  all_goals simp [Progress.state]

theorem stepMicro_cmds (m : Micro) (s : State) : (stepMicro m s).state.cmds = s.cmds := by
  cases m <;> simp only [stepMicro]
  case pollRetry retries ns =>
    exact pollRetry_rel (R := fun s t => t.cmds = s.cmds) (fun h k => k.trans h) State.tick_cmds State.sampled_cmds
      (fun s ns => s.delay_cmds ns) (fun s b => s.takeFlag_cmds b) retries ns s
  case launch | wait | needAck | rewritePort | pollReady => split <;> simp [Progress.state]
  all_goals simp [Progress.state]

/-! ### The frame of the display and PWM operations -/

/-- What operation `i` of those drivers leaves alone, and the events it may emit. -/
structure DriverFrame (i : Instr) (s t : State) : Prop where
  construction : sameConstruction s t
  lc : t.lc = s.lc
  cmds : t.cmds = s.cmds
  refused : t.refused = s.refused
  backlight : writesBacklight i = false → t.lcd.bl = s.lcd.bl
  events : Emits (·.ofBus = true) s t

theorem DriverFrame.trans {i : Instr} {s t u : State} (h : DriverFrame i s t) (k : DriverFrame i t u) :
    DriverFrame i s u where
  construction := h.construction.trans k.construction
  lc := k.lc.trans h.lc
  cmds := k.cmds.trans h.cmds
  refused := k.refused.trans h.refused
  backlight hi := (k.backlight hi).trans (h.backlight hi)
  events := h.events.trans k.events

theorem driverFrame_tick (i : Instr) (s : State) : DriverFrame i s s.tick where
  construction := sameConstruction_tick s
  lc := s.tick_lc
  cmds := s.tick_cmds
  refused := s.tick_refused
  backlight _ := by rw [State.tick_lcd]
  events := emits_tick (fun _ he _ => he) s

/-- The model's own fields and the handle are none of those the frame speaks of. -/
theorem driverFrame_own (i : Instr) (s : State) (w : Work) (r : Result) (b : Bool) :
    DriverFrame i s { s with work := w, ret := r, sb.held := b } where
  construction := .refl s
  lc := rfl
  cmds := rfl
  refused := rfl
  backlight _ := rfl
  events := .nil rfl

theorem onPins_of_mayTake {i : Instr} {s : State} {m : Micro} (hm : mayTake i s m) (hi : partOf i ≠ .loadCell) :
    m.onPins = false := by
  cases m
  case clk | takeBit | takeReady | pollReady | pollRetry => exact absurd hm hi
  all_goals rfl

theorem Micro.display_bl {i : Instr} {s : State} {m : Micro} (hm : mayTake i s m) (hi : writesBacklight i = false)
    (d : Display) : (m.display d).bl = d.bl := by
  cases m
  case setBl v =>
    obtain ⟨-, hw⟩ := hm
    rw [hi] at hw
    nomatch hw
  case setShadow r v => cases r <;> rfl
  all_goals rfl

theorem driverFrame_stepMicro {i : Instr} {s : State} {m : Micro} (hi : partOf i ≠ .loadCell) (hm : mayTake i s m)
    (u : State) : DriverFrame i u (stepMicro m u).state where
  construction := stepMicro_sameConstruction m u
  lc := by
    refine stepMicro_lc (onPins_of_mayTake hm hi) ?_ ?_ u
    · rintro p rfl
      exact hi hm.1
    · rintro rfl
      obtain ⟨count, rfl⟩ := hm
      exact hi rfl
  cmds := stepMicro_cmds m u
  refused := stepMicro_refused m u
  backlight hb := by rw [stepMicro_lcd, Micro.display_bl hm hb]
  events := (stepMicro_emits m u).mono fun _ he => he (onPins_of_mayTake hm hi)

/-- The frame holds wherever the operation ends or is held. -/
theorem issued_driverFrame {i : Instr} {s t : State} (hi : partOf i ≠ .loadCell) (h : Issued i s t) (k : Nat) :
    DriverFrame i s (goOn k t) :=
  issued_goOn_rel (R := DriverFrame i) DriverFrame.trans (driverFrame_tick i)
    (work := fun s w => driverFrame_own i s w s.ret s.sb.held)
    (ret := fun s r => driverFrame_own i s s.work r s.sb.held)
    (held := fun _ s b => driverFrame_own i s s.work s.ret b)
    (micro := fun _ hm u => driverFrame_stepMicro hi hm u) h k

/-- Settles O45: these operations take no step on the pins, and no step they take leaves the frame. -/
theorem driverOperationsFrame : Obligations.DriverOperationsFrame := by
  intro i s u k hpart h
  have hcell : partOf i ≠ .loadCell := by rcases hpart with hp | hp <;> simp [hp]
  have hhandle : partOf i ≠ .handle := by rcases hpart with hp | hp <;> simp [hp]
  have hgain : ∀ gain, i ≠ .setGain gain := by
    rintro gain rfl
    exact hcell rfl
  have frame := issued_driverFrame hcell (exec_issued hhandle hgain h) k
  obtain ⟨-, -, haddr, hlines, hfont, hpwm, -, hcfg⟩ := frame.construction
  exact ⟨hpwm, frame.lc, hcfg, frame.cmds, frame.refused, haddr, hlines, hfont, frame.backlight, frame.events⟩

/-! ### Operations that run no primitive step -/

/-- The handle operations and `set_gain` end as they are issued, having written the handle or the gain code at most, and
a gain code in 1..3 stays in 1..3 (45_loadcell.md R272). -/
theorem exec_atOnce {i : Instr} {s t : State} (hi : partOf i = .handle ∨ ∃ gain, i = .setGain gain)
    (h : exec i s = .next t) : ∃ (held : Bool) (gain : Nat) (r : Result),
      t = ({ s with sb.held := held, lc.gain := gain }).finish r
      ∧ (1 ≤ s.lc.gain ∧ s.lc.gain ≤ 3 → 1 ≤ gain ∧ gain ≤ 3) := by
  rcases hi with hi | ⟨gain, rfl⟩
  · cases i <;> simp only [partOf, reduceCtorEq] at hi
    case acquire =>
      simp only [exec, execAcquire] at h
      split at h
      · exact ⟨s.sb.held, s.lc.gain, .err .busBusy, by injection h with h; exact h.symm, id⟩
      · exact ⟨true, s.lc.gain, .token .token, by injection h with h; exact h.symm, id⟩
    case release tok =>
      simp only [exec, execRelease] at h
      split at h
      · exact ⟨false, s.lc.gain, .unit, by injection h with h; exact h.symm, id⟩
      · cases h
  · refine ⟨s.sb.held, gainCode gain s.lc.gain, .unit, by injection h with h; exact h.symm, fun hg => ?_⟩
    unfold gainCode
    split
    · decide
    · split
      · decide
      · split
        · decide
        · exact hg

/-! ### Shadow registers (10_state.md R35 to R37) -/

/-- The shadow registers are fields of the display. -/
theorem shadow_congr {s t : State} (h : t.lcd = s.lcd) (r : Shadow) : t.shadow r = s.shadow r := by
  cases r <;> simp only [State.shadow, h]

@[simp] theorem shadow_setShadow (r q : Shadow) (v : Byte) (s : State) :
    (s.setShadow r v).shadow q = if q = r then v else s.shadow q := by
  cases r <;> cases q <;> rfl

/-- The backlight flag is no shadow register (10_state.md R33, R38). -/
theorem shadow_setBl (v : Bit) (s : State) (q : Shadow) : ({ s with lcd.bl := v } : State).shadow q = s.shadow q := by
  cases q <;> rfl

/-- Of the primitive steps only `setShadow` writes a shadow register. -/
theorem stepMicro_shadow {m : Micro} {q : Shadow} (hm : ∀ r v, m = .setShadow r v → q ≠ r) (s : State) :
    (stepMicro m s).state.shadow q = s.shadow q := by
  cases m
  case setShadow r v => exact (shadow_setShadow r q v s).trans (if_neg (hm r v rfl))
  case setBl v => exact shadow_setBl v s q
  all_goals exact shadow_congr (stepMicro_lcd _ s) q

/-- A step of an operation that the rule of register `q` does not name writes another register, or none. -/
theorem stepMicro_shadow_of_mayTake {i : Instr} {s : State} {m : Micro} {q : Shadow} (hq : writesShadow q i = false)
    (hm : mayTake i s m) (u : State) : (stepMicro m u).state.shadow q = u.shadow q := by
  refine stepMicro_shadow ?_ u
  rintro r v rfl rfl
  obtain ⟨-, hw, -⟩ := hm
  rw [hq] at hw
  nomatch hw

theorem issued_shadow {i : Instr} {s t : State} {q : Shadow} (hq : writesShadow q i = false) (h : Issued i s t)
    (k : Nat) : (goOn k t).shadow q = s.shadow q :=
  issued_goOn_rel (R := fun s t => t.shadow q = s.shadow q) (fun h k => k.trans h)
    (tick := fun s => shadow_congr s.tick_lcd q) (work := fun _ _ => shadow_congr rfl q)
    (ret := fun _ _ => shadow_congr rfl q) (held := fun _ _ _ => shadow_congr rfl q)
    (micro := fun _ hm u => stepMicro_shadow_of_mayTake hq hm u) h k

/-- Settles O46: an operation that runs primitive steps takes none that writes the register; the others have ended and
written nothing of the display. -/
theorem onlyNamedOperationsWriteAShadow : Obligations.OnlyNamedOperationsWriteAShadow := by
  intro r i s t k hr h
  by_cases hi : partOf i = .handle ∨ ∃ gain, i = .setGain gain
  · obtain ⟨held, gain, res, rfl, -⟩ := exec_atOnce hi h
    rw [goOn_idle rfl]
    exact shadow_congr rfl r
  · obtain ⟨hhandle, hgain⟩ := not_or.mp hi
    exact issued_shadow hr (exec_issued hhandle (fun gain he => hgain ⟨gain, he⟩) h) k

end Sys2Proof.Machine
end

section
/-! PROOFS. Construction (10_state.md R47, 70_reset_and_hazards.md R332 to R336): the table of R47, and the invariant of the
block in the state it leads to. -/

namespace Sys2Proof.Machine

theorem construct_of_inRange {a : ConstructArgs} (h : a.inRange = true) : construct a = .next (.constructed a) := if_pos h

theorem construct_next {a : ConstructArgs} {t : State} (h : construct a = .next t) :
    a.inRange = true ∧ t = .constructed a := by
  unfold construct at h
  split at h
  · injection h with h
    exact ⟨by assumption, h.symm⟩
  · cases h

/-- What the checks of R334 to R336 say of the arguments that reach the state. -/
theorem inRange_bounds {a : ConstructArgs} (h : a.inRange = true) :
    a.lcdAddr < 128 ∧ (1 ≤ a.numLines ∧ a.numLines ≤ 4) ∧ a.pwmAddr < 128 ∧ (1 ≤ a.lcGainInit ∧ a.lcGainInit ≤ 3)
      ∧ a.lcScale ≠ 0 := by
  simp only [ConstructArgs.inRange, Bool.and_eq_true, decide_eq_true_eq] at h
  obtain ⟨⟨⟨⟨⟨⟨⟨⟨⟨hlcd, hlines⟩, hpwm⟩, -⟩, -⟩, -⟩, -⟩, -⟩, hgain⟩, hscale⟩ := h
  exact ⟨hlcd, hlines, hpwm, hgain, hscale⟩

/-- The shadow bytes of R47 are of the classes of their registers (30_encoding.md R104 to R106). -/
theorem commandClass_shadow_constructed (a : ConstructArgs) (r : Shadow) :
    commandClass ((State.constructed a).shadow r) = r.classBit := by
  cases r
  case fn => exact commandClass_functionSetByte a.numLines a.font5x10
  case entry => exact (by decide : commandClass 0x06 = 0x04)
  case ctrl => exact (by decide : commandClass 0x0C = 0x08)

theorem sampleRange_zero : sampleRange 0 := ⟨by decide, by decide⟩

theorem blockInv_constructed {a : ConstructArgs} (h : a.inRange = true) : BlockInv (.constructed a) := by
  obtain ⟨-, hlines, -, hgain, hscale⟩ := inRange_bounds h
  exact {
    lines := hlines
    gain := hgain
    lcPhase := trivial
    scale := hscale
    offset := sampleRange_zero
    samples := by simp [State.constructed, Work.idle]
    shadows := commandClass_shadow_constructed a
    status := by simp [State.constructed]
    ready := fun _ => rfl
    sta := by simp [State.constructed]
    stopNotPending := nofun
    enabled := rfl
    todo := .inl rfl
    idle := fun _ => rfl }

theorem inRange_default : ({} : ConstructArgs).inRange = true := by decide +kernel

/-- Settles O7: the checks of construction give the ranges, and what it writes gives the rest. -/
theorem constructionMeetsTheInvariant : Obligations.ConstructionMeetsTheInvariant := by
  refine ⟨fun a t h => ?_, construct_of_inRange inRange_default, blockInv_constructed inRange_default⟩
  obtain ⟨hin, rfl⟩ := construct_next h
  exact blockInv_constructed hin

/-- Settles O10: the entries are the fields construction writes; an address below 128 is kept whole by its 7 bits. -/
theorem constructedStateIsTheTable : Obligations.ConstructedStateIsTheTable := by
  intro a h
  obtain ⟨hlcd, -, hpwm, -, -⟩ := inRange_bounds h
  have haddr : (State.constructed a).lcd.addr.toNat = a.lcdAddr := (BitVec.toNat_ofNat _ _).trans (Nat.mod_eq_of_lt hlcd)
  have hpaddr : (State.constructed a).pwm.addr.toNat = a.pwmAddr := (BitVec.toNat_ofNat _ _).trans (Nat.mod_eq_of_lt hpwm)
  refine ⟨.constructed a, construct_of_inRange h, ?_⟩
  simp only [haddr, hpaddr]
  simp [State.constructed, functionSetByte]

end Sys2Proof.Machine
end

section
/-! PROOFS. Every step keeps the invariant of the block: construction's own fields stay, the controller keeps its part in
every primitive step, and the registers and the operation in progress keep theirs along the run. -/

namespace Sys2Proof.Machine

/-! ### The controller (10_state.md R26, R30, 40_bus_controller.md R130, R146) -/

/-- The entries of the invariant that speak of the controller's status, flags and pending action. -/
structure BusLegal (b : BusController) : Prop where
  status : b.status ≠ .arbLost ∧ b.status ≠ .busError
  ready : b.pending ≠ none → b.ready = false
  sta : b.sta = true ↔ b.pending = some .start
  stopNotPending : b.pending ≠ some .stop

theorem startStatus_legal (p : BusPhase) : startStatus p ≠ .arbLost ∧ startStatus p ≠ .busError := by
  cases p <;> decide

theorem addressStatus_legal (b : Byte) (ack : Bit) :
    addressStatus b ack ≠ .arbLost ∧ addressStatus b ack ≠ .busError := by
  unfold addressStatus
  split <;> cases ack <;> decide

theorem txStatus_legal (p : BusPhase) (b : Byte) (ack : Bit) :
    txStatus p b ack ≠ .arbLost ∧ txStatus p b ack ≠ .busError := by
  cases p
  case started => exact addressStatus_legal b ack
  all_goals cases ack <;> simp [txStatus]

theorem rxStatus_legal (m : Bit) : rxStatus m ≠ .arbLost ∧ rxStatus m ≠ .busError := by
  cases m <;> decide

/-- With its status legal a controller that has just become ready is legal (R133). -/
theorem busLegal_ready {s : State} (h : s.bc.status ≠ .arbLost ∧ s.bc.status ≠ .busError) : BusLegal s.ready.bc where
  status := h
  ready := fun hp => absurd rfl hp
  sta := by simp
  stopNotPending := by simp

theorem busLegal_complete (a : BusAction) (ans : Answer) {s : State} (h : BusLegal s.bc) :
    BusLegal (s.complete a ans).bc := by
  cases a
  case start => exact busLegal_ready (startStatus_legal _)
  case tx b => exact busLegal_ready (txStatus_legal _ _ _)
  case rx m => exact busLegal_ready (rxStatus_legal _)
  case stop => exact busLegal_ready h.status

theorem busLegal_tick {s : State} (h : BusLegal s.bc) : BusLegal s.tick.bc := by
  unfold State.tick
  split
  · exact h
  · split
    · exact busLegal_complete _ _ h
    · exact h

/-- A launch on an idle bus, and a STOP at any time, keep the controller legal. -/
theorem busLegal_launch {a : BusAction} {s : State} (ha : ¬ (slow a && s.bc.pending.isSome) = true)
    (h : BusLegal s.bc) : BusLegal (s.launch a).bc := by
  have hsta := h.sta
  cases a
  case stop => exact { h with }
  all_goals
    have hnone : s.bc.pending = none := by simpa [slow] using ha
    rw [hnone] at hsta
    exact {
      status := h.status
      ready := fun _ => rfl
      sta := by simp [State.launch, hsta]
      stopNotPending := by simp [State.launch] }

theorem stepMicro_busLegal (m : Micro) (s : State) (h : BusLegal s.bc) : BusLegal (stepMicro m s).state.bc := by
  cases m <;> simp only [stepMicro]
  case launch a =>
    split
    · exact h
    · exact busLegal_launch (by assumption) h
  case rewritePort v =>
    split
    · exact h
    · rename_i hnone
      exact busLegal_launch (a := .tx (withBacklight s.work.lastByte v)) (by simpa [slow] using hnone) h
  case wait | needAck | pollReady => split <;> exact h
  case setShadow r v => exact (s.setShadow_bc r v).symm ▸ h
  case addressed addr dir => exact { h with }
  case pollRetry retries ns =>
    exact pollRetry_rel (R := fun s t => BusLegal s.bc → BusLegal t.bc) (fun h k hs => k (h hs))
      (fun _ => busLegal_tick) (fun _ => id) (fun _ _ => id) (fun _ _ => id) retries ns s h
  all_goals exact h

theorem step_busLegal {s t : State} (h : step s = .next t) (hs : BusLegal s.bc) : BusLegal t.bc :=
  step_rel (R := fun s t => BusLegal s.bc → BusLegal t.bc) (fun h k hs => k (h hs)) (fun _ => busLegal_tick)
    stepMicro_busLegal (work := fun _ _ => id) (ret := fun _ _ => id) (held := fun _ _ => id) (gain := fun _ _ => id)
    (cmds := fun _ _ => id) h hs

/-! ### The load cell and the shadow registers (10_state.md R35 to R37, R43 to R45) -/

/-- The entries of the invariant that the operation in progress may write. -/
structure RegistersLegal (s : State) : Prop where
  gain : 1 ≤ s.lc.gain ∧ s.lc.gain ≤ 3
  lcPhase : s.lc.phase.legal
  offset : sampleRange s.lc.offset
  samples : ∀ v ∈ s.work.samples, sampleRange v
  shadows : ∀ r : Shadow, commandClass (s.shadow r) = r.classBit

/-- With the display left alone, what is left to ask is what the load cell and the samples come to. -/
theorem RegistersLegal.of_lcd_eq {s t : State} (h : RegistersLegal s) (hlcd : t.lcd = s.lcd)
    (gain : 1 ≤ t.lc.gain ∧ t.lc.gain ≤ 3) (lcPhase : t.lc.phase.legal) (offset : sampleRange t.lc.offset)
    (samples : ∀ v ∈ t.work.samples, sampleRange v) : RegistersLegal t where
  gain := gain
  lcPhase := lcPhase
  offset := offset
  samples := samples
  shadows r := shadow_congr hlcd r ▸ h.shadows r

/-- They are entries of the load cell, the display and the samples taken. -/
theorem RegistersLegal.congr {s t : State} (h : RegistersLegal s) (hlc : t.lc = s.lc) (hlcd : t.lcd = s.lcd)
    (hwork : t.work.samples = s.work.samples) : RegistersLegal t :=
  h.of_lcd_eq hlcd (hlc ▸ h.gain) (hlc ▸ h.lcPhase) (hlc ▸ h.offset) (hwork ▸ h.samples)

/-- The mean of legal samples is a legal offset (45_loadcell.md R266, R267). -/
theorem sampleRange_ofInt_meanOf {l : List Word} (h : ∀ v ∈ l, sampleRange v) :
    sampleRange (BitVec.ofInt 32 (meanOf l)) := by
  rw [sampleRange, ofInt_meanOf_toInt l h]
  exact meanOf_bounds l h

/-! ### The operation in progress -/

/-- An operation with `todo` left stands in a state whose registers are legal. -/
structure Proceeds (todo : List Micro) (s : State) : Prop where
  todo : todoLegal s.sb.held todo
  registers : RegistersLegal s

/-- The operation has ended and left nothing, or what it has left is legal. -/
structure Rests (s : State) : Prop where
  work : s.work = .idle ∨ todoLegal s.sb.held s.work.todo
  registers : RegistersLegal s

theorem todoLegal_ne_nil {held : Bool} {todo : List Micro} (h : todoLegal held todo) : todo ≠ [] := by
  rintro rfl
  exact h

theorem blockInv_iff (s : State) : BlockInv s ↔
    (1 ≤ s.lcd.lines ∧ s.lcd.lines ≤ 4) ∧ s.lc.scale ≠ 0 ∧ s.bc.en = true ∧ BusLegal s.bc ∧ Rests s := by
  constructor
  · intro h
    refine ⟨h.lines, h.scale, h.enabled, ⟨h.status, h.ready, h.sta, h.stopNotPending⟩, ?_,
      ⟨h.gain, h.lcPhase, h.offset, h.samples, h.shadows⟩⟩
    exact h.todo.imp_left h.idle
  · rintro ⟨hlines, hscale, hen, hbus, hwork, hreg⟩
    exact { hbus, hreg with
      lines := hlines
      scale := hscale
      enabled := hen
      todo := hwork.imp_left fun hidle => by rw [hidle]; rfl
      idle := fun hnil => hwork.resolve_right fun hleft => todoLegal_ne_nil hleft hnil }

/-- A write that reaches neither the handle nor the registers lets the operation proceed. -/
theorem Proceeds.next {todo rest : List Micro} {s t : State} (h : Proceeds todo s) (hrest : todoLegal s.sb.held rest)
    (hsb : t.sb = s.sb) (hlc : t.lc = s.lc) (hlcd : t.lcd = s.lcd) (hwork : t.work.samples = s.work.samples) :
    Proceeds rest t where
  todo := hsb ▸ hrest
  registers := h.registers.congr hlc hlcd hwork

theorem Proceeds.tick {todo : List Micro} {s : State} (h : Proceeds todo s) : Proceeds todo s.tick :=
  h.next h.todo s.tick_sb s.tick_lc s.tick_lcd (by rw [State.tick_work])

/-- The polls of `wait_ready_retry` write no register and no sample (45_loadcell.md R263). -/
theorem Proceeds.pollRetry {todo : List Micro} {s : State} (h : Proceeds todo s) (retries ns : Nat) :
    Proceeds todo (pollRetry retries ns s) :=
  pollRetry_rel (R := fun s t => Proceeds todo s → Proceeds todo t) (fun h k hs => k (h hs)) (fun _ => Proceeds.tick)
    (fun _ h => h.next h.todo rfl rfl rfl rfl) (fun _ _ h => h.next h.todo rfl rfl rfl rfl)
    (fun _ _ h => h.next h.todo rfl rfl rfl rfl) retries ns s h

/-- A primitive step that completes leads on to what is left. -/
theorem Proceeds.go {m : Micro} {rest : List Micro} {s t : State} (h : Proceeds (m :: rest) s)
    (ht : stepMicro m s = .go t) : Proceeds rest t := by
  have htodo := h.todo
  have hreg := h.registers
  cases m <;> simp only [stepMicro] at ht
  case ret | refuse => cases ht
  case launch a =>
    split at ht <;> cases ht
    exact h.next htodo.2 (s.launch_sb a) (s.launch_lc a) (s.launch_lcd a) (by rw [State.launch_work])
  case rewritePort v =>
    split at ht <;> cases ht
    exact h.next htodo.2 rfl rfl rfl rfl
  case setShadow r v =>
    cases ht
    obtain ⟨hclass, hrest⟩ := htodo
    refine ⟨(s.setShadow_sb r v).symm ▸ hrest, { hreg with
      gain := (s.setShadow_lc r v).symm ▸ hreg.gain
      lcPhase := (s.setShadow_lc r v).symm ▸ hreg.lcPhase
      offset := (s.setShadow_lc r v).symm ▸ hreg.offset
      samples := (s.setShadow_work r v).symm ▸ hreg.samples
      shadows := fun q => ?_ }⟩
    rw [shadow_setShadow]
    split
    · rename_i hq
      rw [hq, hclass]
    · exact hreg.shadows q
  case setBl v =>
    cases ht
    exact ⟨htodo, { hreg with shadows := fun r => (shadow_setBl v s r).symm ▸ hreg.shadows r }⟩
  case clk l =>
    cases ht
    exact ⟨htodo, hreg.of_lcd_eq rfl hreg.gain hreg.lcPhase hreg.offset hreg.samples⟩
  case lcPhase p =>
    cases ht
    obtain ⟨hphase, hrest⟩ := htodo
    exact ⟨hrest, hreg.of_lcd_eq rfl hreg.gain hphase hreg.offset hreg.samples⟩
  case storeOffset =>
    cases ht
    exact ⟨htodo, hreg.of_lcd_eq rfl hreg.gain hreg.lcPhase (sampleRange_ofInt_meanOf hreg.samples) hreg.samples⟩
  case endRead =>
    cases ht
    refine ⟨htodo, hreg.of_lcd_eq rfl hreg.gain hreg.lcPhase hreg.offset ?_⟩
    intro v hv
    obtain hv | hv := List.mem_append.mp hv
    · exact hreg.samples v hv
    · rw [List.mem_singleton.mp hv]
      exact sampleRange_sampleOf _
  case release =>
    cases ht
    exact ⟨htodo.2, hreg.congr rfl rfl rfl⟩
  case pollRetry retries ns =>
    cases ht
    exact (h.next (rest := rest) htodo rfl rfl rfl rfl).pollRetry retries ns
  case wait | needAck | pollReady =>
    split at ht <;> cases ht
    exact h.next htodo rfl rfl rfl rfl
  all_goals
    cases ht
    exact h.next htodo rfl rfl rfl rfl

/-- A wait, on the bus or for the line, stays first in line (00_scope.md R14). -/
theorem Proceeds.hold {m : Micro} {rest : List Micro} {s t : State} (h : Proceeds (m :: rest) s)
    (ht : stepMicro m s = .hold t) : Rests { t with work.todo := m :: rest } := by
  cases m <;> simp only [stepMicro] at ht
  case wait | pollReady =>
    split at ht <;> cases ht
    exact ⟨.inr h.todo, h.registers.congr rfl rfl rfl⟩
  case launch | needAck | rewritePort => split at ht <;> cases ht
  all_goals cases ht

/-- A return, and the error of a device that does not answer (44_pwm.md R240), leave nothing of the operation. -/
theorem Proceeds.ended {m : Micro} {rest : List Micro} {s t : State} (h : Proceeds (m :: rest) s)
    (ht : stepMicro m s = .ended t) : Rests { t with work.todo := [] } := by
  have hreg : RegistersLegal { s with work := .idle } :=
    h.registers.of_lcd_eq rfl h.registers.gain h.registers.lcPhase h.registers.offset nofun
  cases m <;> simp only [stepMicro] at ht
  case ret r =>
    cases ht
    exact ⟨.inl rfl, hreg.congr rfl rfl rfl⟩
  case needAck =>
    split at ht <;> cases ht
    exact ⟨.inl rfl, hreg.congr rfl rfl rfl⟩
  case launch | wait | rewritePort | pollReady => split at ht <;> cases ht
  all_goals cases ht

/-- A refusal stays alone in line, with nothing else changed (log 12). -/
theorem Proceeds.refuse {m : Micro} {rest : List Micro} {s t : State} {r : Refusal} (h : Proceeds (m :: rest) s)
    (ht : stepMicro m s = .refuse r t) : Rests { t with work.todo := [.refuse r] } := by
  cases m <;> simp only [stepMicro] at ht
  case launch | rewritePort =>
    split at ht <;> cases ht
    exact ⟨.inr trivial, h.registers.congr rfl rfl rfl⟩
  case refuse =>
    cases ht
    exact ⟨.inr trivial, h.registers.congr rfl rfl rfl⟩
  case wait | needAck | pollReady => split at ht <;> cases ht
  all_goals cases ht

/-- A legal operation runs to its end or to a hold with its registers legal. -/
theorem Proceeds.run {todo : List Micro} {s : State} (h : Proceeds todo s) : Rests (run todo s) :=
  run_inv (P := Proceeds) (Q := Rests) (nil := fun _ h => h.todo.elim) (tick := fun _ _ => Proceeds.tick)
    (go := fun _ _ _ _ => Proceeds.go) (hold := fun _ _ _ _ => Proceeds.hold) (ends := fun _ _ _ _ => Proceeds.ended)
    (refuse := fun _ _ _ _ _ => Proceeds.refuse) todo s h

/-! ### An operation that is issued -/

/-- A program of steps an operation may take, with a legal end, is legal: off the load cell it takes bus steps, which the
handle admits (41_shared_bus.md R172). -/
theorem todoLegal_append {i : Instr} {s : State} {held : Bool} {prog last : List Micro} (hreg : RegistersLegal s)
    (hheld : partOf i ≠ .loadCell → held = true) (hsteps : allTake i s prog) (hlast : todoLegal held last) :
    todoLegal held (prog ++ last) := by
  induction prog with
  | nil => exact hlast
  | cons m prog ih =>
    obtain ⟨hm, hprog⟩ := (allTake_cons i s m prog).mp hsteps
    have hrest := ih hprog
    cases m
    case launch a => exact ⟨hheld hm, hrest⟩
    case rewritePort v => exact ⟨hheld (by simp [show partOf i = .driver from hm]), hrest⟩
    case setShadow r v =>
      obtain ⟨-, -, hclass⟩ := hm
      exact ⟨hclass hreg.shadows, hrest⟩
    case lcPhase p =>
      obtain ⟨-, hphase⟩ := hm
      exact ⟨hphase hreg.gain.2, hrest⟩
    case release | ret | refuse => exact hm.elim
    all_goals exact hrest

/-- Nothing in progress in `s`, an operation that runs primitive steps keeps the registers legal. -/
theorem issued_rests {i : Instr} {s t : State} (hreg : RegistersLegal s) (hidle : s.work = .idle) (h : Issued i s t) :
    Rests t := by
  have start (b : Bool) : RegistersLegal { s with sb.held := b, work := .idle } := hreg.congr rfl rfl (by rw [hidle])
  cases h with
  | busy _ _ heq =>
    subst heq
    exact ⟨.inl rfl, (start s.sb.held).congr rfl rfl rfl⟩
  | driver _ _ prog ret hsteps heq =>
    subst heq
    exact Proceeds.run ⟨todoLegal_append hreg (fun _ => rfl) hsteps ⟨rfl, trivial⟩, start true⟩
  | inner _ hheld prog ret hsteps heq =>
    subst heq
    exact Proceeds.run ⟨todoLegal_append hreg (fun _ => hheld) hsteps trivial, start s.sb.held⟩
  | pins hpart prog ret hsteps heq =>
    subst heq
    exact Proceeds.run ⟨todoLegal_append hreg (absurd hpart) hsteps trivial, start s.sb.held⟩

theorem exec_rests {i : Instr} {s t : State} (hreg : RegistersLegal s) (hidle : s.work = .idle)
    (h : exec i s = .next t) : Rests t := by
  by_cases hi : partOf i = .handle ∨ ∃ gain, i = .setGain gain
  · obtain ⟨held, gain, r, rfl, hgain⟩ := exec_atOnce hi h
    exact ⟨.inl rfl, hreg.of_lcd_eq rfl (hgain hreg.gain) hreg.lcPhase hreg.offset nofun⟩
  · obtain ⟨hhandle, hgain⟩ := not_or.mp hi
    exact issued_rests hreg hidle (exec_issued hhandle (fun gain he => hgain ⟨gain, he⟩) h)

/-! ### A step -/

theorem Rests.tick {s : State} (h : Rests s) : Rests s.tick where
  work := by simpa using h.work
  registers := h.registers.congr s.tick_lc s.tick_lcd (by rw [State.tick_work])

theorem step_rests {s t : State} (hs : Rests s) (h : step s = .next t) : Rests t := by
  have idle_of_nil : s.work.todo = [] → s.work = .idle := fun hnil =>
    hs.work.resolve_right fun hleft => todoLegal_ne_nil hleft hnil
  obtain ⟨-, ⟨-, -, rfl⟩ | ⟨hnil, i, rest, -, hexec⟩ | ⟨hleft, rfl⟩⟩ := step_cases h
  · exact hs.tick
  · have hreg : RegistersLegal { s.tick with cmds := rest } := hs.tick.registers.congr rfl rfl rfl
    exact exec_rests hreg (s.tick_work.trans (idle_of_nil hnil)) hexec
  · refine Proceeds.run ⟨hs.work.resolve_left fun hidle => hleft ?_, hs.registers⟩
    rw [hidle]
    rfl

/-- Settles O6: what construction alone writes stays, and of the rest the controller and the operation in progress each
keep their part. -/
theorem everyStepKeepsTheInvariant : Obligations.EveryStepKeepsTheInvariant := by
  intro s t hs h
  obtain ⟨hlines, hscale, hen, hbus, hrests⟩ := (blockInv_iff s).mp hs
  obtain ⟨-, ten, -, tlines, -, -, tscale, -⟩ := constructionFieldsNeverChange s t h
  exact (blockInv_iff t).mpr
    ⟨tlines ▸ hlines, tscale ▸ hscale, ten.trans hen, step_busLegal h hbus, step_rests hrests h⟩

end Sys2Proof.Machine
end

section
/-! PROOFS. Command bytes (spec/30_encoding.md R90 to R93): the decoder accepts the encoding of an operation, and
nothing else; an op code outside the map is refused. -/

namespace Sys2Proof.Machine

open Sys2Proof

/-! ### Decoding an encoding -/

/-- The operand tuple of R92 is read back. Without an operand, and for operands of one byte each, reading it is
computation; any other operand is read back by the law of its reader. -/
theorem readOperands_operandBytes (i : Instr) (rest : List Byte) :
    readOperands i.opCode (i.operandBytes ++ rest) = .ok (i, rest) := by
  cases i with
  | readAck | readNack | stop | scanBus | wait | acquire | release | lcdInit | commandRead | displayOn | displayOff
  | cursorOn | cursorOff | blinkOn | blinkOff | scrollLeft | scrollRight | leftToRight | rightToLeft | autoscroll
  | noAutoscroll | backlight | noBacklight | clear | expRead | pwmInit | isReady | read | powerDown | powerUp
  | lcPulse => rfl
  | writeByte | pingDevice | writeChar | commandWrite | setCursor | expWrite | readAverage | tare | getValue | getUnits
  | setGain => rfl
  | startTransaction | writeReg | readReg | launch | writeStr | createChar | send | receive | pulseNibble | readNibble
  | setBacklight | setChannel | waitReady | waitReadyRetry | shiftInByte | clk =>
    simp [Instr.opCode, Instr.operandBytes, readOperands, Reader.andThen, Reader.done, readByte, readBit_bitByte,
      readDir_bitByte, readMode_bitByte, readNibble_byte, readHalf_halfBytes, readWord_wordBytes, readNat_natBytes,
      readList_listBytes, readAction_actionBytes, readBase_byte]

/-- Settles O1: the op code is read as a byte, and selects the operands that follow it. -/
theorem decodeOfEncode : Obligations.DecodeOfEncode := readOperands_operandBytes

/-- Settles O3: each string is the encoding of its operation and the bytes that follow. -/
theorem writtenCommandsDecode : Obligations.WrittenCommandsDecode :=
  ⟨decodeOfEncode (.startTransaction 0x27 .read) [],
    decodeOfEncode (.writeReg 0x40 [0x00, 0xA0]) [0x05],
    decodeOfEncode (.release .token) [],
    decodeOfEncode (.send 0x41 .data) [],
    decodeOfEncode (.setChannel 3 0 0x800) [],
    decodeOfEncode (.waitReadyRetry 2 5) [],
    decodeOfEncode (.shiftInByte .b16) []⟩

/-! ### The op code map -/

/-- One operation of each row of R92, in the order of the table. -/
def oneOfEachRow : List Instr :=
  [.startTransaction 0 .write, .writeByte 0, .readAck, .readNack, .stop, .writeReg 0 [], .readReg 0 0 0, .pingDevice 0,
    .scanBus, .wait, .launch .start, .acquire, .release .token, .lcdInit, .writeChar 0, .writeStr [], .commandWrite 0,
    .commandRead, .setCursor 0 0, .displayOn, .displayOff, .cursorOn, .cursorOff, .blinkOn, .blinkOff, .scrollLeft,
    .scrollRight, .leftToRight, .rightToLeft, .autoscroll, .noAutoscroll, .createChar 0 [], .backlight, .noBacklight,
    .send 0 .cmd, .receive .cmd, .clear, .expWrite 0, .expRead, .pulseNibble 0 .cmd, .readNibble .cmd,
    .setBacklight false, .pwmInit, .setChannel 0 0 0, .isReady, .waitReady 0, .waitReadyRetry 0 0, .read,
    .readAverage 0, .tare 0, .getValue 0, .getUnits 0, .powerDown, .powerUp, .setGain 0, .shiftInByte .b0, .lcPulse,
    .clk false]

theorem opCodeMap_eq_map : opCodeMap = oneOfEachRow.map (·.opCode.toNat) := rfl

theorem exists_opCode_of_mem {op : Nat} (h : op ∈ opCodeMap) : ∃ i : Instr, i.opCode.toNat = op := by
  rw [opCodeMap_eq_map] at h
  obtain ⟨i, -, hi⟩ := List.mem_map.mp h
  exact ⟨i, hi⟩

theorem readOperands_reserved {op : Byte} (h : op.toNat ∉ opCodeMap) : readOperands op = .fail .reservedOp := by
  unfold readOperands
  split
  case h_59 => rfl
  all_goals
    rename_i hop
    rw [hop] at h
    exact absurd (by decide) h

/-- Otherwise the operands of an operation would not be read back. -/
theorem opCode_mem_opCodeMap (i : Instr) : i.opCode.toNat ∈ opCodeMap := by
  by_contra hop
  have hread := readOperands_operandBytes i []
  rw [readOperands_reserved hop] at hread
  cases hread

/-! ### What decodes is an encoding -/

/-- After the command bytes `pre`, what the reader accepts completes them to the encoding of the operation it reads. -/
def Completes (pre : List Byte) (p : Reader Instr) : Prop :=
  ∀ bs i rest, p bs = .ok (i, rest) → pre ++ bs = encode i ++ rest

theorem Completes.done {pre : List Byte} {i : Instr} (h : pre = encode i) : Completes pre (.done i) := by
  intro bs j rest hj
  obtain ⟨rfl, rfl⟩ := done_ok hj
  rw [h]

/-- A reader that accepts only encodings of its values adds the encoding of the value to the bytes read. -/
theorem Completes.andThen {α : Type} {pre : List Byte} {p : Reader α} {enc : α → List Byte}
    {f : α → Reader Instr} (hp : Tight p enc) (hf : ∀ a, Completes (pre ++ enc a) (f a)) :
    Completes pre (p.andThen f) := by
  intro bs i rest h
  obtain ⟨a, r, ha, hi⟩ := andThen_ok h
  rw [hp bs a r ha, ← List.append_assoc]
  exact hf a r i rest hi

theorem Completes.fail {pre : List Byte} {e : DecodeError} : Completes pre (.fail e) := nofun

/-- What is read after the op code of an operation, one operand after the other in the order of R92. -/
theorem completes_readOperands_opCode (i : Instr) : Completes [i.opCode] (readOperands i.opCode) := by
  cases i with
  | readAck | readNack | stop | scanBus | wait | acquire | release | lcdInit | commandRead | displayOn | displayOff
  | cursorOn | cursorOff | blinkOn | blinkOff | scrollLeft | scrollRight | leftToRight | rightToLeft | autoscroll
  | noAutoscroll | backlight | noBacklight | clear | expRead | pwmInit | isReady | read | powerDown | powerUp
  | lcPulse => exact .done rfl
  | writeByte | pingDevice | writeChar | commandWrite | expWrite | readAverage | tare | getValue | getUnits
  | setGain => exact .andThen tight_readByte fun _ => .done rfl
  | setCursor => exact .andThen tight_readByte fun _ => .andThen tight_readByte fun _ => .done rfl
  | startTransaction => exact .andThen tight_readByte fun _ => .andThen tight_readDir fun _ => .done rfl
  | writeReg | createChar => exact .andThen tight_readByte fun _ => .andThen tight_readList fun _ => .done rfl
  | readReg =>
    exact .andThen tight_readByte fun _ => .andThen tight_readByte fun _ => .andThen tight_readNat fun _ => .done rfl
  | launch => exact .andThen tight_readAction fun _ => .done rfl
  | writeStr => exact .andThen tight_readList fun _ => .done rfl
  | send => exact .andThen tight_readByte fun _ => .andThen tight_readMode fun _ => .done rfl
  | receive | readNibble => exact .andThen tight_readMode fun _ => .done rfl
  | pulseNibble => exact .andThen tight_readNibble fun _ => .andThen tight_readMode fun _ => .done rfl
  | setBacklight | clk => exact .andThen tight_readBit fun _ => .done rfl
  | setChannel =>
    exact .andThen tight_readByte fun _ => .andThen tight_readHalf fun _ => .andThen tight_readHalf fun _ => .done rfl
  | waitReady => exact .andThen tight_readWord fun _ => .done rfl
  | waitReadyRetry => exact .andThen tight_readWord fun _ => .andThen tight_readWord fun _ => .done rfl
  | shiftInByte => exact .andThen tight_readBase fun _ => .done rfl

theorem completes_readOperands (op : Byte) : Completes [op] (readOperands op) := by
  by_cases hop : op.toNat ∈ opCodeMap
  · obtain ⟨i, hi⟩ := exists_opCode_of_mem hop
    rw [← BitVec.eq_of_toNat_eq hi]
    exact completes_readOperands_opCode i
  · rw [readOperands_reserved hop]
    exact .fail

/-- Settles O2: before the op code nothing has been read, and the op code is itself tightly read. -/
theorem decodeAcceptsOnlyEncodings : Obligations.DecodeAcceptsOnlyEncodings := fun bytes rest i h =>
  Completes.andThen (pre := []) tight_readByte completes_readOperands bytes i rest h

/-! ### A reserved op code -/

theorem decode_reserved {op : Byte} (h : op.toNat ∉ opCodeMap) (rest : List Byte) :
    decode (op :: rest) = .error .reservedOp := by
  have hread : decode (op :: rest) = readOperands op rest := rfl
  rw [hread, readOperands_reserved h, Reader.fail]

/-- Between operations, a command port whose bytes are no command is refused for the decoder's reason. -/
theorem step_of_decode_error {s : State} {e : DecodeError} (hr : s.refused = false) (ht : s.work.todo = [])
    (hc : s.cmds ≠ []) (hd : decode s.cmds = .error e) : step s = .refused (refusalOf e) := by
  have hstep : step s = fetchAndExec s.tick := by
    rw [step, if_neg (by simp [hr]), advance, ht]
  obtain ⟨op, rest, hcons⟩ := List.exists_cons_of_ne_nil hc
  rw [hcons] at hd
  rw [hstep, fetchAndExec, State.tick_cmds, hcons]
  simp only [hd]

/-- Settles O4: the map lists the op codes of the operations, and the decoder fails on any other before it reads an
operand. -/
theorem reservedOpCodeIsRefused : Obligations.ReservedOpCodeIsRefused := by
  refine ⟨opCode_mem_opCodeMap, fun _ => exists_opCode_of_mem, fun s op rest hr ht hc hop => ?_⟩
  have hd : decode s.cmds = .error .reservedOp := hc ▸ decode_reserved hop rest
  have hstep : step s = .refused .reservedOp := step_of_decode_error hr ht (by simp [hc]) hd
  exact ⟨hstep, stepRecorded_of_step_refused hstep⟩

end Sys2Proof.Machine
end

section
/-! PROOFS. The expander byte (spec/30_encoding.md R100, R101). -/

namespace Sys2Proof.Machine

open Sys2Proof

theorem bitAt_eq_shiftLeft (b : Bit) (place : Nat) : bitAt b place = (BitVec.ofBool b).setWidth 8 <<< place := by
  cases b <;> simp [bitAt]

/-- The nibble and below it the four flags, from bit 3 down to bit 0: the two sides agree in each of the eight bits. -/
theorem expanderByte_eq_concat (bl : Bit) (nib : Nibble) (mode : Mode) (rw en : Bit) :
    expanderByte bl nib mode rw en = (((nib.concat bl).concat en).concat rw).concat mode.bit := by
  simp only [expanderByte, bitAt_eq_shiftLeft]
  ext i hi
  interval_cases i <;> simp [BitVec.getElem_concat]

theorem Mode.bit_toNat (mode : Mode) : mode.bit.toNat = if mode = .data then 1 else 0 := by cases mode <;> rfl

/-- Settles O32: each flag below the nibble doubles what stands above it. -/
theorem expanderByteLayout : Obligations.ExpanderByteLayout := by
  intro bl nib mode rw en
  rw [expanderByte_eq_concat, BitVec.toNat_concat, BitVec.toNat_concat, BitVec.toNat_concat, BitVec.toNat_concat,
    Mode.bit_toNat]
  omega

end Sys2Proof.Machine
end

section
/-! PROOFS. The oracle's chance, `launch`, `stop` and `wait` (spec/40_bus_controller.md R130 to R133, R138, R143), with an
action pending and with none. -/

namespace Sys2Proof.Machine

/-! ### The oracle's chance (R132, R133) -/

theorem tick_of_not_done {s : State} {a : BusAction} (hp : s.bc.pending = some a)
    (hd : (s.env.answer 0).done = false) : s.tick = s.asked := by
  simp [State.tick, hp, hd]

theorem tick_of_done {s : State} {a : BusAction} (hp : s.bc.pending = some a) (hd : (s.env.answer 0).done = true) :
    s.tick = s.asked.complete a (s.env.answer 0) := by
  simp [State.tick, hp, hd]

theorem complete_pending (a : BusAction) (ans : Answer) (s : State) : (s.complete a ans).bc.pending = none := by
  cases a <;> rfl

theorem complete_ready (a : BusAction) (ans : Answer) (s : State) : (s.complete a ans).bc.ready = true := by
  cases a <;> rfl

theorem complete_withWork (a : BusAction) (ans : Answer) (w : Work) (s : State) :
    (s.withWork w).complete a ans = (s.complete a ans).withWork w := by
  cases a <;> rfl

/-- The values an operation has taken do not change what the oracle does. -/
theorem tick_withWork (w : Work) (s : State) : (s.withWork w).tick = s.tick.withWork w := by
  cases hp : s.bc.pending with
  | none => rw [State.tick_of_idle_bus hp, State.tick_of_idle_bus (s := s.withWork w) hp]
  | some a =>
    cases hd : (s.env.answer 0).done with
    | false => rw [tick_of_not_done hp hd, tick_of_not_done (s := s.withWork w) hp hd]; rfl
    | true =>
      rw [tick_of_done hp hd, tick_of_done (s := s.withWork w) hp hd]
      exact complete_withWork a (s.env.answer 0) w s.asked

theorem startStatus_eq (p : BusPhase) : startStatus p = if p = .idle then .startSent else .repStartSent := by
  cases p <;> rfl

theorem txStatus_eq (p : BusPhase) (b : Byte) (ack : Bit) :
    txStatus p b ack = if p = .started then addressStatus b ack else if ack then .mtDataAck else .mtDataNack := by
  cases p <;> rfl

/-- Settles O14: the completion writes what `State.complete` says, with R133's table read by `startEvent_eq`,
`startStatus_eq` and `txStatus_eq`. -/
theorem pendingActionCompletes : Obligations.PendingActionCompletes := by
  refine fun s => ⟨fun a hp hd => tick_of_not_done hp hd, fun hd => ⟨fun hp => ?_, fun b hp => ?_, fun m hp => ?_⟩⟩
  · rw [tick_of_done hp hd, ← startEvent_eq, ← startStatus_eq]
    rfl
  · have hstatus := txStatus_eq s.bc.phase b (s.env.answer 0).ack
    rw [addressStatus] at hstatus
    rw [tick_of_done hp hd, ← hstatus]
    rfl
  · rw [tick_of_done hp hd]
    rfl

/-! ### A primitive step after the oracle's chance -/

theorem run_go_tick {s t : State} {m : Micro} (rest : List Micro) (hm : stepMicro m s.tick = .go t) :
    run (m :: rest) s = run rest t := by
  rw [run, hm]

/-- The end of an operation that returns nothing, whatever is pending. -/
theorem run_ret_unit (s : State) : run [.ret .unit] s = s.tick.finish .unit := rfl

theorem run_wait_ready {s : State} (rest : List Micro) (h : s.tick.bc.ready = true) :
    run (.wait :: rest) s = run rest s.tick :=
  run_go_tick rest (by rw [stepMicro, if_pos h])

theorem run_wait_holds {s : State} (rest : List Micro) (h : s.tick.bc.ready = false) :
    run (.wait :: rest) s = { s.tick with work.todo := .wait :: rest } := by
  have hm : stepMicro .wait s.tick = .hold s.tick := by rw [stepMicro, if_neg (by simp [h])]
  rw [run, hm]

/-! ### Launches (R130) -/

theorem launch_withWork (a : BusAction) (w : Work) (s : State) :
    (s.withWork w).launch a = (s.launch a).withWork w := by
  cases a <;> rfl

/-- A launch that R143 admits: the oracle has its chance before it and after it (log 5). -/
theorem exec_launch {s : State} {a : BusAction} (hh : s.sb.held = true) (ha : a = .stop ∨ s.bc.pending = none) :
    exec (.launch a) s = .next ((s.tick.launch a).tick.finish .unit) := by
  have hissue : (slow a && s.bc.pending.isSome) = false := by
    rcases ha with rfl | hp
    · rfl
    · simp [hp]
  have hlaunch : (slow a && s.tick.bc.pending.isSome) = false := by
    rcases ha with rfl | hp
    · rfl
    · rw [State.tick_of_idle_bus hp, hissue]
  have hgo : stepMicro (.launch a) (s.withWork .idle).tick = .go ((s.tick.launch a).withWork .idle) := by
    rw [tick_withWork, ← launch_withWork, stepMicro]
    exact if_neg (ne_true_of_eq_false hlaunch)
  calc exec (.launch a) s = begin [.launch a, .ret .unit] s := if_pos hh
    _ = .next (run [.launch a, .ret .unit] (s.withWork .idle)) := if_neg (by simpa [launchesAtOnce] using hissue)
    _ = .next (((s.tick.launch a).withWork .idle).tick.finish .unit) := by rw [run_go_tick _ hgo, run_ret_unit]
    _ = _ := by rw [tick_withWork, State.finish_withWork]

/-- An action launched and not completed before the operation returns. -/
theorem exec_launch_pending {s : State} {a : BusAction} (hh : s.sb.held = true) (hp : s.bc.pending = none)
    (ha : (s.launch a).bc.pending = some a) (hd : (s.env.answer 0).done = false) :
    exec (.launch a) s = .next ((s.launch a).asked.finish .unit) := by
  rw [exec_launch hh (.inr hp), State.tick_of_idle_bus hp, tick_of_not_done ha (by rwa [State.launch_env])]

/-- An action launched and completed before the operation returns. -/
theorem exec_launch_completed {s : State} {a : BusAction} (hh : s.sb.held = true) (hp : s.bc.pending = none)
    (ha : (s.launch a).bc.pending = some a) (hd : (s.env.answer 0).done = true) :
    exec (.launch a) s = .next (((s.launch a).asked.complete a (s.env.answer 0)).finish .unit) := by
  rw [exec_launch hh (.inr hp), State.tick_of_idle_bus hp, tick_of_done ha (by rwa [State.launch_env]),
    State.launch_env]

/-! ### STOP (R130, R138, R143) -/

theorem exec_launch_stop {s : State} (hh : s.sb.held = true) :
    exec (.launch .stop) s = .next ((afterStop s.tick).tick.finish .unit) :=
  exec_launch hh (.inl rfl)

theorem exec_launch_stop_idle {s : State} (hh : s.sb.held = true) (hp : s.bc.pending = none) :
    exec (.launch .stop) s = .next ((afterStop s).finish .unit) := by
  rw [exec_launch_stop hh, State.tick_of_idle_bus hp, State.tick_of_idle_bus (s := afterStop s) hp]

/-- Another action that completes neither before the STOP nor after it stays pending (log 23). -/
theorem exec_launch_stop_pending {s : State} {a : BusAction} (hh : s.sb.held = true) (hp : s.bc.pending = some a)
    (h0 : (s.env.answer 0).done = false) (h1 : (s.env.answer 1).done = false) :
    exec (.launch .stop) s = .next { s with
      hist := s.hist ++ [.stop], bc.phase := .idle, bc.sto := false, env := s.env.advance 2, ret := .unit
      work := .idle } := by
  have hnext : ((afterStop s.asked).env.answer 0).done = false := by simpa using h1
  rw [exec_launch_stop hh, tick_of_not_done hp h0, tick_of_not_done (s := afterStop s.asked) hp hnext,
    ← Env.advance_advance s.env 1 1]
  rfl

/-- Settles O20: `stop` is the launch of a STOP. -/
theorem stopCompletes : Obligations.StopCompletes := fun _ hh =>
  ⟨exec_launch_stop hh, exec_launch_stop_idle hh, fun _ hp h0 h1 => exec_launch_stop_pending hh hp h0 h1⟩

/-- Settles O13: STOP has its effect as it is launched; the other actions stay pending or complete in the oracle's chance
before the return. -/
theorem launchCompletes : Obligations.LaunchCompletes := by
  refine ⟨fun s hh => ⟨exec_launch_stop hh, fun a hp h0 h1 => exec_launch_stop_pending hh hp h0 h1⟩,
    fun s hh hp => ⟨exec_launch_stop_idle hh hp, fun hd => ?_, fun hd => ?_⟩⟩
  · exact ⟨exec_launch_pending hh hp rfl hd, fun _ => exec_launch_pending hh hp rfl hd,
      fun _ => exec_launch_pending hh hp rfl hd⟩
  · exact ⟨exec_launch_completed hh hp rfl hd, fun _ => exec_launch_completed hh hp rfl hd,
      fun _ => exec_launch_completed hh hp rfl hd⟩

/-! ### wait (R131, R132) -/

theorem exec_wait {s : State} (hh : s.sb.held = true) :
    exec .wait s = .next (run [.wait, .ret .unit] (s.withWork .idle)) := if_pos hh

/-- With the ready flag set and nothing pending, or set by a completion now, `wait` returns. -/
theorem exec_wait_ready {s : State} (hh : s.sb.held = true) (hr : s.tick.bc.ready = true)
    (hp : s.tick.bc.pending = none) : exec .wait s = .next (s.tick.finish .unit) := by
  have hready : (s.withWork .idle).tick.bc.ready = true := by rw [tick_withWork]; exact hr
  rw [exec_wait hh, run_wait_ready _ hready, tick_withWork, run_ret_unit, tick_withWork, State.tick_of_idle_bus hp,
    State.finish_withWork]

theorem exec_wait_holds {s : State} (hh : s.sb.held = true) (hr : s.tick.bc.ready = false) :
    exec .wait s = .next (s.tick.withWork { todo := [.wait, .ret .unit] }) := by
  have hclear : (s.withWork .idle).tick.bc.ready = false := by rw [tick_withWork]; exact hr
  rw [exec_wait hh, run_wait_holds _ hclear, tick_withWork]
  rfl

/-- Settles O15: in each case the oracle's chance says whether the ready flag is set. -/
theorem waitReturnsWhenReady : Obligations.WaitReturnsWhenReady := by
  refine fun s hh => ⟨fun hp hr => ?_, fun a hp hd => ?_, fun a hp hr hd => ?_, fun hp hr => ?_⟩
  · have htick := State.tick_of_idle_bus hp
    rw [exec_wait_ready hh (by rw [htick, hr]) (by rw [htick, hp]), htick]
    rfl
  · have htick := tick_of_done hp hd
    exact exec_wait_ready hh (by rw [htick, complete_ready]) (by rw [htick, complete_pending])
  · have htick := tick_of_not_done hp hd
    rw [exec_wait_holds hh (by rw [htick]; exact hr), htick]
    rfl
  · have htick := State.tick_of_idle_bus hp
    rw [exec_wait_holds hh (by rw [htick, hr]), htick]
    rfl

/-! ### A held wait (R131, 70_reset_and_hazards.md R344) -/

theorem step_held_wait {s : State} {rest : List Micro} (hr : s.refused = false) (ht : s.work.todo = .wait :: rest) :
    step s = .next (run (.wait :: rest) s) := step_held hr ht nofun

/-- A held wait that the oracle's chance does not make ready still stands first in line. -/
theorem step_held_wait_holds {s : State} {rest : List Micro} (hr : s.refused = false)
    (ht : s.work.todo = .wait :: rest) (hready : s.tick.bc.ready = false) : step s = .next s.tick := by
  rw [step_held_wait hr ht, run_wait_holds _ hready, ← ht, ← State.tick_work]

theorem runSteps_held_wait_pending {n : Nat} {s : State} {a : BusAction} {rest : List Micro} (hr : s.refused = false)
    (ht : s.work.todo = .wait :: rest) (hready : s.bc.ready = false) (hp : s.bc.pending = some a)
    (hd : ∀ k, k < n → (s.env.answer k).done = false) : runSteps n s = .next { s with env := s.env.advance n } := by
  induction n generalizing s with
  | zero => rw [Env.advance_zero]; rfl
  | succ n ih =>
    have htick : s.tick = s.asked := tick_of_not_done hp (hd 0 (by omega))
    have hstep : step s = .next s.asked := by rw [step_held_wait_holds hr ht (by rw [htick]; exact hready), htick]
    have hlater : ∀ k, k < n → (s.asked.env.answer k).done = false := by
      intro k hk
      rw [State.asked_env, Env.answer_advance]
      exact hd _ (by omega)
    rw [runSteps_succ hstep, ih (s := s.asked) hr ht hready hp hlater, Nat.add_comm, ← Env.advance_advance]
    rfl

theorem runSteps_held_wait_idle {s : State} {rest : List Micro} (hr : s.refused = false)
    (ht : s.work.todo = .wait :: rest) (hready : s.bc.ready = false) (hp : s.bc.pending = none) (n : Nat) :
    runSteps n s = .next s := by
  have htick : s.tick = s := State.tick_of_idle_bus hp
  have hstep : step s = .next s := by rw [step_held_wait_holds hr ht (by rw [htick]; exact hready), htick]
  induction n with
  | zero => rfl
  | succ n ih => rw [runSteps_succ hstep, ih]

/-- Settles O16, by induction on the number of steps: each step of a held wait asks the oracle once, or not at all. -/
theorem aWaitNeverTimesOut : Obligations.AWaitNeverTimesOut := by
  refine fun n s rest hr ht hready => ⟨fun hp hd => ?_, fun hp => runSteps_held_wait_idle hr ht hready hp n⟩
  obtain ⟨a, ha⟩ := Option.ne_none_iff_exists'.mp hp
  exact runSteps_held_wait_pending hr ht hready ha hd

/-- Settles O17: after the `n` questions of O16 comes the one that completes the action and sets the ready flag. -/
theorem aWaitEndsAtCompletion : Obligations.AWaitEndsAtCompletion := by
  intro n s a rest hr ht hp hready hd hdone
  let t : State := { s with env := s.env.advance n }
  have hrun : runSteps n s = .next t := runSteps_held_wait_pending hr ht hready hp hd
  have hnow : (t.env.answer 0).done = true := by rw [Env.answer_advance]; exact hdone
  have hset : t.tick.bc.ready = true := by rw [tick_of_done (s := t) hp hnow, complete_ready]
  rw [runSteps_snoc hrun, step_held_wait (s := t) hr ht, run_wait_ready _ hset]

end Sys2Proof.Machine
end

section
/-! PROOFS. The BusController operations when every action completes (spec/40_bus_controller.md R134 to R142): each comes to
the state of its pseudocode, written out field by field, with its frame on the wire (spec/30_encoding.md R96, R97). -/

namespace Sys2Proof.Machine

/-! ### Address bytes (30_encoding.md R96) -/

theorem addrAdmitted_of_lt {addr : Byte} (h : addr.toNat < 128) : addrAdmitted addr = true := decide_eq_true h

theorem addressByte_eq_concat (addr : Addr7) (dir : Dir) : addressByte addr dir = addr.concat dir.bit := rfl

/-- The direction is the byte's lowest bit. -/
theorem addressByte_direction (addr : Addr7) (dir : Dir) : (addressByte addr dir).getLsbD 0 = dir.bit := by
  simp [addressByte_eq_concat]

/-- The operand's low seven bits, one place up, and the direction below them. -/
theorem addressByte_busAddress (addr : Byte) (dir : Dir) :
    addressByte (busAddress addr) dir = (addr <<< 1) ||| (if dir = .read then 1 else 0) := by
  rw [addressByte_eq_concat, busAddress]
  ext i hi
  cases dir <;> interval_cases i <;> simp [BitVec.getElem_concat, Dir.bit]

theorem addressByte_ofNat (a : Nat) : addressByte (BitVec.ofNat 7 a) .write = BitVec.ofNat 8 (2 * a) := by
  apply BitVec.eq_of_toNat_eq
  rw [addressByte_eq_concat, BitVec.toNat_concat, BitVec.toNat_ofNat, BitVec.toNat_ofNat, Dir.bit, Bool.toNat_false]
  omega

theorem addressByte_write (addr : Byte) : addressByte (busAddress addr) .write = addr <<< 1 := by
  simp [addressByte_busAddress]

theorem addressByte_read (addr : Byte) : addressByte (busAddress addr) .read = (addr <<< 1) ||| 1 := by
  simp [addressByte_busAddress]

theorem addressStatus_addressByte (addr : Addr7) (dir : Dir) (ack : Bit) :
    addressStatus (addressByte addr dir) ack =
      if dir = .read then (if ack then .mrSlaAck else .mrSlaNack) else (if ack then .mtSlaAck else .mtSlaNack) := by
  rw [addressStatus, addressByte_direction]
  cases dir <;> rfl

/-! ### start_transaction (R134) -/

theorem AnswersReady.withWork {n : Nat} {s : State} (h : AnswersReady n s) (w : Work) : AnswersReady n (s.withWork w) :=
  h.congr rfl rfl

/-- The effect of `start_transaction` on every field. -/
theorem afterAddress_eq (addr : Addr7) (dir : Dir) (s : State) :
    afterAddress addr dir s = { s with
      hist := s.hist ++ [if s.bc.phase = .idle then .start else .repStart,
        .tx (addressByte addr dir) (s.env.answer 1).ack]
      bc := { s.bc with
        phase := if dir = .read then .activeR else .activeW
        addr := addr
        ready := true
        status :=
          if dir = .read then (if (s.env.answer 1).ack then .mrSlaAck else .mrSlaNack)
          else (if (s.env.answer 1).ack then .mtSlaAck else .mtSlaNack)
        data := addressByte addr dir
        sta := false
        pending := none }
      env := s.env.advance 2 } := by
  rw [← startEvent_eq, ← addressStatus_addressByte addr]
  simp only [afterAddress, afterTx, afterStart, txStatus, List.append_assoc, List.singleton_append,
    Env.advance_advance, Env.answer_advance, Nat.reduceAdd]
  cases dir <;> rfl

theorem exec_startTransaction {s : State} {addr : Byte} (dir : Dir) (hh : s.sb.held = true) (haddr : addr.toNat < 128)
    (hready : AnswersReady 2 s) :
    exec (.startTransaction addr dir) s = .next ((afterAddress (busAddress addr) dir s).finish .unit) := by
  have hissue : exec (.startTransaction addr dir) s =
      .next (run (addressProg (busAddress addr) dir ++ [.ret .unit]) (s.withWork .idle)) :=
    (if_pos (addrAdmitted_of_lt haddr)).trans (withToken_next _ _ hh hready.pending)
  rw [hissue, run_address _ _ _ (hready.withWork .idle), run_ret _ rfl]
  rfl

/-- Settles O18: the program comes to `afterAddress`, which `afterAddress_eq` writes out. -/
theorem startTransactionCompletes : Obligations.StartTransactionCompletes := by
  intro s addr dir hh hready haddr
  rw [exec_startTransaction dir hh haddr hready, afterAddress_eq, addressByte_busAddress]
  rfl

/-! ### write_byte, read_ack, read_nack (R135 to R137) -/

theorem exec_writeByte {s : State} (b : Byte) (hh : s.sb.held = true) (hphase : s.bc.phase = .activeW)
    (hready : AnswersReady 1 s) : exec (.writeByte b) s = .next ((afterTx b s).finish .unit) := by
  have hissue : exec (.writeByte b) s = .next (run (actionProg (.tx b) ++ [.ret .unit]) (s.withWork .idle)) :=
    inPhase_next _ _ _ hh hphase hready.pending
  rw [hissue, run_tx _ _ (hready.withWork .idle), run_ret _ rfl]
  rfl

/-- A receive in ACTIVE_R returns the byte the oracle answers. -/
theorem inPhase_receive {s : State} (m : Bit) (hh : s.sb.held = true) (hphase : s.bc.phase = .activeR)
    (hready : AnswersReady 1 s) :
    inPhase .activeR (receiveProg m) .lastByte s = .next ((afterRx m s).finish (.byte (s.env.answer 0).rx)) := by
  rw [inPhase_next _ _ _ hh hphase hready.pending, run_receive _ _ (hready.withWork .idle), run_ret _ rfl]
  rfl

/-- Settles O19: each is one action, and `afterTx` and `afterRx` say what it writes. -/
theorem byteTransfersComplete : Obligations.ByteTransfersComplete := by
  refine fun s hh hready => ⟨fun hphase b => ?_, fun hphase => ⟨?_, ?_⟩⟩
  · rw [exec_writeByte b hh hphase hready, afterTx, hphase]
    rfl
  · exact inPhase_receive true hh hphase hready
  · exact inPhase_receive false hh hphase hready

/-! ### write_reg (R139) -/

theorem exec_writeReg {s : State} {addr : Byte} (bytes : List Byte) (hh : s.sb.held = true) (haddr : addr.toNat < 128)
    (hready : AnswersReady (2 + bytes.length) s) :
    exec (.writeReg addr bytes) s = .next ((afterWriteReg (busAddress addr) bytes s).finish .unit) := by
  have hissue : exec (.writeReg addr bytes) s =
      .next (run (writeRegProg (busAddress addr) bytes ++ [.ret .unit]) (s.withWork .idle)) :=
    (if_pos (addrAdmitted_of_lt haddr)).trans (withToken_next _ _ hh hready.pending)
  rw [hissue, run_writeReg _ _ _ (hready.withWork .idle), run_ret _ (afterWriteReg_pending _ _ _),
    afterWriteReg_withWork, State.finish_withWork]
  rfl

/-- Settles O21: the program comes to `afterWriteReg`, and its frame is a write frame. -/
theorem writeRegCompletes : Obligations.WriteRegCompletes := by
  refine fun s addr bytes hh haddr hready => ⟨exec_writeReg bytes hh haddr hready, fun hidle => ?_⟩
  rw [← addressByte_write, ← busAddress, afterWriteReg_hist, hidle]
  rfl

/-! ### read_reg (R140) -/

theorem afterReadAcks_hist (k : Nat) (s : State) :
    (afterReadAcks k s).hist = s.hist ++ (List.range k).map fun j => .rx (s.env.answer j).rx true := by
  induction k generalizing s with
  | zero => simp [afterReadAcks]
  | succ k ih =>
    rw [afterReadAcks_succ, ih]
    simp [List.range_succ_eq_map, Function.comp_def, Nat.add_comm]

/-- The frame of `read_reg` (30_encoding.md R97): the second START comes in ACTIVE_W and is a repeated one. -/
theorem afterReadReg_hist (addr : Addr7) (reg : Byte) (n : Nat) (s : State) :
    (afterReadReg addr reg (n + 1) s).hist = s.hist
      ++ [startEvent s.bc.phase, .tx (addressByte addr .write) (s.env.answer 1).ack, .tx reg (s.env.answer 2).ack,
        .repStart, .tx (addressByte addr .read) (s.env.answer 4).ack]
      ++ ((List.range n).map fun k => .rx (s.env.answer (5 + k)).rx true)
      ++ [.rx (s.env.answer (5 + n)).rx false, .stop] := by
  have hrepeated : startEvent (afterAddress addr .write s).bc.phase = .repStart := rfl
  simp [afterReadReg, afterReadAcks_hist, afterAddress_hist, hrepeated]

theorem exec_readReg {s : State} {addr : Byte} (reg : Byte) (n : Nat) (hh : s.sb.held = true) (haddr : addr.toNat < 128)
    (hready : AnswersReady (6 + n) s) :
    exec (.readReg addr reg (n + 1)) s =
      .next ((afterReadReg (busAddress addr) reg (n + 1) s).finish (.bytes (readRegValue (n + 1) s))) := by
  have hissue : exec (.readReg addr reg (n + 1)) s =
      .next (run (readRegProg (busAddress addr) reg (n + 1) ++ [.ret .allBytes]) (s.withWork .idle)) :=
    (if_pos (addrAdmitted_of_lt haddr)).trans (withToken_next _ _ hh hready.pending)
  have hanswers : AnswersReady (5 + (n + 1)) (s.withWork .idle) := (hready.mono (by omega)).withWork .idle
  rw [hissue, run_readReg _ _ _ n.succ_ne_zero _ hanswers rfl, run_ret _ rfl, afterReadReg_withWork]
  rfl

/-- Settles O22: the program comes to `afterReadReg` with the bytes received in its work, and `afterReadReg_hist` gives
its frame. -/
theorem readRegCompletes : Obligations.ReadRegCompletes := by
  refine fun s addr reg n hh haddr hready => ⟨exec_readReg reg n hh haddr hready, fun hidle => ?_⟩
  rw [← addressByte_read, ← addressByte_write, ← busAddress, afterReadReg_hist, hidle]
  rfl

/-! ### ping_device (R141, R145) -/

/-- The effect of a ping on every field. -/
theorem afterPing_eq (addr : Addr7) (s : State) :
    afterPing addr s = { s with
      hist := s.hist ++ [if s.bc.phase = .idle then .start else .repStart,
        .tx (addressByte addr .write) (s.env.answer 1).ack, .stop]
      bc := { s.bc with
        phase := .idle, addr := addr, ready := true, data := addressByte addr .write, sta := false, sto := false
        status := if (s.env.answer 1).ack then .mtSlaAck else .mtSlaNack, pending := none }
      env := s.env.advance 2 } := by
  rw [afterPing, afterAddress_eq, afterStop]
  simp

theorem exec_pingDevice {s : State} {addr : Byte} (hh : s.sb.held = true) (haddr : addr.toNat < 128)
    (hready : AnswersReady 2 s) :
    exec (.pingDevice addr) s = .next ((afterPing (busAddress addr) s).finish (.bool (s.env.answer 1).ack)) := by
  have hissue : exec (.pingDevice addr) s =
      .next (run (pingProg (busAddress addr) ++ [.ret .lastFlag]) (s.withWork .idle)) :=
    (if_pos (addrAdmitted_of_lt haddr)).trans (withToken_next _ _ hh hready.pending)
  rw [hissue, run_ping _ _ (hready.withWork .idle), run_ret _ rfl]
  rfl

/-- Settles O23: the program comes to `afterPing` with the acknowledge of the address byte as the flag taken last. -/
theorem pingDeviceCompletes : Obligations.PingDeviceCompletes := by
  intro s addr hh haddr hready
  rw [exec_pingDevice hh haddr hready, afterPing_eq, addressByte_write]
  rfl

/-! ### scan_bus (R142, R145) -/

theorem afterScan_phase (k : Nat) {s : State} (h : s.bc.phase = .idle) : (afterScan k s).bc.phase = .idle := by
  cases k with
  | zero => exact h
  | succ k => rw [afterScan_succ]; rfl

theorem afterScan_hist (k : Nat) {s : State} (h : s.bc.phase = .idle) :
    (afterScan k s).hist = s.hist ++ (List.range k).flatMap fun a =>
      [.start, .tx (BitVec.ofNat 8 (2 * a)) (s.env.answer (2 * a + 1)).ack, .stop] := by
  induction k with
  | zero => simp [afterScan]
  | succ k ih =>
    rw [afterScan_succ, afterPing_hist, afterScan_phase k h, ih, addressByte_ofNat, List.range_succ]
    simp [startEvent]

/-- Three events a ping, from every phase. -/
theorem afterScan_hist_length (k : Nat) (s : State) : (afterScan k s).hist.length = s.hist.length + 3 * k := by
  induction k with
  | zero => rfl
  | succ k ih =>
    rw [afterScan_succ, afterPing_hist, List.length_append, ih]
    rfl

/-- `k` pings and the return: the flags taken are the presence map. -/
theorem run_scan {s : State} (k : Nat) (h : AnswersReady (2 * k) s) :
    run (((List.range k).flatMap fun a => pingProg (BitVec.ofNat 7 a)) ++ [.ret .allFlags]) (s.withWork .idle) =
      (afterScan k s).finish (.presence ((List.range k).map fun a => (s.env.answer (2 * a + 1)).ack)) := by
  have hend (w : Work) : run [.ret .allFlags] ((afterScan k s).withWork w) =
      (afterScan k s).finish (.presence w.flags) :=
    run_ret (s := (afterScan k s).withWork w) .allFlags (afterScan_pending k h.pending)
  rw [run_pings k _ (h.withWork .idle), afterScan_withWork]
  exact hend _

theorem exec_scanBus {s : State} (hh : s.sb.held = true) (hready : AnswersReady 254 s) :
    exec .scanBus s =
      .next ((afterScan 127 s).finish (.presence ((List.range 127).map fun a => (s.env.answer (2 * a + 1)).ack))) := by
  have hissue : exec .scanBus s = .next (run (scanProg ++ [.ret .allFlags]) (s.withWork .idle)) :=
    withToken_next _ _ hh hready.pending
  rw [hissue, scanProg, Config.scanLimit, run_scan 127 hready]

/-- Settles O24: the scan is 127 pings, and its flags are the acknowledges of their address bytes. -/
theorem scanBusFindsTheDevices : Obligations.ScanBusFindsTheDevices := by
  refine fun s hh hready => ⟨exec_scanBus hh hready, afterScan_hist 127, afterScan_hist_length 127 s, ?_⟩
  intro present hpresent
  have hmap : ((List.range 127).map fun a => (s.env.answer (2 * a + 1)).ack) = (List.range 127).map present :=
    List.map_congr_left fun a ha => hpresent a (List.mem_range.mp ha)
  rw [exec_scanBus hh hready, hmap]

end Sys2Proof.Machine
end

section
/-! PROOFS. Refusals of operand and phase (spec/40_bus_controller.md R140, R143, R144): an address of 128 or more, an
operation out of phase, and a launch on a pending action (log 10, log 12). -/

namespace Sys2Proof.Machine

/-! ### Operands (R140, R144) -/

/-- Settles O27: these operations look at their operands before the handle and the phase. -/
theorem addressOutOfRangeIsRefused : Obligations.AddressOutOfRangeIsRefused := by
  refine fun s addr reg => ⟨rfl, fun haddr => ?_⟩
  have hout : ¬ addrAdmitted addr = true := by simpa [addrAdmitted] using haddr
  exact ⟨fun _ => if_neg hout, fun _ => if_neg hout, fun _ => if_neg hout, if_neg hout⟩

/-! ### Operations that launch at once -/

/-- What follows the first launch does not matter. -/
theorem launchesAtOnce_append {prog : List Micro} (h : launchesAtOnce prog = true) (rest : List Micro) :
    launchesAtOnce (prog ++ rest) = true := by
  induction prog with
  | nil => nomatch h
  | cons m l ih =>
    cases m
    case launch a => exact h
    case setShadow r v => exact ih h
    case setBl v => exact ih h
    all_goals nomatch h

theorem begin_refused {s : State} {prog : List Micro} (hl : launchesAtOnce prog = true) (hp : s.bc.pending ≠ none) :
    begin prog s = .refused .phaseError :=
  if_pos (by simp [hl, Option.isSome_iff_ne_none, hp])

theorem withToken_refused {s : State} {prog : List Micro} (ret : Ret) (hl : launchesAtOnce prog = true)
    (hh : s.sb.held = true) (hp : s.bc.pending ≠ none) : withToken prog ret s = .refused .phaseError :=
  (if_pos hh).trans (begin_refused (launchesAtOnce_append hl _) hp)

theorem inPhase_refused_of_phase {s : State} {phase : BusPhase} (prog : List Micro) (ret : Ret) (hh : s.sb.held = true)
    (hphase : s.bc.phase ≠ phase) : inPhase phase prog ret s = .refused .phaseError :=
  (if_neg (by simp [hh])).trans (if_pos hphase)

/-- In its phase and out of it. -/
theorem inPhase_refused {s : State} (phase : BusPhase) {prog : List Micro} (ret : Ret) (hl : launchesAtOnce prog = true)
    (hh : s.sb.held = true) (hp : s.bc.pending ≠ none) : inPhase phase prog ret s = .refused .phaseError := by
  by_cases hphase : s.bc.phase = phase
  · rw [inPhase, if_neg (by simp [hh]), if_neg (by simp [hphase]), begin_refused (launchesAtOnce_append hl _) hp]
  · exact inPhase_refused_of_phase prog ret hh hphase

theorem driverOp_refused {s : State} {check : Option Refusal} {prog : List Micro} (ret : Ret) (hc : check = none)
    (hl : launchesAtOnce prog = true) (hh : s.sb.held = false) (hp : s.bc.pending ≠ none) :
    driverOp check prog ret s = .refused .phaseError := by
  rw [hc, driverOp, if_neg (by simp [hh])]
  exact begin_refused (s := s.hold) (launchesAtOnce_append hl _) hp

/-! ### The programs that launch at once -/

theorem launchesAtOnce_scan : launchesAtOnce scanProg = true := by
  rw [scanProg, Config.scanLimit, List.range_succ_eq_map, List.flatMap_cons]
  exact launchesAtOnce_append rfl _

/-- A raw command writes at most a shadow register before its first START (42_display.md R191). -/
theorem launchesAtOnce_commandWrite (s : State) (cmd : Byte) : launchesAtOnce (commandWriteProg s cmd) = true := by
  unfold commandWriteProg
  split <;> rfl

theorem setChannelCheck_none {channel : Byte} {on off : Half} (hc : channel.toNat ≤ 15) (hon : on.toNat ≤ 0xFFF)
    (hoff : off.toNat ≤ 0xFFF) : setChannelCheck channel on off = none := by
  have h16 : channel.toNat < 16 := by omega
  have hon' : on.toNat < 0x1000 := by omega
  have hoff' : off.toNat < 0x1000 := by omega
  simp [setChannelCheck, channelAdmitted, counterAdmitted, h16, hon', hoff']

/-! ### init on a pending action -/

/-- A START on an action that does not complete is refused, and the refusal is what is left to do (log 12). -/
theorem run_start_refused {s : State} {a : BusAction} (rest : List Micro) (hp : s.bc.pending = some a)
    (hd : (s.env.answer 0).done = false) :
    run (.launch .start :: rest) s = { s.asked with work.todo := [.refuse .phaseError] } := by
  have hm : stepMicro (.launch .start) s.tick = .refuse .phaseError s.tick := by
    rw [tick_of_not_done hp hd, stepMicro]
    exact if_pos (by simp [slow, hp])
  rw [run, hm, tick_of_not_done hp hd]

theorem lcdInitProg_cons (s : State) : ∃ rest : List Micro,
    lcdInitProg s = .delay s.cfg.tPowerOn :: .launch .start :: rest := by
  obtain ⟨rest, hpulse⟩ : ∃ rest, pulseProg s 0x3 .cmd = .launch .start :: rest := ⟨_, rfl⟩
  simp only [lcdInitProg, hpulse, List.append_assoc, List.cons_append, List.nil_append]
  exact ⟨_, rfl⟩

/-- `lcd_init` starts with a delay (42_display.md R199), so it is issued and comes to its first START. -/
theorem exec_lcdInit_pending {s : State} {a : BusAction} (hh : s.sb.held = false) (hp : s.bc.pending = some a)
    (h0 : (s.env.answer 0).done = false) (h1 : (s.env.answer 1).done = false) :
    exec .lcdInit s = .next { s with
      hist := s.hist ++ [.delay s.cfg.tPowerOn], sb.held := true, env := s.env.advance 2
      work := { todo := [.refuse .phaseError] } } := by
  let u : State := s.hold.withWork .idle
  obtain ⟨rest, hprog⟩ := lcdInitProg_cons s
  have hlate : launchesAtOnce (lcdInitProg s ++ [.release, .ret .unit]) = false := by
    rw [hprog]
    rfl
  have hissue : exec .lcdInit s = .next (run (lcdInitProg s ++ [.release, .ret .unit]) u) :=
    (if_neg (c := s.sb.held = true) (by simp [hh])).trans (if_neg (by simp [hlate]))
  have hdelay : stepMicro (.delay s.cfg.tPowerOn) u.tick = .go (u.asked.delay s.cfg.tPowerOn) := by
    rw [tick_of_not_done (s := u) hp h0]
    rfl
  have hnext : ((u.asked.delay s.cfg.tPowerOn).env.answer 0).done = false := by
    rw [State.delay_env, State.asked_env, Env.answer_advance]
    exact h1
  rw [hissue, hprog, List.cons_append, List.cons_append, run_go_tick _ hdelay,
    run_start_refused (s := u.asked.delay s.cfg.tPowerOn) _ hp hnext,
    ← Env.advance_advance s.env 1 1]
  rfl

theorem step_held_refuse {s : State} {r : Refusal} {rest : List Micro} (hr : s.refused = false)
    (ht : s.work.todo = .refuse r :: rest) : step s = .refused r := by
  have hstep : step s = advance s := if_neg (by simp [hr])
  rw [hstep, advance, ht]

/-! ### The obligation, one kind of operation at a time -/

/-- The BusController operations that launch START, TX or RX. -/
theorem controller_refused {s : State} (hh : s.sb.held = true) (hp : s.bc.pending ≠ none) :
    (∀ a : BusAction, a ≠ .stop → exec (.launch a) s = .refused .phaseError)
    ∧ (∀ b : Byte, exec (.writeByte b) s = .refused .phaseError)
    ∧ exec .readAck s = .refused .phaseError ∧ exec .readNack s = .refused .phaseError
    ∧ exec .scanBus s = .refused .phaseError
    ∧ ∀ addr : Byte, addr.toNat < 128 →
      (∀ dir : Dir, exec (.startTransaction addr dir) s = .refused .phaseError)
      ∧ (∀ bytes : List Byte, exec (.writeReg addr bytes) s = .refused .phaseError)
      ∧ (∀ (reg : Byte) (n : Nat), exec (.readReg addr reg (n + 1)) s = .refused .phaseError)
      ∧ exec (.pingDevice addr) s = .refused .phaseError := by
  refine ⟨fun a ha => ?_, fun b => inPhase_refused _ _ rfl hh hp, inPhase_refused _ _ rfl hh hp,
    inPhase_refused _ _ rfl hh hp, withToken_refused _ launchesAtOnce_scan hh hp, fun addr haddr => ?_⟩
  · have hslow : slow a = true := by cases a <;> simp [slow] at ha ⊢
    exact withToken_refused _ hslow hh hp
  · have hadmitted := addrAdmitted_of_lt haddr
    exact ⟨fun _ => (if_pos hadmitted).trans (withToken_refused _ rfl hh hp),
      fun _ => (if_pos hadmitted).trans (withToken_refused _ rfl hh hp),
      fun _ _ => (if_pos hadmitted).trans (withToken_refused _ rfl hh hp),
      (if_pos hadmitted).trans (withToken_refused _ rfl hh hp)⟩

/-- Settles O26: an operation is refused as it is issued if its program launches at once, and `lcd_init` at the first
launch it comes to. -/
theorem phaseErrorIsRefused : Obligations.PhaseErrorIsRefused := by
  refine ⟨fun s hh => ⟨fun hphase b => ?_, fun hphase => ⟨?_, ?_⟩, controller_refused hh, fun hp => ?internal⟩,
    fun s hh hp => ?driver, fun s r rest hr ht => step_held_refuse hr ht⟩
  · exact inPhase_refused_of_phase _ _ hh hphase
  · exact inPhase_refused_of_phase _ _ hh hphase
  · exact inPhase_refused_of_phase _ _ hh hphase
  case internal =>
    exact ⟨fun b => withToken_refused _ rfl hh hp, withToken_refused _ rfl hh hp,
      fun mode => ⟨withToken_refused _ rfl hh hp, fun nib => withToken_refused _ rfl hh hp⟩⟩
  case driver =>
    refine ⟨fun i hi => ?_, fun b => ⟨?_, ?_, fun str => ?_, fun mode => ?_⟩, fun mode => ?_, fun v => ?_,
      fun col row hddram => ?_, fun loc map hlength => ?_, fun channel on off hc hon hoff => ?_, fun h0 h1 => ?_⟩
    · fin_cases hi <;> exact driverOp_refused _ rfl rfl hh hp
    · exact driverOp_refused _ rfl rfl hh hp
    · exact driverOp_refused _ rfl (launchesAtOnce_commandWrite s b) hh hp
    · exact driverOp_refused _ rfl rfl hh hp
    · exact driverOp_refused _ rfl rfl hh hp
    · exact driverOp_refused _ rfl rfl hh hp
    · exact driverOp_refused _ rfl rfl hh hp
    · exact driverOp_refused _ (if_neg (by omega)) rfl hh hp
    · exact driverOp_refused _ (if_neg (by simp [hlength])) rfl hh hp
    · exact driverOp_refused _ (setChannelCheck_none hc hon hoff) rfl hh hp
    · obtain ⟨a, ha⟩ := Option.ne_none_iff_exists'.mp hp
      exact exec_lcdInit_pending hh ha h0 h1

end Sys2Proof.Machine
end

section
/-! PROOFS. What the BusController operations leave alone (spec/40_bus_controller.md R130, R133, spec/20_memory.md R66), in the
step that issues them and in every step that goes on with them. -/

namespace Sys2Proof.Machine

/-- A two-wire event: the events of the bus but the delays (20_memory.md R66). -/
def Event.isTwoWire (e : Event) : Prop := e.ofBus = true ∧ ∀ ns, e ≠ .delay ns

/-- The part of the frame that only the BusController's own operations keep: a driver operation takes the handle, writes
the display's registers or delays. -/
structure ControllerFrame (s t : State) : Prop where
  handle : t.sb = s.sb
  display : t.lcd = s.lcd
  events : Emits Event.isTwoWire s t

theorem ControllerFrame.trans {s t u : State} (h : ControllerFrame s t) (k : ControllerFrame t u) :
    ControllerFrame s u where
  handle := k.handle.trans h.handle
  display := k.display.trans h.display
  events := h.events.trans k.events

/-- An update of other fields than these. -/
theorem ControllerFrame.of_eq {s t : State} (hsb : t.sb = s.sb) (hlcd : t.lcd = s.lcd) (hhist : t.hist = s.hist) :
    ControllerFrame s t := ⟨hsb, hlcd, .nil hhist⟩

theorem controllerFrame_tick (s : State) : ControllerFrame s s.tick where
  handle := s.tick_sb
  display := s.tick_lcd
  events := emits_tick (fun _ hbus hdelay => ⟨hbus, hdelay⟩) s

theorem controllerFrame_launch (a : BusAction) (s : State) : ControllerFrame s (s.launch a) where
  handle := s.launch_sb a
  display := s.launch_lcd a
  events := by
    cases a
    case stop => exact .one .stop ⟨rfl, nofun⟩ rfl
    all_goals exact .nil rfl

/-- A BusController operation launches, waits, writes its phase and address, and takes bytes and acknowledges; no other
primitive step is its own. -/
theorem controllerFrame_stepMicro {i : Instr} {s : State} {m : Micro} (hi : partOf i = .controller)
    (hm : mayTake i s m) (u : State) : ControllerFrame u (stepMicro m u).state := by
  have hcell : partOf i ≠ .loadCell := by simp [hi]
  have hdriver : partOf i ≠ .driver := by simp [hi]
  cases m <;> simp only [stepMicro]
  case launch a =>
    split
    · exact .of_eq rfl rfl rfl
    · exact controllerFrame_launch a u
  case wait => split <;> exact .of_eq rfl rfl rfl
  case addressed | takeByte | takeAck => exact .of_eq rfl rfl rfl
  case needAck => exact absurd (hm ▸ rfl) hdriver
  case delay ns => exact absurd hi hm
  case setShadow | setBl => exact absurd hm.1 hdriver
  case rewritePort v => exact absurd hm hdriver
  case lcPhase p => exact absurd hm.1 hcell
  case storeOffset =>
    obtain ⟨count, rfl⟩ := hm
    exact absurd rfl hcell
  case release | ret | refuse => exact hm.elim
  all_goals exact absurd hm hcell

theorem issued_controllerFrame {i : Instr} {s t : State} (hi : partOf i = .controller) (h : Issued i s t) (k : Nat) :
    ControllerFrame s (goOn k t) :=
  issued_goOn_rel (R := ControllerFrame) ControllerFrame.trans controllerFrame_tick
    (work := fun _ _ => .of_eq rfl rfl rfl) (ret := fun _ _ => .of_eq rfl rfl rfl)
    (held := fun hd => by rw [hi] at hd; nomatch hd) (micro := fun _ hm u => controllerFrame_stepMicro hi hm u) h k

/-- Settles O28: the frame of the driver operations holds of these too, and with it the handle, the display and the
absence of delays. -/
theorem controllerOperationsFrame : Obligations.ControllerOperationsFrame := by
  intro i s u k hi h
  have hgain : ∀ gain, i ≠ .setGain gain := by
    rintro gain rfl
    nomatch hi
  have hissued : Issued i s u := exec_issued (by simp [hi]) hgain h
  have own := issued_controllerFrame hi hissued k
  have shared := issued_driverFrame (by simp [hi]) hissued k
  obtain ⟨hdiv, hen, -, -, -, hpwm, -, hcfg⟩ := shared.construction
  exact ⟨own.handle, own.display, hpwm, shared.lc, hcfg, shared.cmds, shared.refused, hdiv, hen, own.events⟩

end Sys2Proof.Machine
end

section
/-! PROOFS. The token (spec/41_shared_bus.md R170 to R173): what `acquire` and `release` do, and that an operation which
needs the token is refused without it. -/

namespace Sys2Proof.Machine

/-! ### `acquire` and `release` (R170, R171) -/

theorem exec_acquire_of_free {s : State} (hfree : s.sb.held = false) :
    exec .acquire s = .next (s.hold.finish (.token .token)) := if_neg (by simp [hfree])

theorem exec_acquire_of_held {s : State} (hheld : s.sb.held = true) : exec .acquire s = .next (s.raise .busBusy) :=
  if_pos hheld

theorem exec_release_of_free {s : State} (hfree : s.sb.held = false) : exec (.release .token) s = .refused .noHolder :=
  if_neg (by simp [hfree])

theorem exec_release_of_held {s : State} (hheld : s.sb.held = true) :
    exec (.release .token) s = .next (s.unhold.finish .unit) := if_pos hheld

/-- Settles O29: neither operation looks at anything but the handle, so the phase does not matter. -/
theorem handleOperationsComplete : Obligations.HandleOperationsComplete := fun _ =>
  ⟨fun hfree => ⟨exec_acquire_of_free hfree, exec_release_of_free hfree⟩,
    fun hheld => ⟨exec_acquire_of_held hheld, exec_release_of_held hheld⟩⟩

/-! ### Operations that need the token (R172, R173) -/

theorem withToken_of_free {s : State} (prog : List Micro) (ret : Ret) (hfree : s.sb.held = false) :
    withToken prog ret s = .refused .noToken := if_neg (by simp [hfree])

/-- The phase is looked at only after the token (log 10). -/
theorem inPhase_of_free {s : State} (phase : BusPhase) (prog : List Micro) (ret : Ret) (hfree : s.sb.held = false) :
    inPhase phase prog ret s = .refused .noToken := if_pos (by simp [hfree])

/-- Settles O25: once its operands are admitted, each of these operations is a `withToken` or an `inPhase`, and both look
at the handle first. -/
theorem noTokenIsRefused : Obligations.NoTokenIsRefused := by
  intro s i hfree hadmitted hpart
  cases i
  case startTransaction | writeReg | pingDevice => exact (if_pos hadmitted).trans (withToken_of_free _ _ hfree)
  case readReg addr reg n =>
    obtain ⟨haddr, hn⟩ : addrAdmitted addr = true ∧ n ≠ 0 := by simpa [Instr.wellFormed] using hadmitted
    exact (if_neg hn).trans ((if_pos haddr).trans (withToken_of_free _ _ hfree))
  case writeByte | readAck | readNack => exact inPhase_of_free _ _ _ hfree
  case stop | scanBus | wait | launch => exact withToken_of_free _ _ hfree
  case expWrite | expRead | pulseNibble | readNibble => exact withToken_of_free _ _ hfree
  all_goals exact absurd hpart (by simp [partOf])

end Sys2Proof.Machine
end

section
/-! PROOFS. The display operations on the expander and on bytes when every action completes (spec/42_display.md R180 to R189):
each comes to the state of its pseudocode, with its events on the wire. -/

namespace Sys2Proof.Machine

/-! ### From a program's run to its operation (spec/41_shared_bus.md R172, R173) -/

/-- An operation inside its caller's acquisition ends in `t` once its program, run from nothing taken, comes to `t` with
the values `w` taken. -/
theorem withToken_done {s t : State} {prog : List Micro} {ret : Ret} {w : Work} (hh : s.sb.held = true)
    (hp : s.bc.pending = none)
    (hrun : run (prog ++ [.ret ret]) (s.withWork .idle) = run [.ret ret] (t.withWork w))
    (ht : t.bc.pending = none) : withToken prog ret s = .next (t.finish ((t.withWork w).result ret)) := by
  rw [withToken_next prog ret hh hp, hrun, run_ret (s := t.withWork w) ret ht, State.finish_withWork]

/-- The same for a driver operation, around whose program the handle is taken and freed. -/
theorem driverOp_done {s : State} {prog : List Micro} {ret : Ret} {f : State → State} {w : Work}
    (hfree : s.sb.held = false) (hp : s.bc.pending = none)
    (hrun : run (prog ++ [.release, .ret ret]) (s.hold.withWork .idle) =
      run [.release, .ret ret] ((f s.hold).withWork w))
    (hf : (f s.hold).bc.pending = none) :
    driverOp none prog ret s = .next (driverDone f (((f s.hold).withWork w).result ret) s) := by
  rw [driverOp_next prog ret hfree hp, hrun, run_driverEnd (s := (f s.hold).withWork w) ret hf]
  rfl

/-- The answers that stand ready do so once the handle is taken. -/
theorem AnswersReady.issue {n : Nat} {s : State} (h : AnswersReady n s) : AnswersReady n (s.hold.withWork .idle) :=
  h.congr rfl rfl

/-! ### exp_write, exp_read, pulse_nibble, read_nibble (R180 to R184) -/

theorem exec_expWrite {s : State} (b : Byte) (hh : s.sb.held = true) (hready : AnswersReady 3 s) :
    exec (.expWrite b) s = .next ((afterExpWrite b s).finish .unit) :=
  withToken_done hh hready.pending (run_expWrite b _ (hready.withWork .idle) rfl) rfl

theorem exec_expRead {s : State} (hh : s.sb.held = true) (hready : AnswersReady 3 s) :
    exec .expRead s = .next ((afterExpRead s).finish (.byte (expReadValue s))) :=
  withToken_done (w := { bytes := [expReadValue s] }) hh hready.pending (run_expRead _ (hready.withWork .idle) rfl) rfl

theorem exec_pulseNibble {s : State} (nib : Nibble) (mode : Mode) (hh : s.sb.held = true) (hready : AnswersReady 6 s) :
    exec (.pulseNibble nib mode) s = .next ((afterPulse nib mode s).finish .unit) :=
  withToken_done hh hready.pending (run_pulse nib mode _ (hready.withWork .idle) rfl rfl) (afterPulse_pending _ _ _)

theorem exec_readNibble {s : State} (mode : Mode) (hh : s.sb.held = true) (hready : AnswersReady 9 s) :
    exec (.readNibble mode) s = .next ((afterReadNibble mode s).finish (.nibble (readNibbleValue s))) :=
  withToken_done (w := { bytes := [(s.env.answer 5).rx] }) hh hready.pending
    (run_readNibble mode _ (hready.withWork .idle) rfl rfl) (afterReadNibble_pending _ _)

/-- A strobe ends in IDLE, so the next one begins with a START and no repeated START. -/
theorem afterPulse_phase (nib : Nibble) (mode : Mode) (s : State) : (afterPulse nib mode s).bc.phase = .idle := rfl

@[simp] theorem afterExpWrite_lcd (b : Byte) (s : State) : (afterExpWrite b s).lcd = s.lcd :=
  (onlyBus_afterExpWrite b s).lcd

theorem afterExpWrite_hist (b : Byte) {s : State} (hidle : s.bc.phase = .idle) :
    (afterExpWrite b s).hist = s.hist ++ writeFrame s.env 0 s.lcd.addr b := by
  rw [afterExpWrite, afterWriteReg_hist, hidle]
  simp [writeFrame, sentBytes, startEvent, addressByte_eq_concat, BitVec.concat, Dir.bit]

theorem afterExpRead_hist {s : State} (hidle : s.bc.phase = .idle) :
    (afterExpRead s).hist = s.hist
      ++ [.start, .tx (s.lcd.addr ++ 1#1) (s.env.answer 1).ack, .rx (s.env.answer 2).rx false, .stop] := by
  simp [afterExpRead, afterAddress_hist, hidle, startEvent, addressByte_eq_concat, BitVec.concat, Dir.bit]

theorem writeFrame_advance (e : Env) (m k : Nat) (addr : Addr7) (b : Byte) :
    writeFrame (e.advance m) k addr b = writeFrame e (m + k) addr b := by
  simp [writeFrame, Nat.add_assoc]

/-- The events of a strobe are those `strobe` writes out. -/
theorem afterPulse_hist (nib : Nibble) (mode : Mode) {s : State} (hidle : s.bc.phase = .idle) :
    (afterPulse nib mode s).hist = s.hist ++ strobe s 0 nib mode := by
  rw [afterPulse, State.delay_hist, afterExpWrite_hist _ rfl, State.delay_hist,
    afterExpWrite_hist _ hidle, State.delay_env, afterExpWrite_env, writeFrame_advance, State.delay_lcd,
    afterExpWrite_lcd]
  simp [strobe]

theorem afterReadNibble_hist (mode : Mode) {s : State} (hidle : s.bc.phase = .idle) :
    (afterReadNibble mode s).hist = s.hist
      ++ writeFrame s.env 0 s.lcd.addr (expanderByte s.lcd.bl 0xF mode true true) ++ [.delay s.cfg.tEnHold]
      ++ [.start, .tx (s.lcd.addr ++ 1#1) (s.env.answer 4).ack, .rx (s.env.answer 5).rx false, .stop]
      ++ writeFrame s.env 6 s.lcd.addr (expanderByte s.lcd.bl 0xF mode true false) ++ [.delay s.cfg.tSettle] := by
  let t : State := (afterExpWrite (expanderByte s.lcd.bl 0xF mode true true) s).delay s.cfg.tEnHold
  have hframe : t.hist = s.hist ++ writeFrame s.env 0 s.lcd.addr (expanderByte s.lcd.bl 0xF mode true true)
      ++ [.delay s.cfg.tEnHold] := congrArg (· ++ _) (afterExpWrite_hist _ hidle)
  have hread : (afterExpRead t).hist = t.hist
      ++ [.start, .tx (s.lcd.addr ++ 1#1) (s.env.answer 4).ack, .rx (s.env.answer 5).rx false, .stop] := by
    rw [afterExpRead_hist (s := t) rfl]
    simp [t]
  have henv : (afterExpRead t).env = s.env.advance 6 := by simp [t]
  rw [afterReadNibble, State.delay_hist, afterExpWrite_hist (s := afterExpRead t) _ rfl, hread, hframe, henv,
    writeFrame_advance]
  rfl

/-- Settles O33: each program comes to its state of Completed.lean, whose events are two write frames, or a write frame on
either side of a read frame. -/
theorem expanderOperationsComplete : Obligations.ExpanderOperationsComplete := fun _ hh =>
  ⟨fun hready b => exec_expWrite b hh hready, exec_expRead hh,
    fun hready nib mode => ⟨exec_pulseNibble nib mode hh hready, afterPulse_hist nib mode⟩,
    fun hready mode => ⟨exec_readNibble mode hh hready, afterReadNibble_hist mode⟩⟩

/-! ### send, write_char, write_str (R183, R187, R188) -/

/-- A driver operation that does nothing but send one byte. -/
theorem driverOp_send {s : State} (value : Byte) (mode : Mode) (hfree : s.sb.held = false)
    (hready : AnswersReady 12 s) :
    driverOp none (sendProg s value mode) .unit s = .next (driverDone (afterSend value mode) .unit s) :=
  driverOp_done hfree hready.pending
    ((run_send value mode _ hready.issue rfl rfl).trans (by rw [afterSend_withWork])) (afterSend_pending _ _ _)

theorem strobe_afterPulse (nib nib' : Nibble) (mode mode' : Mode) (k : Nat) (s : State) :
    strobe (afterPulse nib mode s) k nib' mode' = strobe s (6 + k) nib' mode' := by
  have honly := onlyBus_afterPulse nib mode s
  simp only [strobe, afterPulse_env, writeFrame_advance, honly.lcd, honly.cfg, Nat.add_assoc]

theorem afterSend_hist (value : Byte) (mode : Mode) {s : State} (hidle : s.bc.phase = .idle) :
    (afterSend value mode s).hist =
      s.hist ++ strobe s 0 (highNibble value) mode ++ strobe s 6 (lowNibble value) mode := by
  rw [afterSend, afterPulse_hist _ _ (afterPulse_phase _ _ s), strobe_afterPulse, afterPulse_hist _ _ hidle]

/-- Settles O34: the program comes to two strobes, the second six questions after the first. -/
theorem sendCompletes : Obligations.SendCompletes := fun _ value hfree hready =>
  ⟨fun mode => ⟨driverOp_send value mode hfree hready, afterSend_hist (s := State.hold _) value mode⟩,
    driverOp_send value .data hfree hready⟩

theorem afterExpWrite_hist_length (b : Byte) (s : State) : (afterExpWrite b s).hist.length = s.hist.length + 4 := by
  simp [afterExpWrite, afterWriteReg_hist, sentBytes]

theorem afterPulse_hist_length (nib : Nibble) (mode : Mode) (s : State) :
    (afterPulse nib mode s).hist.length = s.hist.length + 10 := by
  simp [afterPulse, afterExpWrite_hist_length]

theorem afterSend_hist_length (value : Byte) (mode : Mode) (s : State) :
    (afterSend value mode s).hist.length = s.hist.length + 20 := by
  rw [afterSend, afterPulse_hist_length, afterPulse_hist_length]

theorem afterSendAll_hist_length (bytes : List Byte) (s : State) :
    (afterSendAll bytes s).hist.length = s.hist.length + 20 * bytes.length := by
  induction bytes generalizing s with
  | nil => rfl
  | cons b bytes ih =>
    rw [afterSendAll_cons, ih, afterSend_hist_length, List.length_cons]
    omega

/-- Settles O35: each byte is one `send`, and a `send` has 20 events from every phase. -/
theorem writeStrCompletes : Obligations.WriteStrCompletes := by
  refine fun s str hfree hready => ⟨?_, afterSendAll_hist_length str s.hold, rfl⟩
  exact driverOp_done hfree hready.pending
    ((run_sendAll str _ hready.issue rfl rfl).trans (by rw [afterSendAll_withWork]))
    (afterSendAll_pending str hready.pending)

/-! ### receive, command_read (R185, R189) -/

theorem afterReadNibble_takeByte (mode : Mode) (b : Byte) (s : State) :
    afterReadNibble mode (s.takeByte b) = (afterReadNibble mode s).takeByte b := afterReadNibble_withWork mode _ s

/-- The two bytes taken are those of the two `exp_read`s, nine questions apart. -/
theorem driverOp_receive {s : State} (mode : Mode) (hfree : s.sb.held = false) (hready : AnswersReady 18 s) :
    driverOp none (receiveByteProg s mode) .twoNibbles s =
      .next (driverDone (afterReceive mode) (.byte (receiveValue s)) s) :=
  driverOp_done (w := { bytes := [(s.env.answer 5).rx, (s.env.answer 14).rx] }) hfree hready.pending
    ((run_receiveByte mode _ hready.issue rfl rfl).trans (by
      rw [afterReadNibble_takeByte, afterReadNibble_withWork, afterReadNibble_withWork]
      rfl))
    (afterReceive_pending _ _)

theorem highNibble_toNat (v : Byte) : (highNibble v).toNat = v.toNat / 16 := by
  rw [highNibble, BitVec.extractLsb'_toNat, Nat.shiftRight_eq_div_pow]
  omega

theorem joinNibbles_toNat (hi lo : Nibble) : (joinNibbles hi lo).toNat = 16 * hi.toNat + lo.toNat := by
  rw [joinNibbles, BitVec.toNat_append, Nat.shiftLeft_eq, Nat.mul_comm, ← Nat.two_pow_add_eq_or_of_lt lo.isLt]

/-- Settles O36: two nibble reads, which write no register of the display. -/
theorem receiveCompletes : Obligations.ReceiveCompletes := by
  refine fun s hfree hready => ⟨fun mode => driverOp_receive mode hfree hready, driverOp_receive .cmd hfree hready, ?_,
    fun mode => ?_⟩
  · rw [receiveValue, joinNibbles_toNat, highNibble_toNat, highNibble_toNat]
  · exact ((onlyBus_afterReadNibble mode s.hold).trans (onlyBus_afterReadNibble mode _)).lcd

end Sys2Proof.Machine
end

section
/-! PROOFS. The display operations that send a command byte (spec/42_display.md R191 to R204, R207 to R209): the byte sent, the
shadow register written before it, and the refusals. -/

namespace Sys2Proof.Machine

/-! ### The display's registers while an operation goes on -/

/-- A step of an operation that no rule lets write a register of the display (10_state.md R35 to R38) writes none. -/
theorem Micro.display_of_mayTake {i : Instr} {s : State} {m : Micro} (hshadow : ∀ r, writesShadow r i = false)
    (hbl : writesBacklight i = false) (hm : mayTake i s m) (d : Display) : m.display d = d := by
  cases m
  case setShadow r v =>
    obtain ⟨-, hw, -⟩ := hm
    rw [hshadow r] at hw
    nomatch hw
  case setBl v =>
    obtain ⟨-, hw⟩ := hm
    rw [hbl] at hw
    nomatch hw
  all_goals rfl

/-- A program of steps that write no register of the display. -/
def keepsDisplay (prog : List Micro) : Prop := ∀ m ∈ prog, ∀ d, m.display d = d

theorem keepsDisplay_append {l l' : List Micro} (h : keepsDisplay l) (h' : keepsDisplay l') : keepsDisplay (l ++ l') :=
  fun m hm => (List.mem_append.mp hm).elim (h m) (h' m)

/-- The end of a driver operation. -/
theorem keepsDisplay_end (ret : Ret) : keepsDisplay [.release, .ret ret] := by simp [keepsDisplay, Micro.display]

/-- `send` belongs to no rule that writes a register. -/
theorem keepsDisplay_of_allTake {s : State} {value : Byte} {mode : Mode} {prog : List Micro}
    (h : allTake (.send value mode) s prog) : keepsDisplay prog :=
  fun m hm => Micro.display_of_mayTake (fun _ => rfl) rfl (h m hm)

theorem keepsDisplay_send (s : State) (value : Byte) (mode : Mode) : keepsDisplay (sendProg s value mode) :=
  keepsDisplay_of_allTake (allTake_send s s (i := .send value mode) (.inl rfl) value mode)

/-- An operation all of whose register writes are done when it stands in `t` with `prog` left. -/
theorem showsThroughout_of_run {i : Instr} {s t : State} {prog : List Micro} {ret : Ret} {d : Display}
    (hexec : exec i s = .next (run (prog ++ [.release, .ret ret]) t)) (hprog : keepsDisplay prog) (ht : t.lcd = d) :
    showsThroughout i s d :=
  ⟨_, hexec, fun k => (goOn_lcd _ (keepsDisplay_append hprog (keepsDisplay_end ret)) t k).trans ht⟩

/-! ### A shadow register and its command (R193 to R204, R207, R208) -/

/-- The shadow register is written by the first primitive step, before anything can hold. -/
theorem showsThroughout_shadowCommand {i : Instr} {s : State} {r : Shadow} {v : Byte}
    (hexec : exec i s = driverOp none (shadowCommandProg s r v) .unit s) (hfree : s.sb.held = false)
    (hp : s.bc.pending = none) : showsThroughout i s (s.setShadow r v).lcd := by
  let u : State := s.hold.withWork .idle
  have hissue : exec i s = .next (run (commandProg s v ++ [.release, .ret .unit]) (u.setShadow r v)) := by
    rw [hexec, driverOp_next _ _ hfree hp, shadowCommandProg, List.cons_append, run_setShadow (s := u) r v _ hp]
  refine showsThroughout_of_run hissue (keepsDisplay_send s v .cmd) ?_
  cases r <;> rfl

theorem driverOp_shadowCommand {s : State} (r : Shadow) (v : Byte) (hfree : s.sb.held = false)
    (hready : AnswersReady 12 s) :
    driverOp none (shadowCommandProg s r v) .unit s = .next (driverDone (afterShadowCommand r v) .unit s) :=
  driverOp_done hfree hready.pending
    ((run_shadowCommand r v _ hready.issue ⟨rfl, rfl, rfl⟩).trans (by rw [afterShadowCommand_withWork]))
    (afterShadowCommand_pending _ _ _)

/-- On a free handle an operation's own refusal comes before its first step. -/
theorem driverOp_of_check {s : State} {r : Refusal} (prog : List Micro) (ret : Ret) (hfree : s.sb.held = false) :
    driverOp (some r) prog ret s = .refused r := if_neg (by simp [hfree])

/-- Settles O39: each operation is a write of the display-control shadow and a command, and looks at the handle first. -/
theorem displayControlOperationsComplete : Obligations.DisplayControlOperationsComplete := by
  refine ⟨fun s i hheld hi => ?busy, fun s hfree hp => ?shown, fun s hfree hready => ?done⟩
  case busy => fin_cases hi <;> exact if_pos hheld
  case shown =>
    have shown {i : Instr} {v : Byte} (hexec : exec i s = driverOp none (shadowCommandProg s .ctrl v) .unit s) :
        showsThroughout i s { s.lcd with ctrl := v } := showsThroughout_shadowCommand hexec hfree hp
    exact ⟨shown rfl, shown rfl, shown rfl, shown rfl, shown rfl, shown rfl⟩
  case done =>
    have done (v : Byte) := driverOp_shadowCommand .ctrl v hfree hready
    exact ⟨done _, done _, done _, done _, done _, done _⟩

/-- Settles O40: each operation is a write of the entry-mode shadow and a command, and looks at the handle first. -/
theorem entryModeOperationsComplete : Obligations.EntryModeOperationsComplete := by
  refine ⟨fun s i hheld hi => ?busy, fun s hfree hp => ?shown, fun s hfree hready => ?done⟩
  case busy => fin_cases hi <;> exact if_pos hheld
  case shown =>
    have shown {i : Instr} {v : Byte} (hexec : exec i s = driverOp none (shadowCommandProg s .entry v) .unit s) :
        showsThroughout i s { s.lcd with entry := v } := showsThroughout_shadowCommand hexec hfree hp
    exact ⟨shown rfl, shown rfl, shown rfl, shown rfl⟩
  case done =>
    have done (v : Byte) := driverOp_shadowCommand .entry v hfree hready
    exact ⟨done _, done _, done _, done _⟩

/-! ### command_write (R191) -/

/-- The class of a byte is the power of two at or below it (30_encoding.md R102): a check of the 256 bytes. -/
theorem commandClass_eq_iff : ∀ cmd : Byte,
    (commandClass cmd = 0x20 ↔ 0x20 ≤ cmd.toNat ∧ cmd.toNat < 0x40)
    ∧ (commandClass cmd = 0x08 ↔ 0x08 ≤ cmd.toNat ∧ cmd.toNat < 0x10)
    ∧ (commandClass cmd = 0x04 ↔ 0x04 ≤ cmd.toNat ∧ cmd.toNat < 0x08) := by
  decide +kernel

theorem commandShadow_eq (cmd : Byte) :
    commandShadow cmd =
      if 0x20 ≤ cmd.toNat ∧ cmd.toNat < 0x40 then some .fn
      else if 0x08 ≤ cmd.toNat ∧ cmd.toNat < 0x10 then some .ctrl
      else if 0x04 ≤ cmd.toNat ∧ cmd.toNat < 0x08 then some .entry
      else none := by
  obtain ⟨hfn, hctrl, hentry⟩ := commandClass_eq_iff cmd
  simp only [commandShadow, hfn, hctrl, hentry]

/-- A command of a shadowed class writes its shadow register and is sent. -/
theorem exec_commandWrite_of_some {s : State} {cmd : Byte} {r : Shadow} (h : commandShadow cmd = some r) :
    exec (.commandWrite cmd) s = driverOp none (shadowCommandProg s r cmd) .unit s := by
  have hprog : commandWriteProg s cmd = shadowCommandProg s r cmd := by rw [commandWriteProg, h]
  rw [← hprog]
  rfl

/-- Any other command is sent. -/
theorem exec_commandWrite_of_none {s : State} {cmd : Byte} (h : commandShadow cmd = none) :
    exec (.commandWrite cmd) s = driverOp none (commandProg s cmd) .unit s := by
  have hprog : commandWriteProg s cmd = commandProg s cmd := by rw [commandWriteProg, h]
  rw [← hprog]
  rfl

theorem showsThroughout_commandWrite {s : State} (cmd : Byte) (hfree : s.sb.held = false) (hp : s.bc.pending = none) :
    showsThroughout (.commandWrite cmd) s ((commandShadow cmd).elim s.lcd fun r => (s.setShadow r cmd).lcd) := by
  cases h : commandShadow cmd with
  | some r => exact showsThroughout_shadowCommand (exec_commandWrite_of_some h) hfree hp
  | none =>
    exact showsThroughout_of_run ((exec_commandWrite_of_none h).trans (driverOp_next _ _ hfree hp))
      (keepsDisplay_send s cmd .cmd) rfl

/-- Settles O37: the three classes and the rest are the four values of `commandShadow`. -/
theorem commandWriteCompletes : Obligations.CommandWriteCompletes := by
  refine ⟨fun s cmd hfree hp => ?shown, fun s cmd hfree hready => ?done⟩
  case shown =>
    have hshown := showsThroughout_commandWrite cmd hfree hp
    rw [commandShadow_eq] at hshown
    by_cases hfn : 0x20 ≤ cmd.toNat ∧ cmd.toNat < 0x40
    · rw [if_pos hfn] at hshown
      rw [if_pos hfn, if_neg (by omega), if_neg (by omega)]
      exact hshown
    rw [if_neg hfn] at hshown ⊢
    by_cases hctrl : 0x08 ≤ cmd.toNat ∧ cmd.toNat < 0x10
    · rw [if_pos hctrl] at hshown
      rw [if_pos hctrl, if_neg (by omega)]
      exact hshown
    rw [if_neg hctrl] at hshown ⊢
    by_cases hentry : 0x04 ≤ cmd.toNat ∧ cmd.toNat < 0x08
    · rw [if_pos hentry] at hshown ⊢
      exact hshown
    · rw [if_neg hentry] at hshown ⊢
      exact hshown
  case done =>
    have done {r : Shadow} (h : commandShadow cmd = some r) :
        exec (.commandWrite cmd) s = .next (driverDone (afterShadowCommand r cmd) .unit s) :=
      (exec_commandWrite_of_some h).trans (driverOp_shadowCommand r cmd hfree hready)
    rw [commandShadow_eq] at done
    refine ⟨fun h => done (r := .fn) ?_, fun h => done (r := .ctrl) ?_, fun h => done (r := .entry) ?_, fun h => ?_⟩
    · rw [if_pos h]
    · rw [if_neg (by omega), if_pos h]
    · rw [if_neg (by omega), if_neg (by omega), if_pos h]
    · have hnone : commandShadow cmd = none := by
        rw [commandShadow_eq, if_neg (by omega), if_neg (by omega), if_neg (by omega)]
      exact (exec_commandWrite_of_none hnone).trans (driverOp_send cmd .cmd hfree hready)

/-! ### set_cursor (R192) -/

theorem clampRow_eq_min {lines : Nat} (hlines : 1 ≤ lines) (row : Byte) :
    clampRow lines row = min row.toNat (lines - 1) := by
  unfold clampRow
  split <;> omega

/-- The row offsets are a table of four. -/
theorem rowOffset_of_getElem? {o : RowOffsets} {k : Nat} {offset : Byte}
    (h : [o.row0, o.row1, o.row2, o.row3][k]? = some offset) : rowOffset o k = offset.toNat := by
  obtain ⟨hk, rfl⟩ := List.getElem?_eq_some_iff.mp h
  have hk4 : k < 4 := hk
  interval_cases k <;> rfl

/-- Below the bits of `c` the `or` is a sum. -/
theorem or_ofNat_eq_add (i c n : Nat) (hn : n < 2 ^ i) :
    BitVec.ofNat 8 (2 ^ i * c) ||| BitVec.ofNat 8 n = BitVec.ofNat 8 (2 ^ i * c + n) := by
  rw [Nat.two_pow_add_eq_or_of_lt hn, BitVec.ofNat_or]

theorem ddramCommand_eq {a : Nat} (ha : a ≤ 0x7F) : ddramCommand a = BitVec.ofNat 8 (0x80 + a) :=
  or_ofNat_eq_add 7 1 a (by omega)

/-- Settles O38: the address is the exact sum with the offset of the clamped row, and it is checked before the send. -/
theorem setCursorCompletes : Obligations.SetCursorCompletes := by
  intro s col row offset hfree hlines hoffset
  have haddress : ddramAddress s.cfg.rowOffset s.lcd.lines col row = col.toNat + offset.toNat := by
    rw [ddramAddress, clampRow_eq_min hlines.1, rowOffset_of_getElem? hoffset]
  have hexec : exec (.setCursor col row) s = driverOp
      (if 0x7F < col.toNat + offset.toNat then some .ddramRange else none)
      (commandProg s (ddramCommand (col.toNat + offset.toNat))) .unit s := by
    rw [← haddress]
    rfl
  refine ⟨fun hle hready => ?_, fun hgt => ?_⟩
  · rw [hexec, if_neg (by omega), ← ddramCommand_eq hle]
    exact driverOp_send _ .cmd hfree hready
  · rw [hexec, if_pos hgt]
    exact driverOp_of_check _ _ hfree

/-! ### scroll_left, scroll_right, clear, create_char (R200 to R202, R209) -/

/-- The end of a driver operation depends on its body only in the state it is run from. -/
theorem driverDone_congr {f g : State → State} {r : Result} {s : State} (h : f s.hold = g s.hold) :
    driverDone f r s = driverDone g r s := by rw [driverDone, h, driverDone]

theorem driverOp_clear {s : State} (hfree : s.sb.held = false) (hready : AnswersReady 12 s) :
    driverOp none (clearProg s) .unit s = .next (driverDone afterClear .unit s) :=
  driverOp_done hfree hready.pending
    ((run_clear _ hready.issue ⟨rfl, rfl, rfl⟩).trans (by rw [afterClear_withWork])) (afterClear_pending _)

/-- Settles O41: three fixed commands, and after the last a delay. -/
theorem scrollAndClearComplete : Obligations.ScrollAndClearComplete := by
  refine fun s hfree hready => ⟨driverOp_send 0x18 .cmd hfree hready, driverOp_send 0x1C .cmd hfree hready, ?_⟩
  have hclear : driverDone (fun t => (afterSend 0x01 .cmd t).delay s.cfg.tClear) .unit s = driverDone afterClear .unit s :=
    driverDone_congr rfl
  rw [hclear]
  exact driverOp_clear hfree hready

theorem cgramCommand_eq (loc : Byte) : cgramCommand loc = BitVec.ofNat 8 (0x40 + 8 * (loc.toNat % 8)) := by
  have hrow : (loc &&& 0x07) <<< 3 = BitVec.ofNat 8 (8 * (loc.toNat % 8)) := by
    apply BitVec.eq_of_toNat_eq
    rw [BitVec.toNat_shiftLeft, BitVec.toNat_and, BitVec.toNat_ofNat, Nat.shiftLeft_eq,
      show (7 : Byte).toNat = 2 ^ 3 - 1 from rfl, Nat.and_two_pow_sub_one_eq_mod, Nat.mul_comm]
  rw [cgramCommand, hrow]
  exact or_ofNat_eq_add 6 1 _ (by omega)

/-- Settles O43: the length is checked before the first command, and with eight rows nine bytes are sent. -/
theorem createCharCompletes : Obligations.CreateCharCompletes := by
  refine fun s loc map hfree => ⟨fun hlength hready => ?_, fun hlength => ?_⟩
  · have hanswers : AnswersReady (12 * (1 + map.length)) s := hready.mono (by omega)
    have hexec : exec (.createChar loc map) s = driverOp none (createCharProg s loc map) .unit s :=
      congrArg (driverOp · _ _ s) (if_neg (by simp [hlength]))
    rw [hexec, ← cgramCommand_eq]
    exact driverOp_done (f := afterCreateChar loc map) hfree hready.pending
      ((run_createChar loc map _ hanswers.issue).trans (by rw [afterCreateChar_withWork]))
      (afterSendAll_pending map (afterSend_pending _ _ _))
  · have hexec : exec (.createChar loc map) s = driverOp (some .mapLength) (createCharProg s loc map) .unit s :=
      congrArg (driverOp · _ _ s) (if_pos hlength)
    rw [hexec]
    exact driverOp_of_check _ _ hfree

/-! ### set_backlight, backlight, no_backlight (R205, R206, R210) -/

theorem keepsDisplay_rewrite (s : State) (v : Bit) :
    keepsDisplay (expReadProg s ++ addressProg s.lcd.addr .write ++ [.rewritePort v, .wait, .launch .stop]) := by
  have hpart : partOf (.send 0 .cmd) ≠ .loadCell := nofun
  refine keepsDisplay_of_allTake (s := s) (value := 0) (mode := .cmd) ?_
  simp only [allTake_append, allTake_expRead s s hpart, allTake_address s hpart, true_and]
  simp [mayTake, partOf]

/-- The flag is written by the first primitive step, before anything can hold. -/
theorem showsThroughout_setBacklight {i : Instr} {s : State} {v : Bit}
    (hexec : exec i s = driverOp none (setBacklightProg s v) .unit s) (hfree : s.sb.held = false)
    (hp : s.bc.pending = none) : showsThroughout i s { s.lcd with bl := v } := by
  let t : State := { s.hold.withWork .idle with lcd.bl := v }
  have hfirst : run (setBacklightProg s v ++ [.release, .ret .unit]) (s.hold.withWork .idle) =
      run ((expReadProg s ++ addressProg s.lcd.addr .write ++ [.rewritePort v, .wait, .launch .stop])
        ++ [.release, .ret .unit]) t := run_go (t := t) _ hp rfl
  exact showsThroughout_of_run (hexec.trans ((driverOp_next _ _ hfree hp).trans (congrArg _ hfirst)))
    (keepsDisplay_rewrite s v) rfl

theorem driverOp_setBacklight {s : State} (v : Bit) (hfree : s.sb.held = false) (hready : AnswersReady 6 s) :
    driverOp none (setBacklightProg s v) .unit s = .next (driverDone (afterSetBacklight v) .unit s) :=
  driverOp_done (w := { bytes := [expReadValue s] }) hfree hready.pending
    ((run_setBacklight v _ hready.issue).trans (by rw [afterSetBacklight_withWork]; rfl)) rfl

theorem withBacklight_eq (b : Byte) (v : Bit) : withBacklight b v = (b &&& 0xF7) ||| (if v then 0x08 else 0) := by
  cases v <;> rfl

theorem withBacklight_true (b : Byte) : withBacklight b true = b ||| 0x08 := by
  rw [withBacklight_eq, if_pos rfl]
  ext i hi
  interval_cases i <;> simp

theorem withBacklight_false (b : Byte) : withBacklight b false = b &&& 0xF7 := by
  rw [withBacklight_eq, if_neg Bool.false_ne_true]
  exact BitVec.or_zero

/-- Settles O44: the flag is the first thing written, and the byte written back is the byte read but for bit 3. -/
theorem backlightOperationsComplete : Obligations.BacklightOperationsComplete := by
  refine ⟨fun s hfree hp => ⟨fun v => ?_, ?_, ?_⟩, fun s hfree hready => ⟨fun v => ?_, ?_, ?_⟩⟩
  · exact showsThroughout_setBacklight rfl hfree hp
  · exact showsThroughout_setBacklight rfl hfree hp
  · exact showsThroughout_setBacklight rfl hfree hp
  · rw [← withBacklight_eq]
    exact driverOp_setBacklight v hfree hready
  · rw [← withBacklight_true]
    exact driverOp_setBacklight true hfree hready
  · rw [← withBacklight_false]
    exact driverOp_setBacklight false hfree hready

end Sys2Proof.Machine
end

section
/-! PROOFS. `lcd_init` (spec/42_display.md R199): its end when every action completes, and when it writes each shadow register in
a run held in a bus wait too. -/

namespace Sys2Proof.Machine

theorem driverOp_lcdInit {s : State} (hfree : s.sb.held = false) (hready : AnswersReady 72 s) :
    driverOp none (lcdInitProg s) .unit s = .next (driverDone afterLcdInit .unit s) :=
  driverOp_done hfree hready.pending
    ((run_lcdInit (s := s.hold.withWork .idle) _ hready.issue).trans (by rw [afterLcdInit_withWork])) (afterClear_pending _)

/-! ### A program of strobes, delays and shadow writes -/

/-- A program that waits for each action right after its launch, as `Stands` asks, and does not begin with a wait. -/
def waitsAfterLaunches (prog : List Micro) : Prop := paired prog = true ∧ atWait prog = false

theorem waitsAfterLaunches_end : waitsAfterLaunches [.release, .ret .unit] := ⟨rfl, rfl⟩

theorem waitsAfterLaunches_delay (ns : Nat) {rest : List Micro} (h : waitsAfterLaunches rest) :
    waitsAfterLaunches (.delay ns :: rest) := ⟨by rw [paired, h.1, h.2]; rfl, rfl⟩

theorem waitsAfterLaunches_setShadow (r : Shadow) (v : Byte) {rest : List Micro} (h : waitsAfterLaunches rest) :
    waitsAfterLaunches (.setShadow r v :: rest) := ⟨by rw [paired, h.1, h.2]; rfl, rfl⟩

theorem waitsAfterLaunches_pulse (s : State) (nib : Nibble) (mode : Mode) {rest : List Micro}
    (h : waitsAfterLaunches rest) : waitsAfterLaunches (pulseProg s nib mode ++ rest) := by
  have hpaired : paired (pulseProg s nib mode ++ rest) = (!atWait rest && paired rest) := rfl
  exact ⟨by rw [hpaired, h.1, h.2]; rfl, rfl⟩

theorem waitsAfterLaunches_send (s : State) (value : Byte) (mode : Mode) {rest : List Micro}
    (h : waitsAfterLaunches rest) : waitsAfterLaunches (sendProg s value mode ++ rest) := by
  rw [sendProg, List.append_assoc]
  exact waitsAfterLaunches_pulse s _ mode (waitsAfterLaunches_pulse s _ mode h)

theorem eventsLeft_setShadow (r : Shadow) (v : Byte) (rest : List Micro) :
    eventsLeft (.setShadow r v :: rest) = eventsLeft rest := rfl

/-- Two write frames of four events and two delays. -/
theorem eventsLeft_pulse (s : State) (nib : Nibble) (mode : Mode) : eventsLeft (pulseProg s nib mode) = 10 := rfl

theorem eventsLeft_command (s : State) (v : Byte) : eventsLeft (commandProg s v) = 20 := rfl

/-! ### A register write inside a program -/

theorem displayAfter_of_keepsDisplay {prog : List Micro} (h : keepsDisplay prog) (d : Display) :
    displayAfter prog d = d := by
  induction prog with
  | nil => rfl
  | cons m rest ih =>
    obtain ⟨hm, hrest⟩ := List.forall_mem_cons.mp h
    exact (congrArg (displayAfter rest) (hm d)).trans (ih hrest)

theorem displayAfter_setShadow {before : List Micro} (hbefore : keepsDisplay before) (r : Shadow) (v : Byte)
    (after : List Micro) (d : Display) :
    displayAfter (before ++ .setShadow r v :: after) d = displayAfter after ((Micro.setShadow r v).display d) := by
  rw [displayAfter_append, displayAfter_of_keepsDisplay hbefore]
  rfl

/-- A wait in a program stands either among the steps before a step that is no wait, or among those after it. -/
theorem wait_before_or_after {before after done rest : List Micro} {m : Micro} (hm : m ≠ .wait)
    (h : before ++ m :: after = done ++ .wait :: rest) :
    (∃ l, before = done ++ .wait :: l) ∨ ∃ done', done = before ++ m :: done' ∧ after = done' ++ .wait :: rest := by
  obtain ⟨l, hdone, htail⟩ | ⟨l, hbefore, htail⟩ := List.append_eq_append_iff.mp h
  · cases l with
    | nil =>
      obtain ⟨rfl, -⟩ := List.cons_eq_cons.mp htail
      exact absurd rfl hm
    | cons m' done' =>
      obtain ⟨rfl, hafter⟩ := List.cons_eq_cons.mp htail
      exact .inr ⟨done', hdone, hafter⟩
  · cases l with
    | nil =>
      obtain ⟨rfl, -⟩ := List.cons_eq_cons.mp htail
      exact absurd rfl hm
    | cons m' l =>
      obtain ⟨rfl, -⟩ := List.cons_eq_cons.mp htail
      exact .inl ⟨l, hbefore⟩

/-- At a wait the first shadow write of a program is done exactly if the events before it are. -/
theorem displayAfter_at_wait {before after done rest : List Micro} {r : Shadow} {v : Byte} (hbefore : keepsDisplay before)
    (h : before ++ .setShadow r v :: after = done ++ .wait :: rest) (d : Display) :
    (eventsLeft done < eventsLeft before ∧ displayAfter done d = d) ∨
    ∃ done', after = done' ++ .wait :: rest ∧ eventsLeft done = eventsLeft before + eventsLeft done'
      ∧ displayAfter done d = displayAfter done' ((Micro.setShadow r v).display d) := by
  obtain ⟨l, rfl⟩ | ⟨done', rfl, hafter⟩ := wait_before_or_after (by simp) h
  · refine .inl ⟨?_, displayAfter_of_keepsDisplay (fun m hm => hbefore m (List.mem_append_left _ hm)) d⟩
    rw [eventsLeft_append, eventsLeft]
    omega
  · exact .inr ⟨done', hafter, by rw [eventsLeft_append, eventsLeft_setShadow],
      displayAfter_setShadow hbefore r v done' d⟩

/-! ### The program of `lcd_init` -/

/-- The 45 events before the first shadow write. -/
def lcdWakeProg (s : State) : List Micro :=
  [.delay s.cfg.tPowerOn]
  ++ pulseProg s 0x3 .cmd ++ [.delay s.cfg.tInit1]
  ++ pulseProg s 0x3 .cmd ++ [.delay s.cfg.tInit2]
  ++ pulseProg s 0x3 .cmd ++ [.delay s.cfg.tInit3]
  ++ pulseProg s 0x2 .cmd ++ [.delay s.cfg.tInit4]

/-- The whole operation, cut at its three shadow writes. -/
theorem lcdInit_steps (s : State) : lcdInitProg s ++ [.release, .ret .unit] =
    lcdWakeProg s ++ .setShadow .fn (functionSetByte s.lcd.lines s.lcd.font) ::
    (commandProg s (functionSetByte s.lcd.lines s.lcd.font) ++ .setShadow .entry 0x06 ::
    (commandProg s 0x06 ++ .setShadow .ctrl 0x0C ::
    (commandProg s 0x0C ++ clearProg s ++ [.release, .ret .unit]))) := by
  simp [lcdInitProg, lcdWakeProg, shadowCommandProg]

theorem waitsAfterLaunches_lcdInit (s : State) : waitsAfterLaunches (lcdInitProg s ++ [.release, .ret .unit]) := by
  simp only [lcdInit_steps, lcdWakeProg, clearProg, commandProg, List.append_assoc, List.cons_append, List.nil_append]
  exact waitsAfterLaunches_delay _ <| waitsAfterLaunches_pulse s _ _ <| waitsAfterLaunches_delay _ <|
    waitsAfterLaunches_pulse s _ _ <| waitsAfterLaunches_delay _ <| waitsAfterLaunches_pulse s _ _ <|
    waitsAfterLaunches_delay _ <| waitsAfterLaunches_pulse s _ _ <| waitsAfterLaunches_delay _ <|
    waitsAfterLaunches_setShadow _ _ <| waitsAfterLaunches_send s _ _ <|
    waitsAfterLaunches_setShadow _ _ <| waitsAfterLaunches_send s _ _ <|
    waitsAfterLaunches_setShadow _ _ <| waitsAfterLaunches_send s _ _ <|
    waitsAfterLaunches_send s _ _ <| waitsAfterLaunches_delay _ waitsAfterLaunches_end

theorem keepsDisplay_lcdWake (s : State) : keepsDisplay (lcdWakeProg s) := by
  have hpart : partOf (.send 0 .cmd) = .driver := rfl
  refine keepsDisplay_of_allTake (s := s) (value := 0) (mode := .cmd) ?_
  simp only [lcdWakeProg, allTake_append, allTake_pulse s s (.inl hpart), and_true]
  simp [mayTake, partOf]

theorem eventsLeft_lcdWake (s : State) : eventsLeft (lcdWakeProg s) = 45 := by
  simp [lcdWakeProg, eventsLeft_pulse, eventsLeft]

theorem eventsLeft_lcdInit (s : State) : eventsLeft (lcdInitProg s ++ [.release, .ret .unit]) = 126 := by
  simp [lcdInit_steps, eventsLeft_lcdWake, clearProg, eventsLeft_command, eventsLeft]

/-- The display's registers after `n` events of `lcd_init`. -/
def lcdInitDisplay (s : State) (n : Nat) : Display :=
  { s.lcd with
    fn := if 45 ≤ n then functionSetByte s.lcd.lines s.lcd.font else s.lcd.fn
    entry := if 65 ≤ n then 0x06 else s.lcd.entry
    ctrl := if 85 ≤ n then 0x0C else s.lcd.ctrl }

theorem keepsDisplay_command (s : State) (v : Byte) : keepsDisplay (commandProg s v) := keepsDisplay_send s v .cmd

/-- What follows the last shadow write. -/
theorem keepsDisplay_lcdInit_end (s : State) :
    keepsDisplay (commandProg s 0x0C ++ clearProg s ++ [.release, .ret .unit]) := by
  have hclear : keepsDisplay (clearProg s) :=
    keepsDisplay_append (keepsDisplay_command s 0x01) (by simp [keepsDisplay, Micro.display])
  exact keepsDisplay_append (keepsDisplay_append (keepsDisplay_command s _) hclear) (keepsDisplay_end .unit)

theorem displayAfter_lcdInit (s : State) :
    displayAfter (lcdInitProg s ++ [.release, .ret .unit]) s.lcd = lcdInitDisplay s 126 := by
  rw [lcdInit_steps, displayAfter_setShadow (keepsDisplay_lcdWake s), displayAfter_setShadow (keepsDisplay_command s _),
    displayAfter_setShadow (keepsDisplay_command s _), displayAfter_of_keepsDisplay (keepsDisplay_lcdInit_end s)]
  rfl

/-- Each of the three writes lies before the wait or behind it, and with it the events before the write. -/
theorem displayAfter_lcdInit_at_wait {s : State} {done rest : List Micro}
    (h : lcdInitProg s ++ [.release, .ret .unit] = done ++ .wait :: rest) :
    displayAfter done s.lcd = lcdInitDisplay s (eventsLeft done) := by
  rw [lcdInit_steps] at h
  obtain ⟨hlt, hd⟩ | ⟨done1, h1, hn1, hd1⟩ := displayAfter_at_wait (keepsDisplay_lcdWake s) h s.lcd
  · rw [eventsLeft_lcdWake] at hlt
    rw [hd, lcdInitDisplay, if_neg (by omega), if_neg (by omega), if_neg (by omega)]
  rw [eventsLeft_lcdWake] at hn1
  obtain ⟨hlt, hd⟩ | ⟨done2, h2, hn2, hd2⟩ := displayAfter_at_wait (keepsDisplay_command s _) h1 (Micro.display _ s.lcd)
  · rw [eventsLeft_command] at hlt
    rw [hd1, hd, lcdInitDisplay, if_pos (by omega), if_neg (by omega), if_neg (by omega)]
    rfl
  rw [eventsLeft_command] at hn2
  obtain ⟨hlt, hd⟩ | ⟨done3, h3, hn3, hd3⟩ := displayAfter_at_wait (keepsDisplay_command s _) h2 (Micro.display _ _)
  · rw [eventsLeft_command] at hlt
    rw [hd1, hd2, hd, lcdInitDisplay, if_pos (by omega), if_pos (by omega), if_neg (by omega)]
    rfl
  rw [eventsLeft_command] at hn3
  have hdone3 : keepsDisplay done3 := fun m hm => keepsDisplay_lcdInit_end s m (h3 ▸ List.mem_append_left _ hm)
  rw [hd1, hd2, hd3, displayAfter_of_keepsDisplay hdone3, lcdInitDisplay, if_pos (by omega), if_pos (by omega),
    if_pos (by omega)]
  rfl

/-! ### The obligation -/

/-- However far `lcd_init` goes on, it has ended or stands at a wait. -/
theorem goOn_lcdInit {s : State} (hp : s.bc.pending = none) (k : Nat) :
    EndedOrWaits (lcdInitProg s ++ [.release, .ret .unit]) (s.hold.withWork .idle)
      (goOn k (run (lcdInitProg s ++ [.release, .ret .unit]) (s.hold.withWork .idle))) :=
  goOn_paired (s := s.hold.withWork .idle) (waitsAfterLaunches_lcdInit s).1 (waitsAfterLaunches_lcdInit s).2 hp k

/-- An `lcd_init` that has ended has emitted all its events and written all three registers. -/
theorem lcdInit_ended {s u : State}
    (h : EndedOrWaits (lcdInitProg s ++ [.release, .ret .unit]) (s.hold.withWork .idle) u) (hu : u.work.todo = []) :
    u.hist.length = s.hist.length + 126 ∧ u.lcd = lcdInitDisplay s 126 := by
  cases h with
  | ended todo events display =>
    exact ⟨by rw [events, eventsLeft_lcdInit]; rfl, display.trans (displayAfter_lcdInit s)⟩
  | waits done rest split todo events display stands =>
    rw [hu] at todo
    nomatch todo

/-- Wherever it is, the events so far say what it has written. -/
theorem lcdInit_shows {s u : State}
    (h : EndedOrWaits (lcdInitProg s ++ [.release, .ret .unit]) (s.hold.withWork .idle) u) :
    ∃ n, u.hist.length = s.hist.length + n ∧ u.lcd = lcdInitDisplay s n := by
  have hended := lcdInit_ended h
  cases h with
  | ended todo events display => exact ⟨126, hended todo⟩
  | waits done rest split todo events display stands =>
    refine ⟨eventsLeft done, ?_, display.trans (displayAfter_lcdInit_at_wait split)⟩
    rw [split, eventsLeft_append, ← Nat.add_assoc] at events
    exact Nat.add_right_cancel events

/-- Settles O42: wherever `lcd_init` ends or waits, the events so far say which shadow writes are done; with the answers
ready it has ended. -/
theorem lcdInitCompletes : Obligations.LcdInitCompletes := by
  refine ⟨fun s hfree hp => ⟨_, driverOp_next _ _ hfree hp, fun k => ?_⟩, fun s hfree hready => ?_⟩
  · obtain ⟨n, hn, hlcd⟩ := lcdInit_shows (goOn_lcdInit hp k)
    refine hlcd.trans ?_
    simp only [hn, Nat.add_le_add_iff_left]
    rfl
  · have hdone := driverOp_lcdInit hfree hready
    have hrun : run (lcdInitProg s ++ [.release, .ret .unit]) (s.hold.withWork .idle) = driverDone afterLcdInit .unit s := by
      rw [driverOp_next _ _ hfree hready.pending] at hdone
      injection hdone
    have hended := goOn_lcdInit hready.pending 0
    rw [hrun] at hended
    exact ⟨hdone, lcdInit_ended hended rfl⟩

end Sys2Proof.Machine
end

section
/-! PROOFS. The operations of the PWM driver (spec/44_pwm.md R240 to R242): `pwm_init` with and without a device that answers,
the packet of `set_channel`, and its refusals. -/

namespace Sys2Proof.Machine

/-! ### A register write from IDLE (spec/30_encoding.md R97, spec/40_bus_controller.md R139) -/

/-- The write frame of `bytes`, its questions from `k` on. -/
def registerFrame (e : Env) (k : Nat) (addr : Addr7) (bytes : List Byte) : List Event :=
  [.start, .tx (addr ++ 0#1) (e.answer (k + 1)).ack] ++ sentBytes e (k + 2) bytes ++ [.stop]

theorem registerFrame_advance (e : Env) (m k : Nat) (addr : Addr7) (bytes : List Byte) :
    registerFrame (e.advance m) k addr bytes = registerFrame e (m + k) addr bytes := by
  simp only [registerFrame, Env.answer_advance, sentBytes_advance, Nat.add_assoc]

theorem afterWriteReg_hist_of_idle (addr : Addr7) (bytes : List Byte) {s : State} (hidle : s.bc.phase = .idle) :
    (afterWriteReg addr bytes s).hist = s.hist ++ registerFrame s.env 0 addr bytes := by
  rw [afterWriteReg_hist, hidle, List.append_assoc, List.append_assoc, registerFrame, List.append_assoc]
  rfl

/-- A driver operation that does nothing but write one register. -/
theorem driverOp_writeReg {s : State} (addr : Addr7) (bytes : List Byte) (hfree : s.sb.held = false)
    (hready : AnswersReady (2 + bytes.length) s) :
    driverOp none (writeRegProg addr bytes) .unit s = .next (driverDone (afterWriteReg addr bytes) .unit s) :=
  driverOp_done hfree hready.pending
    ((run_writeReg addr bytes _ hready.issue).trans (by rw [afterWriteReg_withWork])) (afterWriteReg_pending _ _ _)

/-! ### The check after the ping (R240, 60_exceptions.md R302) -/

@[simp] theorem lastFlag_takeFlag (b : Bool) (s : State) : (s.takeFlag b).work.lastFlag = b := by
  simp [Work.lastFlag]

theorem run_needAck_of_ack {s : State} (rest : List Micro) (hp : s.bc.pending = none) (hack : s.work.lastFlag = true) :
    run (.needAck :: rest) s = run rest s := run_go rest hp (if_pos hack)

/-- Without an acknowledge the operation ends here, with the handle free and the rest of it dropped. -/
theorem run_needAck_of_nack {s : State} (rest : List Micro) (hp : s.bc.pending = none)
    (hnack : s.work.lastFlag = false) : run (.needAck :: rest) s = s.unhold.raise .noConnection :=
  run_over (t := s.unhold.raise .noConnection) rest hp (if_neg (ne_true_of_eq_false hnack))

/-- The handle taken by an operation and freed again is as it was. -/
theorem State.unhold_hold {s : State} (hfree : s.sb.held = false) : s.hold.unhold = s := by
  have hsb : s.sb = { held := false } := congrArg SharedBus.mk hfree
  rw [State.hold, State.unhold, ← hsb]

/-! ### pwm_init (R240) -/

/-- What `pwm_init` does to a device that answered. -/
def pwmSetupProg (s : State) : List Micro :=
  writeRegProg s.pwm.addr [BitVec.ofNat 8 s.cfg.pwmRegMode1, BitVec.ofNat 8 s.cfg.pwmMode1Value]
  ++ writeRegProg s.pwm.addr [BitVec.ofNat 8 s.cfg.pwmRegPrescale, BitVec.ofNat 8 s.cfg.pwmPrescaleValue]

theorem pwmInitProg_append (s : State) (rest : List Micro) :
    pwmInitProg s ++ rest = pingProg s.pwm.addr ++ .needAck :: (pwmSetupProg s ++ rest) := by
  simp [pwmInitProg, pwmSetupProg]

/-- The ping, and what is left of `pwm_init` after it. -/
theorem run_pwmInit_ping {s : State} (rest : List Micro) (hready : AnswersReady 2 s) :
    run (pwmInitProg s ++ rest) s =
      run (.needAck :: (pwmSetupProg s ++ rest)) ((afterPing s.pwm.addr s).takeFlag (s.env.answer 1).ack) := by
  rw [pwmInitProg_append, run_ping _ _ hready]

theorem run_pwmInit_of_ack {s : State} (rest : List Micro) (hack : (s.env.answer 1).ack = true)
    (hready : AnswersReady 10 s) :
    run (pwmInitProg s ++ rest) s = run rest (afterPwmSetup ((afterPing s.pwm.addr s).takeFlag true)) := by
  have hsetup : AnswersReady 8 ((afterPing s.pwm.addr s).takeFlag true) :=
    hready.after 2 rfl (afterPing_env s.pwm.addr s) (by omega)
  rw [run_pwmInit_ping _ (hready.mono (by omega)), hack, run_needAck_of_ack _ rfl (lastFlag_takeFlag _ _),
    pwmSetupProg, List.append_assoc, run_pwmSetup (s := s) _ hsetup rfl rfl]

theorem run_pwmInit_of_nack {s : State} (rest : List Micro) (hnack : (s.env.answer 1).ack = false)
    (hready : AnswersReady 2 s) :
    run (pwmInitProg s ++ rest) s = (afterPing s.pwm.addr s).unhold.raise .noConnection := by
  rw [run_pwmInit_ping _ hready, hnack, run_needAck_of_nack _ rfl (lastFlag_takeFlag _ _)]
  rfl

theorem exec_pwmInit_of_ack {s : State} (hfree : s.sb.held = false) (hack : (s.env.answer 1).ack = true)
    (hready : AnswersReady 10 s) :
    exec .pwmInit s = .next (driverDone (fun t => afterPwmSetup (afterPing s.pwm.addr t)) .unit s) := by
  have hrun : run (pwmInitProg s ++ [.release, .ret .unit]) (s.hold.withWork .idle) =
      run [.release, .ret .unit] (afterPwmSetup ((afterPing s.pwm.addr s.hold).withWork { flags := [true] })) :=
    run_pwmInit_of_ack (s := s.hold.withWork .idle) _ hack hready.issue
  rw [afterPwmSetup_withWork] at hrun
  exact driverOp_done (f := fun t => afterPwmSetup (afterPing s.pwm.addr t)) hfree hready.pending hrun
    (afterWriteReg_pending _ _ _)

theorem exec_pwmInit_of_nack {s : State} (hfree : s.sb.held = false) (hnack : (s.env.answer 1).ack = false)
    (hready : AnswersReady 2 s) : exec .pwmInit s = .next ((afterPing s.pwm.addr s).raise .noConnection) := by
  have hissue : exec .pwmInit s = .next (run (pwmInitProg s ++ [.release, .ret .unit]) (s.hold.withWork .idle)) :=
    driverOp_next _ _ hfree hready.pending
  have hrun : run (pwmInitProg s ++ [.release, .ret .unit]) (s.hold.withWork .idle) =
      (afterPing s.pwm.addr s.hold.unhold).raise .noConnection :=
    run_pwmInit_of_nack (s := s.hold.withWork .idle) _ hnack hready.issue
  rw [hissue, hrun, State.unhold_hold hfree]

theorem afterPwmSetup_hist {s : State} (hidle : s.bc.phase = .idle) :
    (afterPwmSetup s).hist = s.hist
      ++ registerFrame s.env 0 s.pwm.addr [BitVec.ofNat 8 s.cfg.pwmRegMode1, BitVec.ofNat 8 s.cfg.pwmMode1Value]
      ++ registerFrame s.env 4 s.pwm.addr [BitVec.ofNat 8 s.cfg.pwmRegPrescale, BitVec.ofNat 8 s.cfg.pwmPrescaleValue] := by
  rw [afterPwmSetup, afterWriteReg_hist_of_idle _ _ rfl, afterWriteReg_hist_of_idle _ _ hidle, afterWriteReg_env,
    registerFrame_advance]
  rfl

/-- Settles O47: the acknowledge of the ping's address byte decides between the two register writes and `NoConnection`. -/
theorem pwmInitCompletes : Obligations.PwmInitCompletes := by
  refine fun s hfree => ⟨fun hack hready => ⟨exec_pwmInit_of_ack hfree hack hready, fun hidle => ?_⟩,
    fun hnack hready => ?_⟩
  · have hping : (afterPing s.pwm.addr s.hold).hist = s.hist ++ [.start, .tx (s.pwm.addr ++ 0#1) true, .stop] := by
      rw [afterPing_hist, State.hold_bc, State.hold_env, hidle, hack]
      rfl
    have hframes := afterPwmSetup_hist (s := afterPing s.pwm.addr s.hold) rfl
    rw [hping, afterPing_env, registerFrame_advance, registerFrame_advance] at hframes
    refine hframes.trans ?_
    simp only [registerFrame, List.append_assoc]
    rfl
  · rw [exec_pwmInit_of_nack hfree hnack hready, afterPing_eq, hnack]
    rfl

/-! ### set_channel (R241, R242) -/

/-- A counter of 12 bits is its low byte and the four bits above (20_memory.md R68). -/
theorem counterBytes_eq {v : Half} (hv : v.toNat ≤ 0xFFF) :
    counterBytes v = [BitVec.ofNat 8 (v.toNat % 256), BitVec.ofNat 8 (v.toNat / 256)] := by
  have hlow : v.extractLsb' 0 8 = BitVec.ofNat 8 (v.toNat % 256) := by
    apply BitVec.eq_of_toNat_eq
    rw [BitVec.extractLsb'_toNat, BitVec.toNat_ofNat, Nat.shiftRight_zero, Nat.mod_mod]
  have hhigh : (v.extractLsb' 8 4).setWidth 8 = BitVec.ofNat 8 (v.toNat / 256) := by
    apply BitVec.eq_of_toNat_eq
    rw [BitVec.toNat_setWidth, BitVec.extractLsb'_toNat, BitVec.toNat_ofNat, Nat.shiftRight_eq_div_pow]
    omega
  rw [counterBytes, hlow, hhigh]

theorem channelPacket_eq (base : Nat) (channel : Byte) {on off : Half} (hon : on.toNat ≤ 0xFFF) (hoff : off.toNat ≤ 0xFFF) :
    channelPacket base channel on off =
      [BitVec.ofNat 8 (base + 4 * channel.toNat), BitVec.ofNat 8 (on.toNat % 256), BitVec.ofNat 8 (on.toNat / 256),
        BitVec.ofNat 8 (off.toNat % 256), BitVec.ofNat 8 (off.toNat / 256)] := by
  rw [channelPacket, channelRegister, counterBytes_eq hon, counterBytes_eq hoff]
  rfl

/-- On a free handle `set_channel` is decided by its check. -/
theorem exec_setChannel_of_check {s : State} {channel : Byte} {on off : Half} {r : Refusal} (hfree : s.sb.held = false)
    (hcheck : setChannelCheck channel on off = some r) : exec (.setChannel channel on off) s = .refused r := by
  have hexec : exec (.setChannel channel on off) s = driverOp (setChannelCheck channel on off)
      (writeRegProg s.pwm.addr (channelPacket s.cfg.pwmLed0Base channel on off)) .unit s := rfl
  rw [hexec, hcheck, driverOp_of_check _ _ hfree]

/-- Settles O48: with admitted operands the operation is one register write, of the packet in numbers. -/
theorem setChannelCompletes : Obligations.SetChannelCompletes := by
  intro s channel on off hfree hchannel hon hoff hready packet
  have hpacket : channelPacket s.cfg.pwmLed0Base channel on off = packet := channelPacket_eq _ channel hon hoff
  have hexec : exec (.setChannel channel on off) s = driverOp none (writeRegProg s.pwm.addr packet) .unit s := by
    rw [← setChannelCheck_none hchannel hon hoff, ← hpacket]
    rfl
  refine ⟨hexec.trans (driverOp_writeReg _ packet hfree hready), fun hidle => ?_⟩
  refine (afterWriteReg_hist_of_idle (s := s.hold) s.pwm.addr packet hidle).trans ?_
  simp only [registerFrame, List.append_assoc]
  rfl

/-! ### The refusals of set_channel (R241) -/

theorem setChannelCheck_of_channel {channel : Byte} (on off : Half) (h : 15 < channel.toNat) :
    setChannelCheck channel on off = some .channelRange := by
  have hchannel : channelAdmitted channel = false := decide_eq_false (by omega)
  rw [setChannelCheck, hchannel]
  rfl

theorem setChannelCheck_of_counter {channel : Byte} {on off : Half} (hle : channel.toNat ≤ 15)
    (h : 0xFFF < on.toNat ∨ 0xFFF < off.toNat) : setChannelCheck channel on off = some .counterRange := by
  have hchannel : channelAdmitted channel = true := decide_eq_true (by omega)
  have hcounter : counterAdmitted on = false ∨ counterAdmitted off = false :=
    h.imp (fun hon => decide_eq_false (by omega)) (fun hoff => decide_eq_false (by omega))
  rw [setChannelCheck, if_neg (by simp [hchannel]), if_pos (by simpa using hcounter)]

/-- Settles O49: the channel is looked at before the counters. -/
theorem setChannelRefusals : Obligations.SetChannelRefusals := fun _ _ on off hfree =>
  ⟨fun h => exec_setChannel_of_check hfree (setChannelCheck_of_channel on off h),
    fun hchannel h => exec_setChannel_of_check hfree (setChannelCheck_of_counter hchannel h)⟩

end Sys2Proof.Machine
end

section
/-! PROOFS. The load-cell operations that run to their end in one step when no bus action is pending (spec/45_loadcell.md R260,
R261, R264, R265, R270 to R273): the pins, the gain code, a byte shifted in, and a read. -/

namespace Sys2Proof.Machine

/-! ### From a program's run to its operation (spec/41_shared_bus.md R173) -/

/-- An operation of the load cell ends in `t` once its program, run from nothing taken, comes to `t` with the values `w`
taken. -/
theorem pinOp_done {s t : State} {prog : List Micro} {ret : Ret} {w : Work} (hp : s.bc.pending = none)
    (hrun : run (prog ++ [.ret ret]) (s.withWork .idle) = run [.ret ret] (t.withWork w))
    (ht : t.bc.pending = none) : pinOp prog ret s = .next (t.finish ((t.withWork w).result ret)) := by
  rw [pinOp_next prog ret hp, hrun, run_ret (s := t.withWork w) ret ht, State.finish_withWork]

/-- The same for a program of one primitive step. -/
theorem pinOp_one {s t : State} {m : Micro} {ret : Ret} {w : Work} (hp : s.bc.pending = none)
    (hm : stepMicro m (s.withWork .idle) = .go (t.withWork w)) (ht : t.bc.pending = none) :
    pinOp [m] ret s = .next (t.finish ((t.withWork w).result ret)) :=
  pinOp_done hp (run_goWith [.ret ret] hp hm) ht

/-! ### clk, is_ready, power_down, power_up, lc_pulse (R260, R261, R270, R271, R273) -/

theorem exec_clk {s : State} (l : Bit) (hp : s.bc.pending = none) :
    exec (.clk l) s = .next ((s.driveClk l).finish .unit) :=
  pinOp_one (m := .clk l) (ret := .unit) (w := .idle) hp rfl hp

theorem exec_isReady {s : State} (hp : s.bc.pending = none) :
    exec .isReady s = .next (s.sampled.finish (.bool (!s.level))) :=
  pinOp_one (m := .takeReady) (ret := .lastFlag) (w := { flags := [!s.level] }) hp rfl hp

/-- A drive of the clock and a write of the phase: `power_down` and `power_up`. -/
theorem pinOp_clk_lcPhase {s : State} (l : Bit) (p : LcPhase) (hp : s.bc.pending = none) :
    pinOp [.clk l, .lcPhase p] .unit s = .next (({ s.driveClk l with lc.phase := p } : State).finish .unit) :=
  pinOp_done (w := .idle) (t := { s.driveClk l with lc.phase := p }) hp
    ((run_goWith (t := s) (u := s.driveClk l) (v := .idle) _ hp rfl).trans
      (run_goWith (t := s.driveClk l) (u := { s.driveClk l with lc.phase := p }) _ hp rfl)) hp

theorem exec_lcPulse {s : State} (hp : s.bc.pending = none) :
    exec .lcPulse s = .next ((afterLcPulse s).finish .unit) :=
  pinOp_done hp (run_lcPulse .idle [.ret .unit] hp rfl) hp

theorem afterLcPulse_eq (s : State) :
    afterLcPulse s = { s with hist := s.hist ++ pulseGroup s.cfg, lc.clk := false } := by
  have hhist : (afterLcPulse s).hist = s.hist ++ pulseGroup s.cfg := by simp [afterLcPulse, pulseGroup]
  rw [← hhist]
  rfl

/-- Settles O50: each program is one or two pin steps, or one pulse. -/
theorem pinOperationsComplete : Obligations.PinOperationsComplete := by
  refine fun s hp => ⟨fun l => exec_clk l hp, exec_isReady hp, pinOp_clk_lcPhase true .poweredDown hp,
    pinOp_clk_lcPhase false .idle hp, ?_⟩
  rw [exec_lcPulse hp, afterLcPulse_eq]
  rfl

/-! ### set_gain (R272) -/

theorem gainCode_eq (gain : Byte) (old : Nat) :
    gainCode gain old = if gain.toNat = 128 then 1 else if gain.toNat = 64 then 3 else if gain.toNat = 32 then 2 else old := by
  simp only [gainCode, BitVec.toNat_eq]
  rfl

/-- Settles O51: the operation writes the code of `gainCode` and runs no primitive step. -/
theorem setGainCompletes : Obligations.SetGainCompletes := by
  intro s gain
  rw [← gainCode_eq]
  rfl

/-! ### shift_in_byte (R265) -/

/-- A bit-pair ends with the clock low, and the last one leaves its number in the phase. -/
theorem afterShift_lc (base n : Nat) (s : State) :
    (afterShift base (n + 1) s).lc = { s.lc with clk := false, phase := .shifting (base + n) } := by
  have hlast (n : Nat) : (afterShift base (n + 1) s).lc =
      { (afterShift base n s).lc with clk := false, phase := .shifting (base + n) } := by
    rw [afterShift_succ]
    rfl
  induction n with
  | zero => exact hlast 0
  | succ n ih => rw [hlast, ih]

theorem afterShift_eq (base n : Nat) (s : State) :
    afterShift base (n + 1) s = { s with
      hist := s.hist ++ (levelsAt s.env 0 (n + 1)).flatMap (bitGroup s.cfg)
      lc := { s.lc with clk := false, phase := .shifting (base + n) }, env := s.env.advance (n + 1) } := by
  rw [onlyPins_afterShift base (n + 1) s, afterShift_hist, afterShift_lc, afterShift_env]

theorem exec_shiftInByte {s : State} (base : ShiftBase) (hp : s.bc.pending = none) :
    exec (.shiftInByte base) s =
      .next ((afterShift base.toNat 8 s).finish (.byte (byteOfBits (levelsAt s.env 0 8)))) :=
  pinOp_done (w := { bytes := [byteOfBits (levelsAt s.env 0 8)] }) hp (run_shift base.toNat .idle _ hp rfl rfl)
    (by rw [(onlyPins_afterShift _ _ _).bc]; exact hp)

theorem bitsNat_cons (b : Bit) (l : List Bit) : bitsNat (b :: l) = 2 ^ l.length * b.toNat + bitsNat l := by
  rw [bitsNat, List.foldl_cons, bitsNat_foldl, Nat.mul_zero, Nat.zero_add, Nat.mul_comm]

/-- The number of bits holds each of them, the last at place 0. -/
theorem testBit_bitsNat (l : List Bit) (j : Nat) (hj : j < l.length) :
    (bitsNat l).testBit (l.length - 1 - j) = l[j] := by
  induction l generalizing j with
  | nil => nomatch hj
  | cons b l ih =>
    rw [bitsNat_cons, Nat.testBit_two_pow_mul_add _ (bitsNat_lt l)]
    cases j with
    | zero => cases b <;> simp
    | succ j =>
      have hj' : j < l.length := by simpa using hj
      have hplace : (b :: l).length - 1 - (j + 1) = l.length - 1 - j := by
        rw [List.length_cons]
        omega
      rw [hplace, if_pos (by omega), ih j hj', List.getElem_cons_succ]

theorem getLsbD_byteOfBits {l : List Bit} (h : l.length = 8) (j : Nat) (hj : j < l.length) :
    (byteOfBits l).getLsbD (7 - j) = l[j] := by
  rw [BitVec.getLsbD, byteOfBits_toNat h, ← testBit_bitsNat l j hj, h]

theorem getElem_levelsAt (e : Env) (k n j : Nat) (hj : j < (levelsAt e k n).length) :
    (levelsAt e k n)[j] = (e.answer (k + j)).level := by
  simp [levelsAt]

/-- Settles O54: the program comes to `afterShift`, with the bits sampled in one byte. -/
theorem shiftInByteCompletes : Obligations.ShiftInByteCompletes := by
  refine fun s base hp => ⟨byteOfBits (levelsAt s.env 0 8), fun j hj => ?_, ?_⟩
  · rw [getLsbD_byteOfBits (length_levelsAt s.env 0 8) j (by simpa using hj), getElem_levelsAt, Nat.zero_add]
  rw [exec_shiftInByte base hp, afterShift_eq]
  rfl

/-! ### read (R264) -/

/-- The bits and trailing pulses of a read, after its poll. -/
def afterReadBits (s : State) : State := { afterGainPulses s.lc.gain (afterShift 0 24 s) with lc.phase := .idle }

theorem afterRead_eq_afterReadBits (s : State) : afterRead s = afterReadBits s.sampled := rfl

theorem onlyPins_afterReadBits (s : State) : OnlyPins s (afterReadBits s) :=
  (onlyPins_afterShift 0 24 s).trans ((onlyPins_afterGainPulses _ _).trans rfl)

/-- A trailing pulse starts and ends with the clock low. -/
theorem afterGainPulses_clk (n : Nat) {s : State} (hclk : s.lc.clk = false) : (afterGainPulses n s).lc.clk = false := by
  cases n with
  | zero => exact hclk
  | succ n =>
    rw [afterGainPulses_succ]
    rfl

theorem afterReadBits_lc (s : State) : (afterReadBits s).lc = { s.lc with clk := false, phase := .idle } := by
  have hclk : (afterGainPulses s.lc.gain (afterShift 0 24 s)).lc.clk = false :=
    afterGainPulses_clk _ (by rw [afterShift_lc 0 23])
  have hgain : (afterGainPulses s.lc.gain (afterShift 0 24 s)).lc.gain = s.lc.gain := by
    rw [afterGainPulses_gain, afterShift_gain]
  obtain ⟨hoffset, hscale⟩ := afterGainPulses_offset s.lc.gain (afterShift 0 24 s)
  obtain ⟨hoffset', hscale'⟩ := afterShift_offset 0 24 s
  simp only [afterReadBits, hclk, hgain, hoffset, hscale, hoffset', hscale']

theorem afterReadBits_hist (s : State) :
    (afterReadBits s).hist = s.hist ++ (levelsAt s.env 0 24).flatMap (bitGroup s.cfg)
      ++ (List.replicate s.lc.gain (pulseGroup s.cfg)).flatten := by
  have hpulses : (afterReadBits s).hist = (afterGainPulses s.lc.gain (afterShift 0 24 s)).hist := rfl
  rw [hpulses, afterGainPulses_hist, afterShift_hist, (onlyPins_afterShift 0 24 s).cfg]

theorem afterReadBits_env (s : State) : (afterReadBits s).env = s.env.advance 24 := by
  have hpulses : (afterReadBits s).env = (afterGainPulses s.lc.gain (afterShift 0 24 s)).env := rfl
  rw [hpulses, afterGainPulses_env, afterShift_env]

theorem afterReadBits_eq (s : State) :
    afterReadBits s = { s with
      hist := s.hist ++ (levelsAt s.env 0 24).flatMap (bitGroup s.cfg)
        ++ (List.replicate s.lc.gain (pulseGroup s.cfg)).flatten
      lc := { s.lc with clk := false, phase := .idle }, env := s.env.advance 24 } := by
  rw [onlyPins_afterReadBits s, afterReadBits_hist, afterReadBits_lc, afterReadBits_env]

/-- The sample as a signed number (30_encoding.md R112, R114). -/
theorem readValue_toInt (e : Env) (k : Nat) :
    (readValue e k).toInt = if rawNumber (levelsAt e (k + 1) 24) < 2 ^ 23 then (rawNumber (levelsAt e (k + 1) 24) : Int)
      else (rawNumber (levelsAt e (k + 1) 24) : Int) - 2 ^ 24 := by
  have hraw : rawNumber (levelsAt e (k + 1) 24) = bitsNat (levelsAt e (k + 1) 24) := rfl
  have hlt : bitsNat (levelsAt e (k + 1) 24) < 2 ^ 24 := by simpa using bitsNat_lt (levelsAt e (k + 1) 24)
  rw [hraw, readValue, BitVec.toInt_signExtend_of_le (by omega), BitVec.toInt_eq_toNat_cond, shiftBits_toNat,
    show BitVec.toNat (0 : BitVec 24) = 0 from rfl, Nat.zero_mul, Nat.zero_add, Nat.mod_eq_of_lt hlt]
  split <;> split <;> omega

theorem execRead_of_phase {s : State} (hphase : s.lc.phase ≠ .poweredDown) :
    exec .read s = pinOp (readProg s) .lastSample s := if_neg hphase

theorem exec_read {s : State} (hphase : s.lc.phase ≠ .poweredDown) (hp : s.bc.pending = none)
    (hlow : (s.env.answer 0).level = false) :
    exec .read s = .next ((afterRead s).finish (.i32 (readValue s.env 0))) := by
  rw [execRead_of_phase hphase]
  exact pinOp_done (w := { samples := [readValue s.env 0] }) hp (run_read [] _ hp rfl rfl hlow)
    (by rw [(onlyPins_afterRead s).bc]; exact hp)

/-- Settles O55: the program comes to `afterRead`, the poll and then the bits and pulses, with the sample of the bits. -/
theorem readCompletes : Obligations.ReadCompletes := by
  refine fun s hphase hp hlow => ⟨readValue s.env 0, readValue_toInt s.env 0, ?_⟩
  have hsampled : s.sampled = { s with hist := s.hist ++ [.dout false], env := s.env.advance 1 } := by
    rw [← hlow]
    rfl
  rw [exec_read hphase hp hlow, afterRead_eq_afterReadBits, afterReadBits_eq, hsampled]
  simp only [levelsAt_advance, Env.advance_advance]
  rfl

end Sys2Proof.Machine
end

section
/-! PROOFS. The polls of the load cell (spec/45_loadcell.md R262, R263): `wait_ready` and a read poll one step at a time, and
`wait_ready_retry` a bounded number of times in one step. -/

namespace Sys2Proof.Machine

/-! ### Polls that find the line high -/

theorem afterBusyPolls_succ (k ns : Nat) (s : State) :
    afterBusyPolls (k + 1) ns s = (afterBusyPolls k ns s).sampled.delay ns :=
  Function.iterate_succ_apply' (fun t : State => t.sampled.delay ns) k s

/-- Each of these polls is a sample of the high level and a delay, and asks the oracle once. -/
theorem afterBusyPolls_eq {k ns : Nat} {s : State} (hhigh : ∀ j, j < k → (s.env.answer j).level = true) :
    afterBusyPolls k ns s = { s with
      hist := s.hist ++ (List.replicate k [.dout true, .delay ns]).flatten, env := s.env.advance k } := by
  induction k with
  | zero => simp [afterBusyPolls]
  | succ k ih =>
    have hlevel : (s.env.answer k).level = true := hhigh k (by omega)
    rw [afterBusyPolls_succ, ih fun j hj => hhigh j (by omega), List.replicate_succ', List.flatten_append]
    simp [State.sampled, State.asked, State.delay, State.emit, State.level, hlevel]

theorem level_afterBusyPolls {k ns : Nat} {s : State} (hhigh : ∀ j, j < k → (s.env.answer j).level = true) :
    (afterBusyPolls k ns s).level = (s.env.answer k).level := by
  rw [afterBusyPolls_eq hhigh, State.level, Env.answer_advance, Nat.add_zero]

theorem afterBusyPolls_bc (k ns : Nat) (s : State) : (afterBusyPolls k ns s).bc = s.bc := by
  induction k with
  | zero => rfl
  | succ k ih => rw [afterBusyPolls_succ, State.delay_bc, State.sampled_bc, ih]

theorem afterBusyPolls_refused (k ns : Nat) (s : State) : (afterBusyPolls k ns s).refused = s.refused := by
  induction k with
  | zero => rfl
  | succ k ih => rw [afterBusyPolls_succ, State.delay_refused, State.sampled_refused, ih]

/-- The poll that finds the line low, after those that find it high. -/
theorem sampled_afterBusyPolls {k ns : Nat} {s : State} (hhigh : ∀ j, j < k → (s.env.answer j).level = true)
    (hlow : (s.env.answer k).level = false) :
    (afterBusyPolls k ns s).sampled = { s with
      hist := s.hist ++ (List.replicate k [.dout true, .delay ns]).flatten ++ [.dout false]
      env := s.env.advance (k + 1) } := by
  rw [State.sampled, level_afterBusyPolls hhigh, hlow, afterBusyPolls_eq hhigh, State.asked, Env.advance_advance]
  rfl

/-! ### A poll that holds (R262) -/

theorem run_pollReady_low {t : State} {ns : Nat} {w : Work} (rest : List Micro) (hp : t.bc.pending = none)
    (hlow : t.level = false) : run (.pollReady ns :: rest) (t.withWork w) = run rest (t.sampled.withWork w) := by
  have hlevel : (t.withWork w).level = false := hlow
  refine run_goWith rest hp ?_
  rw [stepMicro, if_neg (ne_true_of_eq_false hlevel)]
  rfl

theorem run_pollReady_high {t : State} {ns : Nat} (todo : List Micro) (rest : List Micro) (hp : t.bc.pending = none)
    (hhigh : t.level = true) :
    run (.pollReady ns :: rest) (t.withWork { todo := todo }) =
      (t.sampled.delay ns).withWork { todo := .pollReady ns :: rest } := by
  have hlevel : (t.withWork { todo := todo }).level = true := hhigh
  rw [run_hold (s := t.withWork { todo := todo }) rest hp (by rw [stepMicro, if_pos hlevel])]
  rfl

/-- By induction on the polls that find the line high: each ends a step in which the operation holds, and the next step
starts with the next poll. -/
theorem runSteps_polls {k ns : Nat} {rest : List Micro} {s t : State} (hr : t.refused = false) (hp : t.bc.pending = none)
    (hfirst : step s = .next (run (.pollReady ns :: rest) (t.withWork .idle)))
    (hhigh : ∀ j, j < k → (t.env.answer j).level = true) :
    ∃ todo : List Micro, runSteps (k + 1) s =
      .next (run (.pollReady ns :: rest) ((afterBusyPolls k ns t).withWork { todo := todo })) := by
  induction k with
  | zero => exact ⟨[], runSteps_succ hfirst⟩
  | succ k ih =>
    obtain ⟨todo, hrun⟩ := ih fun j hj => hhigh j (by omega)
    have hlevel : (afterBusyPolls k ns t).level = true := by
      rw [level_afterBusyPolls fun j hj => hhigh j (by omega)]
      exact hhigh k (by omega)
    rw [run_pollReady_high todo rest (by rw [afterBusyPolls_bc]; exact hp) hlevel, ← afterBusyPolls_succ] at hrun
    refine ⟨.pollReady ns :: rest, (runSteps_snoc hrun).trans (step_held ?_ rfl nofun)⟩
    exact (afterBusyPolls_refused (k + 1) ns t).trans hr

/-- An operation of the load cell issued by a step in which nothing else happens. -/
theorem step_issue_pinOp {s : State} {i : Instr} {prog : List Micro} {ret : Ret} (hr : s.refused = false)
    (hp : s.bc.pending = none) (hw : s.work = .idle) (hc : s.cmds = encode i)
    (hexec : exec i { s with cmds := [] } = pinOp prog ret { s with cmds := [] }) :
    step s = .next (run (prog ++ [.ret ret]) (({ s with cmds := [] } : State).withWork .idle)) := by
  have hdecode : decode s.cmds = .ok (i, []) := by rw [hc, ← List.append_nil (encode i), decodeOfEncode]
  rw [step_issue hr (by rw [hw]; rfl) hdecode, State.tick_of_idle_bus hp, hexec]
  exact pinOp_next prog ret hp

/-- The step of the last poll goes on with what follows it. -/
theorem runSteps_polls_low {k ns : Nat} {rest : List Micro} {s t : State} (hr : t.refused = false)
    (hp : t.bc.pending = none) (hfirst : step s = .next (run (.pollReady ns :: rest) (t.withWork .idle)))
    (hhigh : ∀ j, j < k → (t.env.answer j).level = true) (hlow : (t.env.answer k).level = false) :
    ∃ todo : List Micro,
      runSteps (k + 1) s = .next (run rest ((afterBusyPolls k ns t).sampled.withWork { todo := todo })) := by
  obtain ⟨todo, hrun⟩ := runSteps_polls hr hp hfirst hhigh
  rw [run_pollReady_low rest (by rw [afterBusyPolls_bc]; exact hp) (by rw [level_afterBusyPolls hhigh, hlow])] at hrun
  exact ⟨todo, hrun⟩

/-! ### wait_ready (R262) -/

theorem exec_waitReady {s : State} (delayMs : Word) (hp : s.bc.pending = none) (hlow : s.level = false) :
    exec (.waitReady delayMs) s = .next (s.sampled.finish .unit) :=
  pinOp_done (prog := [.pollReady (msToNs delayMs.toNat)]) (w := .idle) hp (run_pollReady_low _ hp hlow) hp

/-- Issued into `t`, the operation ends with the poll that finds the line low. -/
theorem runSteps_waitReady {k ns : Nat} {s t : State} (hr : t.refused = false) (hp : t.bc.pending = none)
    (hissue : step s = .next (run [.pollReady ns, .ret .unit] (t.withWork .idle)))
    (hhigh : ∀ j, j < k → (t.env.answer j).level = true) (hlow : (t.env.answer k).level = false) :
    runSteps (k + 1) s = .next ((afterBusyPolls k ns t).sampled.finish .unit) := by
  obtain ⟨todo, hrun⟩ := runSteps_polls_low hr hp hissue hhigh hlow
  have hpending : ((afterBusyPolls k ns t).sampled.withWork { todo := todo }).bc.pending = none :=
    (congrArg BusController.pending (afterBusyPolls_bc k ns t)).trans hp
  rw [hrun, run_ret .unit hpending]
  rfl

/-- Settles O52: a first poll that finds the line low ends the operation, and so does the one after the polls that find it
high. -/
theorem waitReadyPollsUntilReady : Obligations.WaitReadyPollsUntilReady := by
  refine ⟨fun s delayMs hp hlow => ?_, fun k s delayMs hr hp hw hc hhigh hlow => ?_⟩
  · rw [exec_waitReady delayMs hp hlow, State.sampled, show s.level = false from hlow]
    rfl
  · let t : State := { s with cmds := [] }
    have hissue : step s = .next (run [.pollReady (msToNs delayMs.toNat), .ret .unit] (t.withWork .idle)) :=
      step_issue_pinOp (i := .waitReady delayMs) (prog := [.pollReady (msToNs delayMs.toNat)]) hr hp hw hc rfl
    rw [runSteps_waitReady (t := t) hr hp hissue hhigh hlow, sampled_afterBusyPolls (s := t) hhigh hlow, State.finish, ← hw]
    rfl

/-! ### A read that polls (R262, R264) -/

theorem sampleOf_levels_sampled (s : State) :
    sampleOf [byteOfBits (levelsAt s.sampled.env 0 8), byteOfBits (levelsAt s.sampled.env 8 8),
      byteOfBits (levelsAt s.sampled.env 16 8)] = readValue s.env 0 := by
  rw [← sampleOf_levels, State.sampled_env, levelsAt_advance, levelsAt_advance, levelsAt_advance]

/-- Issued into `t`, the read goes on with its bits after the poll that finds the line low, and returns the sample of a
read that polls only then. -/
theorem runSteps_read {k : Nat} {s t : State} (hr : t.refused = false) (hp : t.bc.pending = none)
    (hissue : step s = .next (run (readProg t ++ [.ret .lastSample]) (t.withWork .idle)))
    (hhigh : ∀ j, j < k → (t.env.answer j).level = true) (hlow : (t.env.answer k).level = false) :
    runSteps (k + 1) s =
      .next ((afterReadBits (afterBusyPolls k (msToNs t.cfg.tReadyPoll) t).sampled).finish (.i32 (readValue t.env k))) := by
  let u : State := afterBusyPolls k (msToNs t.cfg.tReadyPoll) t
  have hu : u = { t with
      hist := t.hist ++ (List.replicate k [.dout true, .delay (msToNs t.cfg.tReadyPoll)]).flatten
      env := t.env.advance k } := afterBusyPolls_eq hhigh
  have hpu : u.bc.pending = none := by rw [hu]; exact hp
  have hvalue : readValue u.env 0 = readValue t.env k := by rw [hu, readValue_advance, Nat.add_zero]
  simp only [readProg, List.append_assoc, List.cons_append, List.nil_append] at hissue
  obtain ⟨todo, hrun⟩ := runSteps_polls_low hr hp hissue hhigh hlow
  rw [hrun, run_readBits (s := t) (t := u.sampled) todo [] [.ret .lastSample] hpu (by rw [hu]; rfl) (by rw [hu]; rfl),
    sampleOf_levels_sampled, hvalue, run_ret (s := State.withWork _ _) .lastSample ?_]
  · rfl
  · exact (congrArg BusController.pending (onlyPins_afterReadBits u.sampled).bc).trans hpu

/-- Settles O56: `runSteps_read`, with its state written out. -/
theorem readPollsUntilReady : Obligations.ReadPollsUntilReady := by
  intro k s hr hphase hp hw hc hhigh hlow
  let t : State := { s with cmds := [] }
  have hissue : step s = .next (run (readProg t ++ [.ret .lastSample]) (t.withWork .idle)) :=
    step_issue_pinOp (i := .read) hr hp hw hc (execRead_of_phase (s := t) hphase)
  rw [runSteps_read (t := t) hr hp hissue hhigh hlow, sampled_afterBusyPolls (s := t) hhigh hlow, afterReadBits_eq,
    State.finish, ← hw]
  simp only [levelsAt_advance, Env.advance_advance]
  rfl

/-! ### wait_ready_retry (R263) -/

theorem pollRetry_busy {k n ns : Nat} {s : State} (hp : s.bc.pending = none)
    (hhigh : ∀ j, j < k → (s.env.answer j).level = true) :
    pollRetry (k + n) ns s = pollRetry n ns (afterBusyPolls k ns s) := by
  induction k generalizing n with
  | zero => rw [Nat.zero_add]; rfl
  | succ k ih =>
    have hlevel : (afterBusyPolls k ns s).level = true := by
      rw [level_afterBusyPolls fun j hj => hhigh j (by omega)]
      exact hhigh k (by omega)
    have hpending : (afterBusyPolls (k + 1) ns s).bc.pending = none := by rw [afterBusyPolls_bc]; exact hp
    rw [Nat.add_right_comm, Nat.add_assoc, ih fun j hj => hhigh j (by omega), pollRetry, if_pos hlevel,
      ← afterBusyPolls_succ, State.tick_of_idle_bus hpending]

theorem pollRetry_of_low {k n ns : Nat} {s : State} (hp : s.bc.pending = none) (hk : k < n)
    (hhigh : ∀ j, j < k → (s.env.answer j).level = true) (hlow : (s.env.answer k).level = false) :
    pollRetry n ns s = (afterBusyPolls k ns s).sampled.takeFlag true := by
  obtain ⟨m, rfl⟩ : ∃ m, n = k + (m + 1) := ⟨n - k - 1, by omega⟩
  rw [pollRetry_busy hp hhigh, pollRetry, if_neg (by rw [level_afterBusyPolls hhigh, hlow]; nofun)]

theorem pollRetry_of_high {n ns : Nat} {s : State} (hp : s.bc.pending = none)
    (hhigh : ∀ j, j < n → (s.env.answer j).level = true) :
    pollRetry n ns s = (afterBusyPolls n ns s).takeFlag false :=
  pollRetry_busy (n := 0) hp hhigh

theorem afterBusyPolls_withWork (k ns : Nat) (w : Work) (s : State) :
    afterBusyPolls k ns (s.withWork w) = (afterBusyPolls k ns s).withWork w := by
  induction k with
  | zero => rfl
  | succ k ih =>
    rw [afterBusyPolls_succ, afterBusyPolls_succ, ih]
    rfl

/-- The operation returns the flag its polls take. -/
theorem exec_waitReadyRetry {s t : State} {retries delayMs : Word} {ready : Bool} (hp : s.bc.pending = none)
    (hpoll : pollRetry retries.toNat (msToNs delayMs.toNat) (s.withWork .idle) = (t.withWork .idle).takeFlag ready)
    (ht : t.bc.pending = none) : exec (.waitReadyRetry retries delayMs) s = .next (t.finish (.bool ready)) :=
  pinOp_one (m := .pollRetry retries.toNat (msToNs delayMs.toNat)) (ret := .lastFlag) (w := { flags := [ready] }) hp
    (congrArg Progress.go hpoll) ht

/-- Settles O53: the polls below the first low one, or all of them, are `afterBusyPolls`. -/
theorem waitReadyRetryCompletes : Obligations.WaitReadyRetryCompletes := by
  intro s retries delayMs hp
  have hpending (k ns : Nat) : (afterBusyPolls k ns s).bc.pending = none := by rw [afterBusyPolls_bc]; exact hp
  refine ⟨fun k hk hhigh hlow => ?_, fun hhigh => ?_⟩
  · have hpoll := pollRetry_of_low (ns := msToNs delayMs.toNat) (s := s.withWork .idle) hp hk hhigh hlow
    rw [afterBusyPolls_withWork] at hpoll
    rw [exec_waitReadyRetry (t := (afterBusyPolls k _ s).sampled) hp hpoll (hpending k _), sampled_afterBusyPolls hhigh hlow]
    rfl
  · have hpoll := pollRetry_of_high (ns := msToNs delayMs.toNat) (s := s.withWork .idle) hp hhigh
    rw [afterBusyPolls_withWork] at hpoll
    rw [exec_waitReadyRetry hp hpoll (hpending _ _), afterBusyPolls_eq hhigh]
    rfl

end Sys2Proof.Machine
end

section
/-! PROOFS. The operations built on consecutive reads (spec/45_loadcell.md R266 to R269): their exact results when every read
finds the line low, and the refusals they share with `read` (R264). -/

namespace Sys2Proof.Machine

/-! ### Refusals (R264, R266, log 18) -/

theorem countAdmitted_of_ne {count : Byte} (h : count.toNat ≠ 0) : countAdmitted count = true := decide_eq_true h

theorem averagingOp_zero (last : List Micro) (ret : Ret) (s : State) :
    averagingOp 0 last ret s = .refused .zeroCount := rfl

theorem averagingOp_poweredDown {s : State} {count : Byte} (last : List Micro) (ret : Ret) (hcount : count.toNat ≠ 0)
    (hphase : s.lc.phase = .poweredDown) : averagingOp count last ret s = .refused .poweredDown := by
  rw [averagingOp, if_neg (by simp [countAdmitted_of_ne hcount]), if_pos hphase]

theorem averagingOp_admitted {s : State} {count : Byte} (last : List Micro) (ret : Ret) (hcount : count.toNat ≠ 0)
    (hphase : s.lc.phase ≠ .poweredDown) :
    averagingOp count last ret s = pinOp (readsProg s count ++ last) ret s := by
  rw [averagingOp, if_neg (by simp [countAdmitted_of_ne hcount]), if_neg hphase]

/-- An averaging operation that answers a next state was not refused. -/
theorem admitted_of_averagingOp {s t : State} {count : Byte} {last : List Micro} {ret : Ret}
    (h : averagingOp count last ret s = .next t) : count.toNat ≠ 0 ∧ s.lc.phase ≠ .poweredDown := by
  have hcount : count.toNat ≠ 0 := by
    intro hzero
    rw [show count = 0 from BitVec.eq_of_toNat_eq hzero, averagingOp_zero] at h
    nomatch h
  refine ⟨hcount, fun hphase => ?_⟩
  rw [averagingOp_poweredDown last ret hcount hphase] at h
  nomatch h

/-- Settles O59: the count is looked at first, then the phase. -/
theorem loadCellRefusals : Obligations.LoadCellRefusals := by
  refine fun s => ⟨⟨rfl, rfl, rfl, rfl⟩, fun hphase => ⟨if_pos hphase, fun count hne => ?_⟩⟩
  have hcount : count.toNat ≠ 0 := fun hzero => hne (BitVec.eq_of_toNat_eq hzero)
  exact ⟨averagingOp_poweredDown [] .average hcount hphase, averagingOp_poweredDown [.storeOffset] .unit hcount hphase,
    averagingOp_poweredDown [] .value hcount hphase, averagingOp_poweredDown [] .units hcount hphase⟩

/-! ### The operations over reads that find the line low (R266 to R269) -/

/-- What the four operations share: `n` admitted reads that need not wait, on a state with nothing pending. -/
structure ReadsComplete (s : State) (count : Byte) : Prop where
  nonzero : count.toNat ≠ 0
  powered : s.lc.phase ≠ .poweredDown
  pending : s.bc.pending = none
  low : readsReady s.env count.toNat

/-- The state after the reads of `count`, with the samples they took. -/
def afterReadsTaken (count : Byte) (s : State) : State :=
  (afterReads count.toNat s).withWork { samples := readValues s.env count.toNat }

theorem afterReads_pending {n : Nat} {s : State} (hp : s.bc.pending = none) : (afterReads n s).bc.pending = none := by
  rw [(onlyPins_afterReads n s).bc]
  exact hp

/-- The reads come to `afterReads` with the samples taken, and what follows them runs from there. -/
theorem averagingOp_reads {s : State} {count : Byte} (h : ReadsComplete s count) (last : List Micro) (ret : Ret) :
    averagingOp count last ret s = .next (run (last ++ [.ret ret]) (afterReadsTaken count s)) := by
  rw [averagingOp_admitted last ret h.nonzero h.powered, pinOp_next _ _ h.pending, List.append_assoc, readsProg]
  exact congrArg Host.Outcome.next (run_reads count.toNat [] _ h.pending rfl rfl h.low)

/-- With nothing to do after the reads, their samples and the state after them give the result. -/
theorem averagingOp_ret {s : State} {count : Byte} (h : ReadsComplete s count) (ret : Ret) :
    averagingOp count [] ret s =
      .next ((afterReads count.toNat s).finish ((afterReadsTaken count s).result ret)) := by
  rw [averagingOp_reads h, List.nil_append, run_ret ret (s := afterReadsTaken count s) (afterReads_pending h.pending)]
  rfl

theorem valueOf_afterReads (n : Nat) (s : State) :
    valueOf (readValues s.env n) (afterReads n s).lc.offset = averageValue s.env n - s.lc.offset.toInt := by
  rw [valueOf, meanOf_readValues, (afterReads_offset n s).1]

theorem exec_readAverage {s : State} {count : Byte} (h : ReadsComplete s count) :
    exec (.readAverage count) s =
      .next ((afterReads count.toNat s).finish (.i32 (BitVec.ofInt 32 (averageValue s.env count.toNat)))) := by
  rw [← meanOf_readValues]
  exact averagingOp_ret h .average

theorem exec_tare {s : State} {count : Byte} (h : ReadsComplete s count) :
    exec (.tare count) s = .next (({ afterReads count.toNat s with
      lc.offset := BitVec.ofInt 32 (averageValue s.env count.toNat) } : State).finish .unit) := by
  rw [← meanOf_readValues]
  let t : State := { afterReads count.toNat s with
    lc.offset := BitVec.ofInt 32 (meanOf (readValues s.env count.toNat)) }
  have hp : (afterReads count.toNat s).bc.pending = none := afterReads_pending h.pending
  refine (averagingOp_reads h [.storeOffset] .unit).trans (congrArg Host.Outcome.next ?_)
  exact (run_goWith (t := afterReads count.toNat s) (u := t) (v := { samples := readValues s.env count.toNat })
    [.ret .unit] hp rfl).trans (run_ret (s := t.withWork _) .unit hp)

theorem exec_getValue {s : State} {count : Byte} (h : ReadsComplete s count) :
    exec (.getValue count) s = .next ((afterReads count.toNat s).finish
      (.i32 (BitVec.ofInt 32 (averageValue s.env count.toNat - s.lc.offset.toInt)))) := by
  rw [← valueOf_afterReads]
  exact averagingOp_ret h .value

theorem exec_getUnits {s : State} {count : Byte} (h : ReadsComplete s count) :
    exec (.getUnits count) s = .next ((afterReads count.toNat s).finish
      (.rational (((averageValue s.env count.toNat - s.lc.offset.toInt : Int) : Rat) / s.lc.scale))) := by
  rw [← valueOf_afterReads, ← (afterReads_offset count.toNat s).2]
  exact averagingOp_ret h .units

/-! ### No overflow (R266, R268) -/

theorem averageValue_bounds (e : Env) (n : Nat) : -8388608 ≤ averageValue e n ∧ averageValue e n ≤ 8388607 := by
  rw [← meanOf_readValues]
  exact meanOf_bounds _ (sampleRange_readValues e n)

theorem toInt_ofInt_averageValue (e : Env) (n : Nat) :
    (BitVec.ofInt 32 (averageValue e n)).toInt = averageValue e n := by
  rw [← meanOf_readValues]
  exact ofInt_meanOf_toInt _ (sampleRange_readValues e n)

/-- The difference of two numbers in the range of a sample needs 25 bits. -/
theorem toInt_ofInt_value (e : Env) (n : Nat) {offset : Word} (hoffset : sampleRange offset) :
    (BitVec.ofInt 32 (averageValue e n - offset.toInt)).toInt = averageValue e n - offset.toInt := by
  obtain ⟨hlo, hhi⟩ := averageValue_bounds e n
  obtain ⟨hlo', hhi'⟩ := hoffset
  rw [BitVec.toInt_ofInt]
  exact Int.bmod_eq_of_le (by omega) (by omega)

/-! ### The obligations -/

/-- Settles O57: each operation is its reads and a computation on their samples, and the numbers fit in 32 bits. -/
theorem averagingOperationsComplete : Obligations.AveragingOperationsComplete := by
  intro s count hcount hphase hp hr
  have h : ReadsComplete s count := ⟨hcount, hphase, hp, hr⟩
  exact ⟨BitVec.ofInt 32 (averageValue s.env count.toNat), toInt_ofInt_averageValue s.env count.toNat, exec_readAverage h,
    exec_tare h, exec_getUnits h, fun hoffset => ⟨BitVec.ofInt 32 (averageValue s.env count.toNat - s.lc.offset.toInt),
      toInt_ofInt_value s.env count.toNat hoffset, exec_getValue h⟩⟩

/-- Settles O58: the offset stored is the mean of the samples, and their mean less itself is 0. -/
theorem tareThenGetValueIsZero : Obligations.TareThenGetValueIsZero := by
  intro s t u count hp hs ht hsame htare hvalue
  obtain ⟨hcount, hphase⟩ := admitted_of_averagingOp htare
  obtain ⟨-, hphase'⟩ := admitted_of_averagingOp hvalue
  obtain rfl := Host.Outcome.next.inj ((exec_tare ⟨hcount, hphase, hp, hs⟩).symm.trans htare)
  obtain rfl := Host.Outcome.next.inj
    ((exec_getValue ⟨hcount, hphase', afterReads_pending hp, ht⟩).symm.trans hvalue)
  let n : Nat := count.toNat
  let e : Env := (afterReads n s).env
  have hmean : averageValue e n = averageValue s.env n := by
    rw [← meanOf_readValues, ← meanOf_readValues]
    exact congrArg meanOf hsame
  calc
    Result.i32 (BitVec.ofInt 32 (averageValue e n - (BitVec.ofInt 32 (averageValue s.env n)).toInt))
      = .i32 (BitVec.ofInt 32 (averageValue s.env n - averageValue s.env n)) := by
        rw [hmean, toInt_ofInt_averageValue]
    _ = .i32 0 := by rw [Int.sub_self]; rfl

end Sys2Proof.Machine
end

section
/-! PROOFS. What the load-cell operations leave alone (spec/45_loadcell.md R264, R266, spec/10_state.md R44 to R46), in the step
that issues them and in every step that goes on with them. -/

namespace Sys2Proof.Machine

/-! ### The frame -/

/-- What load-cell operation `i`, not `set_gain`, leaves alone, and the events it may emit while no bus action is
pending. -/
structure LoadCellFrame (i : Instr) (s t : State) : Prop where
  construction : sameConstruction s t
  cmds : t.cmds = s.cmds
  refused : t.refused = s.refused
  handle : t.sb = s.sb
  display : t.lcd = s.lcd
  gain : t.lc.gain = s.lc.gain
  offset : (∀ count, i ≠ .tare count) → t.lc.offset = s.lc.offset
  bus : s.bc.pending = none → t.bc = s.bc ∧ Emits (·.ofPins = true) s t

theorem LoadCellFrame.trans {i : Instr} {s t u : State} (h : LoadCellFrame i s t) (k : LoadCellFrame i t u) :
    LoadCellFrame i s u where
  construction := h.construction.trans k.construction
  cmds := k.cmds.trans h.cmds
  refused := k.refused.trans h.refused
  handle := k.handle.trans h.handle
  display := k.display.trans h.display
  gain := k.gain.trans h.gain
  offset hi := (k.offset hi).trans (h.offset hi)
  bus hp := by
    obtain ⟨hbc, hpins⟩ := h.bus hp
    obtain ⟨hbc', hpins'⟩ := k.bus (by rw [hbc]; exact hp)
    exact ⟨hbc'.trans hbc, hpins.trans hpins'⟩

/-- The oracle's chance changes the bus only when an action is pending. -/
theorem loadCellFrame_tick (i : Instr) (s : State) : LoadCellFrame i s s.tick where
  construction := sameConstruction_tick s
  cmds := s.tick_cmds
  refused := s.tick_refused
  handle := s.tick_sb
  display := s.tick_lcd
  gain := by rw [State.tick_lc]
  offset _ := by rw [State.tick_lc]
  bus hp := by
    rw [State.tick_of_idle_bus hp]
    exact ⟨rfl, .nil rfl⟩

/-- A write of the clock, the phase, the oracle and the model's own fields, with at most pin events. -/
theorem loadCellFrame_pins (i : Instr) (s : State) {events : List Event} (hpins : ∀ e ∈ events, e.ofPins = true)
    (clk : Bit) (phase : LcPhase) (env : Env) (work : Work) (ret : Result) :
    LoadCellFrame i s { s with
      hist := s.hist ++ events, lc.clk := clk, lc.phase := phase, env := env, work := work, ret := ret } where
  construction := .refl s
  cmds := rfl
  refused := rfl
  handle := rfl
  display := rfl
  gain := rfl
  offset _ := rfl
  bus _ := ⟨rfl, events, rfl, hpins⟩

/-- A write of the model's own fields alone. -/
theorem loadCellFrame_own (i : Instr) (s : State) (work : Work) (ret : Result) :
    LoadCellFrame i s { s with work := work, ret := ret } := by
  have h := loadCellFrame_pins i s (events := []) nofun s.lc.clk s.lc.phase s.env work ret
  rwa [List.append_nil] at h

/-- A phase write leaves the history alone. -/
theorem loadCellFrame_lcPhase (i : Instr) (s : State) (p : LcPhase) : LoadCellFrame i s { s with lc.phase := p } := by
  have h := loadCellFrame_pins i s (events := []) nofun s.lc.clk p s.env s.work s.ret
  rwa [List.append_nil] at h

theorem loadCellFrame_sampled (i : Instr) (s : State) : LoadCellFrame i s s.sampled :=
  loadCellFrame_pins i s (events := [.dout s.level]) (by simp [Event.ofPins]) s.lc.clk s.lc.phase (s.env.advance 1)
    s.work s.ret

theorem loadCellFrame_delay (i : Instr) (s : State) (ns : Nat) : LoadCellFrame i s (s.delay ns) :=
  loadCellFrame_pins i s (events := [.delay ns]) (by simp [Event.ofPins]) s.lc.clk s.lc.phase s.env s.work s.ret

theorem loadCellFrame_driveClk (i : Instr) (s : State) (l : Bit) : LoadCellFrame i s (s.driveClk l) :=
  loadCellFrame_pins i s (events := [.clk l]) (by simp [Event.ofPins]) l s.lc.phase s.env s.work s.ret

theorem loadCellFrame_offset (count : Byte) (s : State) (v : Word) :
    LoadCellFrame (.tare count) s { s with lc.offset := v } where
  construction := .refl s
  cmds := rfl
  refused := rfl
  handle := rfl
  display := rfl
  gain := rfl
  offset hi := absurd rfl (hi count)
  bus _ := ⟨rfl, .nil rfl⟩

/-! ### The primitive steps -/

/-- A load-cell operation delays, drives and samples the pins, writes the phase and takes values; `tare` writes the offset;
no other primitive step is its own. -/
theorem loadCellFrame_stepMicro {i : Instr} {s : State} {m : Micro} (hi : partOf i = .loadCell) (hm : mayTake i s m)
    (u : State) : LoadCellFrame i u (stepMicro m u).state := by
  have hdriver : partOf i ≠ .driver := by simp [hi]
  cases m <;> simp only [stepMicro]
  case delay ns => exact loadCellFrame_delay i u ns
  case clk l => exact loadCellFrame_driveClk i u l
  case lcPhase p => exact loadCellFrame_lcPhase i u p
  case takeBit => exact (loadCellFrame_sampled i u).trans (loadCellFrame_own i u.sampled _ u.ret)
  case takeReady => exact (loadCellFrame_sampled i u).trans (loadCellFrame_own i u.sampled _ u.ret)
  case endByte => exact loadCellFrame_own i u _ u.ret
  case endRead => exact loadCellFrame_own i u _ u.ret
  case pollReady ns =>
    split
    · exact (loadCellFrame_sampled i u).trans (loadCellFrame_delay i u.sampled ns)
    · exact loadCellFrame_sampled i u
  case pollRetry retries ns =>
    exact pollRetry_rel (R := LoadCellFrame i) LoadCellFrame.trans (loadCellFrame_tick i) (loadCellFrame_sampled i)
      (loadCellFrame_delay i) (fun s _ => loadCellFrame_own i s _ s.ret) retries ns u
  case storeOffset =>
    obtain ⟨count, rfl⟩ := hm
    exact loadCellFrame_offset count u _
  case launch | wait | addressed | takeByte | takeAck => exact absurd hi hm
  case needAck => exact absurd (hm ▸ rfl) hdriver
  case setShadow | setBl => exact absurd hm.1 hdriver
  case rewritePort v => exact absurd hm hdriver
  case release | ret | refuse => exact hm.elim

theorem issued_loadCellFrame {i : Instr} {s t : State} (hi : partOf i = .loadCell) (h : Issued i s t) (k : Nat) :
    LoadCellFrame i s (goOn k t) :=
  issued_goOn_rel (R := LoadCellFrame i) LoadCellFrame.trans (loadCellFrame_tick i)
    (work := fun s w => loadCellFrame_own i s w s.ret) (ret := fun s r => loadCellFrame_own i s s.work r)
    (held := fun hd => by rw [hi] at hd; nomatch hd) (micro := fun _ hm u => loadCellFrame_stepMicro hi hm u) h k

/-! ### The obligation -/

/-- `set_gain` has ended as it is issued, with the gain code written and nothing else. -/
theorem goOn_setGain {s u : State} {gain : Byte} (h : exec (.setGain gain) s = .next u) (k : Nat) :
    goOn k u = ({ s with lc.gain := gainCode gain s.lc.gain } : State).finish .unit := by
  obtain rfl := Host.Outcome.next.inj h
  exact goOn_idle rfl k

/-- Settles O60: every operation but `set_gain` runs primitive steps that keep the frame, and `set_gain` runs none. -/
theorem loadCellOperationsFrame : Obligations.LoadCellOperationsFrame := by
  intro i s u k hi h
  by_cases hgain : ∃ gain, i = .setGain gain
  · obtain ⟨gain, rfl⟩ := hgain
    rw [goOn_setGain h k]
    exact ⟨rfl, rfl, rfl, rfl, rfl, rfl, rfl, fun hne => absurd rfl (hne gain), fun _ => rfl, fun _ => ⟨rfl, Emits.nil rfl⟩⟩
  · have hhandle : partOf i ≠ .handle := by simp [hi]
    have frame := issued_loadCellFrame hi (exec_issued hhandle (fun gain he => hgain ⟨gain, he⟩) h) k
    obtain ⟨-, -, -, -, -, hpwm, hscale, hcfg⟩ := frame.construction
    exact ⟨frame.handle, frame.display, hpwm, hcfg, frame.cmds, frame.refused, hscale, fun _ => frame.gain, frame.offset,
      frame.bus⟩

end Sys2Proof.Machine
end

section
/-! PROOFS. A driver operation and its acquisition (spec/41_shared_bus.md R173): on a held handle it raises `BusBusy` and no
more (spec/60_exceptions.md R301), and while it is held it stands in a bus wait and keeps the handle (R306). -/

namespace Sys2Proof.Machine

/-! ### Programs that await what they launch -/

/-- A step that goes on at once, or ends the operation, and leaves no action pending that was not. -/
def Micro.passes : Micro → Bool
  | .launch a => !slow a
  | .addressed _ _ | .takeByte | .takeAck | .needAck | .delay _ | .setShadow _ _ | .setBl _ => true
  | _ => false

/-- The body of a driver operation waits right after each action that completes later, and nowhere else. -/
inductive AwaitsEach : List Micro → Prop where
  | nil : AwaitsEach []
  | passing {m : Micro} {rest : List Micro} (hm : m.passes = true) (hrest : AwaitsEach rest) : AwaitsEach (m :: rest)
  | action {a : BusAction} {rest : List Micro} (ha : slow a = true) (hrest : AwaitsEach rest) :
      AwaitsEach (.launch a :: .wait :: rest)
  | rewrite {v : Bit} {rest : List Micro} (hrest : AwaitsEach rest) : AwaitsEach (.rewritePort v :: .wait :: rest)

theorem AwaitsEach.append {l l' : List Micro} (h : AwaitsEach l) (h' : AwaitsEach l') : AwaitsEach (l ++ l') := by
  induction h with
  | nil => exact h'
  | passing hm _ ih => exact .passing hm ih
  | action ha _ ih => exact .action ha ih
  | rewrite _ ih => exact .rewrite ih

theorem awaitsEach_flatMap {α : Type} {l : List α} {f : α → List Micro} (h : ∀ a, AwaitsEach (f a)) :
    AwaitsEach (l.flatMap f) := by
  induction l with
  | nil => exact .nil
  | cons a l ih =>
    rw [List.flatMap_cons]
    exact (h a).append ih

theorem awaitsEach_delay (ns : Nat) : AwaitsEach [.delay ns] := .passing rfl .nil

theorem awaitsEach_address (addr : Addr7) (dir : Dir) : AwaitsEach (addressProg addr dir) :=
  .action rfl (.action rfl (.passing rfl .nil))

theorem awaitsEach_writeReg (addr : Addr7) (bytes : List Byte) : AwaitsEach (writeRegProg addr bytes) :=
  ((awaitsEach_address addr .write).append (awaitsEach_flatMap fun _ => .action rfl .nil)).append (.passing rfl .nil)

theorem awaitsEach_ping (addr : Addr7) : AwaitsEach (pingProg addr) :=
  (awaitsEach_address addr .write).append (.passing rfl (.passing rfl .nil))

theorem awaitsEach_expRead (s : State) : AwaitsEach (expReadProg s) :=
  (awaitsEach_address s.lcd.addr .read).append (.action rfl (.passing rfl (.passing rfl .nil)))

theorem awaitsEach_pulse (s : State) (nib : Nibble) (mode : Mode) : AwaitsEach (pulseProg s nib mode) :=
  (((awaitsEach_writeReg _ _).append (awaitsEach_delay _)).append (awaitsEach_writeReg _ _)).append (awaitsEach_delay _)

theorem awaitsEach_send (s : State) (value : Byte) (mode : Mode) : AwaitsEach (sendProg s value mode) :=
  (awaitsEach_pulse s _ mode).append (awaitsEach_pulse s _ mode)

theorem awaitsEach_sendAll (s : State) (bytes : List Byte) : AwaitsEach (sendAllProg s bytes) :=
  awaitsEach_flatMap fun b => awaitsEach_send s b .data

theorem awaitsEach_readNibble (s : State) (mode : Mode) : AwaitsEach (readNibbleProg s mode) :=
  ((((awaitsEach_writeReg _ _).append (awaitsEach_delay _)).append (awaitsEach_expRead s)).append
    (awaitsEach_writeReg _ _)).append (awaitsEach_delay _)

theorem awaitsEach_receiveByte (s : State) (mode : Mode) : AwaitsEach (receiveByteProg s mode) :=
  (awaitsEach_readNibble s mode).append (awaitsEach_readNibble s mode)

theorem awaitsEach_shadowCommand (s : State) (r : Shadow) (v : Byte) : AwaitsEach (shadowCommandProg s r v) :=
  .passing rfl (awaitsEach_send s v .cmd)

theorem awaitsEach_commandWrite (s : State) (cmd : Byte) : AwaitsEach (commandWriteProg s cmd) := by
  unfold commandWriteProg
  split
  · exact awaitsEach_shadowCommand s _ cmd
  · exact awaitsEach_send s cmd .cmd

theorem awaitsEach_clear (s : State) : AwaitsEach (clearProg s) :=
  (awaitsEach_send s _ .cmd).append (awaitsEach_delay _)

theorem awaitsEach_lcdInit (s : State) : AwaitsEach (lcdInitProg s) := by
  have hwake (nib : Nibble) (ns : Nat) {before : List Micro} (h : AwaitsEach before) :
      AwaitsEach (before ++ pulseProg s nib .cmd ++ [.delay ns]) :=
    (h.append (awaitsEach_pulse s nib .cmd)).append (awaitsEach_delay ns)
  exact ((((hwake _ _ (hwake _ _ (hwake _ _ (hwake _ _ (awaitsEach_delay _))))).append
    (awaitsEach_shadowCommand s _ _)).append (awaitsEach_shadowCommand s _ _)).append
    (awaitsEach_shadowCommand s _ _)).append (awaitsEach_clear s)

theorem awaitsEach_createChar (s : State) (loc : Byte) (map : List Byte) : AwaitsEach (createCharProg s loc map) :=
  (awaitsEach_send s _ .cmd).append (awaitsEach_sendAll s map)

theorem awaitsEach_setBacklight (s : State) (v : Bit) : AwaitsEach (setBacklightProg s v) :=
  .passing rfl (((awaitsEach_expRead s).append (awaitsEach_address _ _)).append (.rewrite (.passing rfl .nil)))

theorem awaitsEach_pwmInit (s : State) : AwaitsEach (pwmInitProg s) :=
  (((awaitsEach_ping _).append (.passing rfl .nil)).append (awaitsEach_writeReg _ _)).append (awaitsEach_writeReg _ _)

/-! ### One acquisition around a body (41_shared_bus.md R173) -/

/-- Every display and PWM operation that acquires by itself is one acquisition around such a body. -/
theorem exec_driver (i : Instr) (s : State) (hpart : partOf i = .driver) :
    ∃ check prog ret, AwaitsEach prog ∧ exec i s = driverOp check prog ret s := by
  cases i <;> simp only [exec]
  case lcdInit => exact ⟨_, _, _, awaitsEach_lcdInit s, rfl⟩
  case writeChar | scrollLeft | scrollRight | send | setCursor => exact ⟨_, _, _, awaitsEach_send s _ _, rfl⟩
  case writeStr str => exact ⟨_, _, _, awaitsEach_sendAll s str, rfl⟩
  case commandWrite cmd => exact ⟨_, _, _, awaitsEach_commandWrite s cmd, rfl⟩
  case commandRead | receive => exact ⟨_, _, _, awaitsEach_receiveByte s _, rfl⟩
  case displayOn | displayOff | cursorOn | cursorOff | blinkOn | blinkOff =>
    exact ⟨_, _, _, awaitsEach_shadowCommand s .ctrl _, rfl⟩
  case leftToRight | rightToLeft | autoscroll | noAutoscroll =>
    exact ⟨_, _, _, awaitsEach_shadowCommand s .entry _, rfl⟩
  case createChar loc map => exact ⟨_, _, _, awaitsEach_createChar s loc map, rfl⟩
  case backlight | noBacklight | setBacklight => exact ⟨_, _, _, awaitsEach_setBacklight s _, rfl⟩
  case clear => exact ⟨_, _, _, awaitsEach_clear s, rfl⟩
  case pwmInit => exact ⟨_, _, _, awaitsEach_pwmInit s, rfl⟩
  case setChannel channel on off => exact ⟨_, _, _, awaitsEach_writeReg _ _, rfl⟩
  all_goals exact absurd hpart (by simp [partOf])

theorem driverOp_of_held {s : State} (check : Option Refusal) (prog : List Micro) (ret : Ret)
    (hheld : s.sb.held = true) : driverOp check prog ret s = .next (s.raise .busBusy) := if_pos hheld

/-- Settles O30: the acquisition looks at the handle before the operation's own check and its body. -/
theorem driverOperationWhileHeldRaisesBusBusy : Obligations.DriverOperationWhileHeldRaisesBusBusy := by
  intro s i hheld hpart
  obtain ⟨check, prog, ret, -, hexec⟩ := exec_driver i s hpart
  exact hexec.trans (driverOp_of_held check prog ret hheld)

/-! ### Where a driver operation is held (60_exceptions.md R306, 70_reset_and_hazards.md R350) -/

/-- A driver operation has ended, or waits inside its acquisition for a pending action, with only such steps and the
release to come. -/
inductive EndedOrKeepsHandle (u : State) : Prop where
  | ended (todo : u.work.todo = [])
  | waits (body : List Micro) (ret : Ret) (awaits : AwaitsEach body)
      (todo : u.work.todo = .wait :: (body ++ [.release, .ret ret])) (held : u.sb.held = true)
      (ready : u.bc.ready = false) (pending : u.bc.pending ≠ none)

theorem stepMicro_passes {m : Micro} (hm : m.passes = true) (s : State) :
    (∃ t, stepMicro m s = .go t ∧ t.sb = s.sb ∧ t.bc.pending = s.bc.pending) ∨ ∃ t, stepMicro m s = .ended t := by
  cases m
  case launch a =>
    cases a
    case stop => exact .inl ⟨_, rfl, rfl, rfl⟩
    all_goals nomatch hm
  case needAck =>
    rw [stepMicro]
    split
    · exact .inl ⟨_, rfl, rfl, rfl⟩
    · exact .inr ⟨_, rfl⟩
  case setShadow r v => exact .inl ⟨_, rfl, s.setShadow_sb r v, by rw [State.setShadow_bc]⟩
  case addressed | takeByte | takeAck | delay | setBl => exact .inl ⟨_, rfl, rfl, rfl⟩
  all_goals nomatch hm

/-- A launch on an idle bus goes on with its action pending and the ready flag clear (40_bus_controller.md R130). -/
theorem stepMicro_launch_slow {a : BusAction} {s : State} (ha : slow a = true) (hp : s.bc.pending = none) :
    stepMicro (.launch a) s = .go (s.launch a) ∧ (s.launch a).bc.pending = some a ∧ (s.launch a).bc.ready = false := by
  refine ⟨by rw [stepMicro, hp]; exact if_neg (by simp), ?_⟩
  cases a
  case stop => nomatch ha
  all_goals exact ⟨rfl, rfl⟩

theorem stepMicro_rewritePort {s : State} (v : Bit) (hp : s.bc.pending = none) :
    stepMicro (.rewritePort v) s = .go (s.launch (.tx (withBacklight s.work.lastByte v))) := by
  rw [stepMicro, hp]
  rfl

/-- A wait for a pending action is held with the handle, or goes on with nothing pending. -/
theorem run_wait_keepsHandle {s : State} {a : BusAction} {body : List Micro} {ret : Ret} (hbody : AwaitsEach body)
    (hheld : s.sb.held = true) (hready : s.bc.ready = false) (hp : s.bc.pending = some a)
    (goes : ∀ t : State, t.sb.held = true → t.bc.pending = none →
      EndedOrKeepsHandle (run (body ++ [.release, .ret ret]) t)) :
    EndedOrKeepsHandle (run (.wait :: (body ++ [.release, .ret ret])) s) := by
  cases hd : (s.env.answer 0).done with
  | true =>
    have htick := tick_of_done hp hd
    rw [run_wait_ready _ (by rw [htick, complete_ready])]
    exact goes s.tick (by rw [State.tick_sb, hheld]) (by rw [htick, complete_pending])
  | false =>
    have htick := tick_of_not_done hp hd
    rw [run_wait_holds _ (by rw [htick]; exact hready), htick]
    exact .waits body ret hbody rfl hheld hready (by simp [hp])

/-- Inside its acquisition and with nothing pending, the rest of a driver operation ends or waits: it holds nowhere else,
and no launch of its own finds an action pending. -/
theorem AwaitsEach.run {body : List Micro} (h : AwaitsEach body) (ret : Ret) (s : State) (hheld : s.sb.held = true)
    (hp : s.bc.pending = none) : EndedOrKeepsHandle (run (body ++ [.release, .ret ret]) s) := by
  induction h generalizing s with
  | nil =>
    rw [List.nil_append, run_driverEnd ret hp]
    exact .ended rfl
  | passing hm _ ih =>
    obtain ⟨t, ht, hsb, htp⟩ | ⟨t, ht⟩ := stepMicro_passes hm s
    · rw [List.cons_append, run_go _ hp ht]
      exact ih t (hsb ▸ hheld) (htp.trans hp)
    · rw [List.cons_append, run_over _ hp ht]
      exact .ended rfl
  | action ha hrest ih =>
    obtain ⟨hgo, hpending, hready⟩ := stepMicro_launch_slow ha hp
    rw [List.cons_append, List.cons_append, run_go _ hp hgo]
    exact run_wait_keepsHandle hrest (by rw [State.launch_sb, hheld]) hready hpending ih
  | rewrite hrest ih =>
    rw [List.cons_append, List.cons_append, run_go _ hp (stepMicro_rewritePort _ hp)]
    exact run_wait_keepsHandle hrest hheld rfl rfl ih

theorem EndedOrKeepsHandle.goOn {u : State} (h : EndedOrKeepsHandle u) (k : Nat) : EndedOrKeepsHandle (goOn k u) := by
  refine goOn_inv (fun t ht hleft _ => ?_) k u h
  cases ht with
  | ended todo => exact absurd todo hleft
  | waits body ret awaits todo held ready pending =>
    obtain ⟨a, ha⟩ := Option.ne_none_iff_exists'.mp pending
    rw [todo]
    exact run_wait_keepsHandle awaits held ready ha (awaits.run ret)

/-- Settles O31: from its issue on the operation has ended or waits for its own action inside its acquisition. -/
theorem aHeldDriverOperationKeepsTheHandle : Obligations.AHeldDriverOperationKeepsTheHandle := by
  intro s u i k hfree hp hpart hexec t hleft
  obtain ⟨check, prog, ret, hprog, hop⟩ := exec_driver i s hpart
  obtain ⟨hheld, -⟩ | ⟨-, -, hu⟩ := driverOp_eq (hop.symm.trans hexec)
  · rw [hfree] at hheld
    nomatch hheld
  · have hissued : EndedOrKeepsHandle u := hu ▸ hprog.run ret { s.hold with work := .idle } rfl hp
    cases hissued.goOn k with
    | ended todo => exact absurd todo hleft
    | waits _ _ _ _ held ready pending => exact ⟨held, ready, pending⟩

end Sys2Proof.Machine
end

section
/-! PROOFS. What construction refuses (spec/70_reset_and_hazards.md R334 to R336): the checks read from their failing side. -/

namespace Sys2Proof.Machine

/-- Construction has one refusal, and its checks alone decide it. -/
theorem construct_refused_iff {a : ConstructArgs} {r : Refusal} :
    construct a = .refused r ↔ a.inRange = false ∧ r = .badParameter := by
  cases h : a.inRange with
  | true => simp [construct_of_inRange h]
  | false => simp [construct, h, eq_comm]

/-- The checks fail just when one of them does: the display's (R334), the PWM device's (R335) or the load cell's (R336). -/
theorem inRange_eq_false_iff {a : ConstructArgs} :
    a.inRange = false ↔
      128 ≤ a.lcdAddr ∨ a.numLines < 1 ∨ 4 < a.numLines ∨ 128 ≤ a.pwmAddr ∨ 0xFF < a.params.pwmLed0Base + 4 * 15 + 3
      ∨ 0xFF < a.params.pwmRegMode1 ∨ 0xFF < a.params.pwmMode1Value ∨ 0xFF < a.params.pwmRegPrescale
      ∨ 0xFF < a.params.pwmPrescaleValue ∨ a.lcGainInit < 1 ∨ 3 < a.lcGainInit ∨ a.lcScale = 0 := by
  simp only [ConstructArgs.inRange, Bool.and_eq_false_iff, decide_eq_false_iff_not, not_and_or, not_lt, not_le, ne_eq,
    not_not, or_assoc]

/-- Settles O11: construction refuses just when its checks fail, and they fail just when an argument is out of range. -/
theorem badParametersAreRefused : Obligations.BadParametersAreRefused := fun a =>
  calc
    construct a = .refused .badParameter ↔ a.inRange = false := by simp [construct_refused_iff]
    _ ↔ _ := inRange_eq_false_iff

end Sys2Proof.Machine
end
